-- ==== Sys2Proof/Word.lean ====
section
/-! DEFINITION. The word types of the LZNA quantum decoder core. -/

namespace Sys2Proof

/-- One byte of SRC or DST (20_memory.md R60, R61). -/
abbrev Byte := BitVec 8

/-- An address, a cursor or an argument register: ADDR_W = 64 bits (00_scope.md R6). -/
abbrev Addr := BitVec 64

/-- An accumulator: ACC_W = 64 bits (10_state.md R21). -/
abbrev Acc := BitVec 64

/-- A probability cell: CELL_W = 16 bits (10_state.md R37). -/
abbrev Prob := BitVec 16

/-- A history entry: DIST_W = 32 bits (10_state.md R26). -/
abbrev Dist := BitVec 32

/-- The decoder state, an integer in [0, 11] (10_state.md R25). -/
abbrev DecState := Fin 12

end Sys2Proof
end

