-- ==== Sys2Proof/Config.lean ====
section
/-! DEFINITION. The parameters of 00_scope.md R6, their well-formedness (R7), the default record, and the free values. -/

namespace Sys2Proof.Config

/-- The parameters of 00_scope.md R6 that the spec decided: the values a claim can name or quantify over
(notes/assumptions/11). What the source fixes is a type of Word.lean or a constant below. -/
structure Params where
  /-- WIRE_BIG_ENDIAN: the byte order of SRC words (20_memory.md R62). -/
  wireBigEndian : Bool
  /-- RATE_SHIFT: the adaptation shift (41_models.md R141). -/
  rateShift : Nat
  /-- P_MIN: the lower clamp bound of a cell. -/
  pMin : Nat
  /-- P_MAX: the upper clamp bound of a cell. -/
  pMax : Nat
  /-- BIT_INIT: the initial value of a plain BitModel cell. -/
  bitInit : Prob
  /-- NIB_INIT: the initializer table of a NibbleModel. -/
  nibInit : Vector Prob 17
  /-- TB_INIT: the initializer table of a ThreeBitModel. -/
  tbInit : Vector Prob 9
  /-- NEXT_LIT: the decoder state after a literal (44_quantum_loop.md R205). -/
  nextLit : Vector DecState 12
  /-- NEXT_NEW: the decoder state after a new-distance match. -/
  nextNew : Vector DecState 12
  /-- NEXT_REP: the decoder state after a full rep-match. -/
  nextRep : Vector DecState 12
  /-- NEXT_SHORTREP: the decoder state after a short rep-match. -/
  nextShortrep : Vector DecState 12
  /-- LIT_STATE_LIMIT: the states at or above it follow a match. -/
  litStateLimit : Nat
  /-- REFILL_BITS: the bits of one refill (40_bitreader.md R122). -/
  refillBits : Nat
  /-- RENORM_LOW: an accumulator below this value is refilled (40_bitreader.md R122). -/
  renormLow : Nat
  /-- HEADER_BYTES: the bytes read at reader construction, half for each accumulator (40_bitreader.md R121). -/
  headerBytes : Nat
  /-- RAW_MAX: the largest n of `ReadBits(n)` (40_bitreader.md R124). -/
  rawMax : Nat
  /-- POS_BITS: the bits of the positional index of `is_lit` (44_quantum_loop.md R203). -/
  posBits : Nat
  /-- LIT_CTX_BITS: the top bits of the previous byte that pick a LiteralModel (42_literal.md R161). -/
  litCtxBits : Nat
  /-- T_FAR: the type code point of MATCH_FAR (30_encoding.md R93). -/
  tFar : BitVec 4
  /-- T_NEAR0: the type code point of MATCH_NEAR0. -/
  tNear0 : BitVec 4
  /-- T_NEAR1: the type code point of MATCH_NEAR1. -/
  tNear1 : BitVec 4
  /-- T_REP: the type code point of REP. -/
  tRep : BitVec 4
  /-- T_SHORTREP: the type code point of SHORTREP. -/
  tShortrep : BitVec 4
  /-- MIN_LEN: the shortest length of the medium/long scheme (43_match.md R172). -/
  minLen : Nat
  /-- SHORT_BASE: the shortest short-rep length (43_match.md R184). -/
  shortBase : Nat
  /-- LONG_BASE1: the shortest length of the first long nibble (43_match.md R172). -/
  longBase1 : Nat
  /-- LONG_BASE2: the shortest length of the second long nibble. -/
  longBase2 : Nat
  /-- LONG_BASE3: the shortest length of the third long nibble. -/
  longBase3 : Nat
  /-- NEAR_LOW_BITS: the refinement bits of a near distance (43_match.md R173). -/
  nearLowBits : Nat
  /-- FAR_TREE_BITS: the modelled refinement bits of a far distance (43_match.md R174). -/
  farTreeBits : Nat
  /-- DIST_W: a distance is below 2^DIST_W (43_match.md R173). The type of a history entry holds 32 bits. -/
  distW : Nat
  /-- ADDR_W: the width of an address. The type of an address holds 64 bits. -/
  addrW : Nat
deriving DecidableEq, Repr

/-- PROB_BITS, the precision of a probability. -/
def probBits : Nat := 15

/-- PROB_ONE, the probability scale 2^PROB_BITS. -/
def probOne : Nat := 0x8000

/-- DIST_MAX, the largest far distance: HI, LO and every bit of R at their greatest (30_encoding.md R97). -/
def distMax : Nat := 1048560

/-- STATE_INIT: the decoder state after INIT. -/
def stateInit : DecState := 0

/-- HIST_CAP: the capacity of the match history. -/
def histCap : Nat := 8

/-- The number of probability cells of CTX (10_state.md R36). -/
def numCells : Nat := 2327

/-- A cell value is in [P_MIN, P_MAX]. -/
abbrev Params.InRange (P : Params) (p : Prob) : Prop := P.pMin ≤ p.toNat ∧ p.toNat ≤ P.pMax

/-- The five type code points (00_scope.md R7). -/
abbrev Params.codePoints (P : Params) : List (BitVec 4) := [P.tFar, P.tNear0, P.tNear1, P.tRep, P.tShortrep]

/-- 00_scope.md R7: a parameter record is well-formed. That every table entry lies in [0, 11] and every type code
point in [0, 15] is their type. -/
abbrev Params.Wf (P : Params) : Prop :=
  1 ≤ P.pMin ∧ P.pMin ≤ P.pMax ∧ P.pMax ≤ probOne - 1 ∧ 1 ≤ P.rateShift ∧
  P.InRange P.bitInit ∧ (∀ i : Fin 17, P.InRange P.nibInit[i]) ∧ (∀ i : Fin 9, P.InRange P.tbInit[i]) ∧
  (∀ i : Fin 12, (P.nextLit[i]).val < P.litStateLimit) ∧
  (∀ i : Fin 12, P.litStateLimit ≤ (P.nextNew[i]).val) ∧
  (∀ i : Fin 12, P.litStateLimit ≤ (P.nextRep[i]).val) ∧
  (∀ i : Fin 12, P.litStateLimit ≤ (P.nextShortrep[i]).val) ∧
  P.codePoints.Nodup

/-- The parameters that 00_scope.md R7 leaves unconstrained, and that the rules write as numbers, have those
numbers. The model sets of CTX (10_state.md R36, R42) and the widths of Word.lean are made for them. -/
structure Params.AsWritten (P : Params) : Prop where
  refillBits : P.refillBits = 32
  renormLow : P.renormLow = 2 ^ 31
  headerBytes : P.headerBytes = 16
  rawMax : P.rawMax = 16
  posBits : P.posBits = 3
  litCtxBits : P.litCtxBits = 3
  minLen : P.minLen = 2
  shortBase : P.shortBase = 1
  longBase1 : P.longBase1 = 9
  longBase2 : P.longBase2 = 24
  longBase3 : P.longBase3 = 39
  nearLowBits : P.nearLowBits = 2
  farTreeBits : P.farTreeBits = 4
  distW : P.distW = 32
  addrW : P.addrW = 64

/-- The bytes of one refill, REFILL_BITS / 8 (40_bitreader.md R122). -/
def Params.refillBytes (P : Params) : Nat := P.refillBits / 8

/-- The bytes of one of the two words of the header (40_bitreader.md R121). -/
def Params.headerWord (P : Params) : Nat := P.headerBytes / 2

/-- The number that a refilled accumulator stays below (40_bitreader.md R126). -/
def Params.renormTop (P : Params) : Nat := P.renormLow * 2 ^ P.refillBits

/-- MAX_LEN, the longest length an operation can carry: the third long nibble at 15 (30_encoding.md R96). -/
def Params.maxLen (P : Params) : Nat := P.longBase3 + 15

/-- The default record of 00_scope.md R6, which every test vector of the spec uses. -/
def params : Params where
  wireBigEndian := true
  rateShift := 5
  pMin := 1
  pMax := 0x7FFF
  bitInit := 0x4000
  nibInit := Vector.replicate 17 0x4000
  tbInit := Vector.replicate 9 0x4000
  nextLit := #v[0, 0, 0, 0, 1, 2, 3, 4, 5, 6, 4, 5]
  nextNew := #v[7, 7, 7, 7, 7, 7, 7, 10, 10, 10, 10, 10]
  nextRep := #v[8, 8, 8, 8, 8, 8, 8, 11, 11, 11, 11, 11]
  nextShortrep := #v[9, 9, 9, 9, 9, 9, 9, 11, 11, 11, 11, 11]
  litStateLimit := 7
  refillBits := 32
  renormLow := 2 ^ 31
  headerBytes := 16
  rawMax := 16
  posBits := 3
  litCtxBits := 3
  tFar := 0
  tNear0 := 1
  tNear1 := 2
  tRep := 3
  tShortrep := 4
  minLen := 2
  shortBase := 1
  longBase1 := 9
  longBase2 := 24
  longBase3 := 39
  nearLowBits := 2
  farTreeBits := 4
  distW := 32
  addrW := 64

/-- What the k-th read of a view register made while BUSY is 1 returns, before it is cut to the register's
width: not defined by the spec (10_state.md R35; 93_implementation_defined.md U4, "any value"). FREE VALUE. -/
opaque busyView : Nat → BitVec 64

/-- How many bytes of the operation in progress have reached DST when the k-th free value is read by a hardware
reset that lands while BUSY is 1 (70_reset_and_hazards.md R260; 93_implementation_defined.md U6, "any value").
FREE VALUE. -/
opaque resetCut : Nat → Nat

end Sys2Proof.Config
end

