-- ==== Sys2Proof/Machine/State.lean ====
section
/-! DEFINITION. The state of the machine, the host's events, the reasons a step can stop, and reset. -/

namespace Sys2Proof.Machine

/-- PHASE (10_state.md R24): what the block is doing; visible as STATUS.BUSY (R30). -/
inductive Phase where
  | idle
  | busy
deriving DecidableEq, Repr

/-- The causes of 60_exceptions.md R230. A raised cause is not a stop of the model: fault entry (R236) gives
a next state. -/
inductive Cause where
  | truncated
  | invalidDistance
  | outputOverrun
  | modelCorruption
  | notInitialised
  | badArguments
deriving DecidableEq, Repr

/-- The width of a host's register access (10_state.md R28 uses 64 and 16 bits; the others are the "any other
access size" that the block ignores). -/
inductive AccessSize where
  | b8
  | b16
  | b32
  | b64
deriving DecidableEq, Repr

/-- What the host can do to the block and to its two memories (10_state.md R28, 00_scope.md R15 and R16,
70_reset_and_hazards.md R260). That the host can read a byte of SRC, and that it may not while a command uses it, is
the model's choice: the spec says that the host owns SRC between commands (R15) and leaves open whether it can read
it. DESIGN CHOICE, notes/assumptions/26. -/
inductive HostAction where
  /-- Write a register of the block at a byte offset. -/
  | regWrite (offset : BitVec 64) (size : AccessSize) (value : BitVec 64)
  /-- Read a register of the block at a byte offset. -/
  | regRead (offset : BitVec 64) (size : AccessSize)
  /-- Write one byte of SRC. -/
  | srcWrite (addr : Addr) (value : Byte)
  /-- Read one byte of SRC. DESIGN CHOICE, notes/assumptions/26. -/
  | srcRead (addr : Addr)
  /-- Write one byte of DST. -/
  | dstWrite (addr : Addr) (value : Byte)
  /-- Read one byte of DST. -/
  | dstRead (addr : Addr)
  /-- Assert the reset input. -/
  | hwReset
deriving DecidableEq, Repr

/-- When a host event lands. Every event lands at once when the block is IDLE. -/
inductive Timing where
  /-- Only between commands. -/
  | afterCommand
  /-- Inside the command in progress, after `n` more moves of the decoder. -/
  | afterMoves (n : Nat)
deriving DecidableEq, Repr

/-- One event of the host. -/
structure HostEvent where
  timing : Timing
  action : HostAction
deriving DecidableEq, Repr

/-- Why the machine stops. Both are races with the host that the spec leaves undefined
(93_implementation_defined.md U2); stopping is safe, no claim about what follows can be proved. The six
causes of 60_exceptions.md R230 are not here: they are taken (`Cause`). -/
inductive Fault where
  /-- Raised by the host's event: while BUSY is 1 it wrote SRC[ARG_SRC, ARG_SRC_END) (70_reset_and_hazards.md R272
  HD3), or read it (20_memory.md R60, the decoder's exclusive read access; notes/assumptions/26). Safe. -/
  | raceOnSource
  /-- Raised by the host's event: it read or wrote DST[ARG_DST_START, ARG_DST_END) while BUSY is 1
  (70_reset_and_hazards.md R272 HD4). Safe. -/
  | raceOnWindow
deriving DecidableEq, Repr

/-- Why an instruction has no meaning. -/
inductive Refusal where
  /-- Raised by an arm of `exec` whose instruction is not modelled. Safe. No arm raises it. -/
  | notModelled (mnemonic : String)
deriving DecidableEq, Repr

/-- A byte memory: the cells that differ from what an unlisted address reads as, addresses strictly rising
(Machine/Memory.lean). -/
abbrev Memory := List Host.Cell

/-- The probability cells that differ from their initializer value, flat indices strictly rising
(Machine/Memory.lean, Machine/Models.lean). -/
abbrev Cells := List (Nat × Prob)

/-- The state of the block, of its two memories, and (last group) of the model's host interface. -/
structure State where
  /-- ACC_A, the accumulator the next primitive decodes from (10_state.md R21). -/
  accA : Acc
  /-- ACC_B, the accumulator after it (10_state.md R21). -/
  accB : Acc
  /-- CUR, the next source byte not yet read (10_state.md R22). -/
  cur : Addr
  /-- LIM, one past the last source byte (10_state.md R22). -/
  lim : Addr
  /-- WP, the write cursor (10_state.md R23). -/
  wp : Addr
  /-- DSTATE, the decoder state (10_state.md R25). -/
  dstate : DecState
  /-- HIST[0..7], most recent distance first (10_state.md R26). -/
  hist : Vector Dist 8
  /-- HIST_LEN, the number of valid entries (10_state.md R26). -/
  histLen : BitVec 4
  /-- CTX's probability cells (10_state.md R36, R42), in the sparse form of `Cells`. -/
  cells : Cells
  /-- PHASE, visible as STATUS.BUSY (10_state.md R24, R30). -/
  phase : Phase
  /-- STATUS.DONE (10_state.md R30). -/
  done : Bool
  /-- STATUS.FAULT (10_state.md R30). -/
  fault : Bool
  /-- STATUS.CTX_VALID (10_state.md R30). -/
  ctxValid : Bool
  /-- ERR (10_state.md R31). -/
  err : BitVec 8
  /-- RESULT (10_state.md R32). -/
  result : BitVec 64
  /-- ARG_DST (10_state.md R33). -/
  argDst : Addr
  /-- ARG_DST_END (10_state.md R33). -/
  argDstEnd : Addr
  /-- ARG_DST_START (10_state.md R33). -/
  argDstStart : Addr
  /-- ARG_SRC (10_state.md R33). -/
  argSrc : Addr
  /-- ARG_SRC_END (10_state.md R33). -/
  argSrcEnd : Addr
  /-- The SRC space (20_memory.md R60). -/
  src : Memory
  /-- The DST space (20_memory.md R61). -/
  dst : Memory
  /-- The model's own: the host's pending events, first one first. -/
  script : List HostEvent
  /-- The model's own: the data the host's last read returned. -/
  readData : BitVec 64
  /-- The model's own: how many free values have been read (`Config.busyView`). -/
  freeReads : Nat
deriving DecidableEq, Repr

namespace State

/-- The state after hardware reset (10_state.md R46, 70_reset_and_hazards.md R260). ACC_A, ACC_B, DSTATE,
HIST, HIST_LEN and the cells are unspecified there: DESIGN CHOICE, unsafe, notes/assumptions/4 to 7. -/
def reset : State where
  accA := 0
  accB := 0
  cur := 0
  lim := 0
  wp := 0
  dstate := 0
  hist := Vector.replicate 8 0
  histLen := 0
  cells := []
  phase := .idle
  done := false
  fault := false
  ctxValid := false
  err := 0
  result := 0
  argDst := 0
  argDstEnd := 0
  argDstStart := 0
  argSrc := 0
  argSrcEnd := 0
  src := []
  dst := []
  script := []
  readData := 0
  freeReads := 0

/-- Write both accumulators. -/
def setAcc (s : State) (a b : Acc) : State := { s with accA := a, accB := b }

/-- Write CUR. -/
def setCur (s : State) (c : Addr) : State := { s with cur := c }

/-- Write CUR and LIM. -/
def setReader (s : State) (c l : Addr) : State := { s with cur := c, lim := l }

/-- Write WP. -/
def setWp (s : State) (w : Addr) : State := { s with wp := w }

/-- Write DSTATE. -/
def setDstate (s : State) (d : DecState) : State := { s with dstate := d }

/-- Write HIST and HIST_LEN. -/
def setHist (s : State) (h : Vector Dist 8) (n : BitVec 4) : State := { s with hist := h, histLen := n }

/-- Replace the cells. -/
def setCells (s : State) (c : Cells) : State := { s with cells := c }

/-- Write PHASE and the three stored STATUS bits. -/
def setStatus (s : State) (phase : Phase) (done fault ctxValid : Bool) : State :=
  { s with phase := phase, done := done, fault := fault, ctxValid := ctxValid }

/-- Write ERR and RESULT. -/
def setOutcome (s : State) (e : BitVec 8) (r : BitVec 64) : State := { s with err := e, result := r }

/-- Replace the contents of SRC. -/
def setSrc (s : State) (m : Memory) : State := { s with src := m }

/-- Replace the contents of DST. -/
def setDst (s : State) (m : Memory) : State := { s with dst := m }

/-- Replace the host's pending events. -/
def setScript (s : State) (l : List HostEvent) : State := { s with script := l }

/-- Set the data the host's read returns. -/
def setReadData (s : State) (v : BitVec 64) : State := { s with readData := v }

/-- Count one free value as read. -/
def countFreeRead (s : State) : State := { s with freeReads := s.freeReads + 1 }

end State

end Sys2Proof.Machine
end

