-- ==== Sys2Proof/Machine/Flags.lean ====
section
/-! DEFINITION. STATUS. The hardware has no condition codes and no arithmetic flags (10_state.md R27); its only
flag-like state is the four STATUS bits (R30), written when a command is accepted, completes or faults. -/

namespace Sys2Proof.Machine

/-- STATUS.BUSY (10_state.md R30). -/
def State.busy (s : State) : Bool := decide (s.phase = .busy)

/-- STATUS as the host reads it: BUSY, DONE, FAULT, CTX_VALID in bits 0 to 3, bits 63:4 zero (10_state.md R30). -/
def statusWord (s : State) : BitVec 64 :=
  (0#60 ++ BitVec.ofBool s.ctxValid ++ BitVec.ofBool s.fault ++ BitVec.ofBool s.done ++ BitVec.ofBool s.busy)

/-- Accepting a DECODE: BUSY becomes 1 and DONE 0 (44_quantum_loop.md R200). -/
def acceptCommand (s : State) : State := s.setStatus .busy false s.fault s.ctxValid

/-- Completing a DECODE: DONE becomes 1 and BUSY 0 (44_quantum_loop.md R200). -/
def statusComplete (s : State) : State := s.setStatus .idle true s.fault s.ctxValid

/-- The STATUS writes of INIT (41_models.md R147). -/
def statusInit (s : State) : State := s.setStatus .idle true false true

/-- The STATUS writes of fault entry (60_exceptions.md R236). -/
def statusFault (s : State) : State := s.setStatus .idle false true false

end Sys2Proof.Machine
end

