-- ==== Sys2Proof/Machine/Memory.lean ====
section
/-! DEFINITION. Sparse memories in canonical form: the byte spaces SRC and DST, and the store of the cells. -/

namespace Sys2Proof.Machine

/-- The value at key `a` of a sparse store whose unlisted keys read as `dflt` says. -/
def sparseRead {w : Nat} (dflt : Nat → BitVec w) : List (Nat × BitVec w) → Nat → BitVec w
  | [], a => dflt a
  | (k, v) :: rest, a => if a = k then v else sparseRead dflt rest a

/-- Put `v` at key `a` of a rising list. -/
def sparseInsert {w : Nat} (a : Nat) (v : BitVec w) : List (Nat × BitVec w) → List (Nat × BitVec w)
  | [] => [(a, v)]
  | (k, x) :: rest =>
    if a < k then (a, v) :: (k, x) :: rest
    else if a = k then (a, v) :: rest
    else (k, x) :: sparseInsert a v rest

/-- Take key `a` out of a list. -/
def sparseErase {w : Nat} (a : Nat) : List (Nat × BitVec w) → List (Nat × BitVec w)
  | [] => []
  | (k, x) :: rest => if a = k then rest else (k, x) :: sparseErase a rest

/-- Write `v` at key `a`: a value equal to what an unlisted key reads as is not listed. -/
def sparseWrite {w : Nat} (dflt : Nat → BitVec w) (m : List (Nat × BitVec w)) (a : Nat) (v : BitVec w) :
    List (Nat × BitVec w) :=
  if v = dflt a then sparseErase a m else sparseInsert a v m

/-- The canonical form: keys strictly rising, all below `bound`, and no entry equal to what an unlisted key
reads as. `low` is a lower bound of the keys. -/
def sparseWfFrom {w : Nat} (dflt : Nat → BitVec w) (bound : Nat) : Nat → List (Nat × BitVec w) → Bool
  | _, [] => true
  | low, (k, v) :: rest =>
    decide (low ≤ k) && decide (k < bound) && decide (v ≠ dflt k) && sparseWfFrom dflt bound (k + 1) rest

/-- What a byte of SRC or DST that nothing has written reads as. DESIGN CHOICE, unsafe: the spec gives no
power-on contents (notes/assumptions/8). -/
def unwrittenByte (_ : Nat) : Byte := 0

/-- Read one byte. -/
def Memory.read (m : Memory) (a : Addr) : Byte := sparseRead unwrittenByte m a.toNat

/-- Write one byte. -/
def Memory.write (m : Memory) (a : Addr) (v : Byte) : Memory := sparseWrite unwrittenByte m a.toNat v

/-- The canonical form of a byte memory over the 64-bit address space. -/
def Memory.wf (m : Memory) : Bool := sparseWfFrom unwrittenByte (2 ^ 64) 0 m

end Sys2Proof.Machine
end

