-- ==== Sys2Proof/Machine/Models.lean ====
section
/-! DEFINITION. CTX: the flat numbering of the 2327 cells (10_state.md R36 to R42), their initializer values
(41_models.md R147, R148), reading and writing a cell, and `Adapt` (R141). -/

namespace Sys2Proof.Machine

open Sys2Proof.Config (Params)

/-! ### Where each model set starts (10_state.md R42) -/

/-- `is_lit[s][q]`. -/
def isLitCell (s : DecState) (q : Nat) : Nat := 8 * s.val + q

/-- `type[s].slot[0]`. -/
def typeBase (s : DecState) : Nat := 96 + 17 * s.val

/-- `rep_slot[s].slot[0]`. -/
def repSlotBase (s : DecState) : Nat := 300 + 9 * s.val

/-- `short_len[s][k].slot[0]`. -/
def shortLenBase (s : DecState) (k : Nat) : Nat := 408 + 9 * (8 * s.val + k)

/-- `med_len.slot[0]`. -/
def medLenBase : Nat := 1272

/-- `long_len[j].slot[0]`. -/
def longLenBase (j : Nat) : Nat := 1281 + 17 * j

/-- `near[k].first.slot[0]`. -/
def nearFirstBase (k : Nat) : Nat := 1332 + 21 * k

/-- `near[k].low[0]`. -/
def nearLowBase (k : Nat) : Nat := 1332 + 21 * k + 17

/-- `far.hi.slot[0]`. -/
def farHiBase : Nat := 1374

/-- `far.lo[h].slot[0]`. -/
def farLoBase (h : Nat) : Nat := 1391 + 17 * h

/-- `far.ref[h][0]`. -/
def farRefBase (h : Nat) : Nat := 1663 + 16 * h

/-- `lit[c].upper.slot[0]`. -/
def litUpperBase (c : Nat) : Nat := 1919 + 51 * c

/-- `lit[c].lower.slot[0]`. -/
def litLowerBase (c : Nat) : Nat := 1919 + 51 * c + 17

/-- `lit[c].nomatch.slot[0]`. -/
def litNomatchBase (c : Nat) : Nat := 1919 + 51 * c + 34

/-- A cell by its path (00_scope.md R9; the model sets of 10_state.md R36 with the shapes of R37 to R41). -/
inductive CellPath where
  | isLit (s : Fin 12) (q : Fin 8)
  | typeSlot (s : Fin 12) (n : Fin 17)
  | repSlot (s : Fin 12) (n : Fin 9)
  | shortLen (s : Fin 12) (k : Fin 8) (n : Fin 9)
  | medLen (n : Fin 9)
  | longLen (j : Fin 3) (n : Fin 17)
  | nearFirst (k : Fin 2) (n : Fin 17)
  | nearLow (k : Fin 2) (i : Fin 4)
  | farHi (n : Fin 17)
  | farLo (h : Fin 16) (n : Fin 17)
  | farRef (h : Fin 16) (i : Fin 16)
  | litUpper (c : Fin 8) (n : Fin 17)
  | litLower (c : Fin 8) (n : Fin 17)
  | litNomatch (c : Fin 8) (n : Fin 17)
deriving DecidableEq, Repr

/-- The flat index of a cell (10_state.md R42). -/
def cellIndex : CellPath → Nat
  | .isLit s q => isLitCell s q
  | .typeSlot s n => typeBase s + n
  | .repSlot s n => repSlotBase s + n
  | .shortLen s k n => shortLenBase s k + n
  | .medLen n => medLenBase + n
  | .longLen j n => longLenBase j + n
  | .nearFirst k n => nearFirstBase k + n
  | .nearLow k i => nearLowBase k + i
  | .farHi n => farHiBase + n
  | .farLo h n => farLoBase h + n
  | .farRef h i => farRefBase h + i
  | .litUpper c n => litUpperBase c + n
  | .litLower c n => litLowerBase c + n
  | .litNomatch c n => litNomatchBase c + n

/-- The value INIT gives a cell, by its path (41_models.md R147). -/
def pathInit (P : Params) : CellPath → Prob
  | .isLit _ _ | .nearLow _ _ | .farRef _ _ => P.bitInit
  | .repSlot _ n | .shortLen _ _ n | .medLen n => P.tbInit[n]
  | .typeSlot _ n | .longLen _ n | .nearFirst _ n | .farHi n | .farLo _ n => P.nibInit[n]
  | .litUpper _ n | .litLower _ n | .litNomatch _ n => P.nibInit[n]

/-- The value INIT gives cell `j` of the flat numbering (41_models.md R147, 10_state.md R42). -/
def initCell (P : Params) (j : Nat) : Prob :=
  if j < 96 then P.bitInit
  else if j < 300 then P.nibInit[(j - 96) % 17]
  else if j < 408 then P.tbInit[(j - 300) % 9]
  else if j < 1272 then P.tbInit[(j - 408) % 9]
  else if j < 1281 then P.tbInit[(j - 1272) % 9]
  else if j < 1332 then P.nibInit[(j - 1281) % 17]
  else if j < 1374 then
    if (j - 1332) % 21 < 17 then P.nibInit[(j - 1332) % 21 % 17] else P.bitInit
  else if j < 1391 then P.nibInit[(j - 1374) % 17]
  else if j < 1663 then P.nibInit[(j - 1391) % 17]
  else if j < 1919 then P.bitInit
  else P.nibInit[(j - 1919) % 17]

/-- Read cell `j` of the flat numbering. -/
def cellAt (P : Params) (s : State) (j : Nat) : Prob := sparseRead (initCell P) s.cells j

/-- Write cell `j` of the flat numbering. -/
def setCell (P : Params) (s : State) (j : Nat) (v : Prob) : State :=
  s.setCells (sparseWrite (initCell P) s.cells j v)

/-- The canonical form of the cells' store. -/
def Cells.wf (P : Params) (c : Cells) : Bool := sparseWfFrom (initCell P) Config.numCells 0 c

/-- `clamp(v, lo, hi) = min(max(v, lo), hi)` (00_scope.md R8). -/
def clamp (v lo hi : Nat) : Nat := min (max v lo) hi

/-- `Adapt(p, bit)` (41_models.md R141): a 0 raises the cell, a 1 lowers it. -/
def adapt (P : Params) (p : Prob) (bit : Bool) : Prob :=
  let v := p.toNat
  let moved := if bit then v - (v >>> P.rateShift) else v + ((Config.probOne - v) >>> P.rateShift)
  BitVec.ofNat 16 (clamp moved P.pMin P.pMax)

/-- `InitModels()` on the context (41_models.md R147): every cell takes its initializer value (no cell is
listed), the history is cleared and DSTATE is STATE_INIT. -/
def initModels (s : State) : State :=
  ((s.setCells []).setHist (Vector.replicate 8 0) 0).setDstate Config.stateInit

end Sys2Proof.Machine
end

