-- ==== Sys2Proof/Machine/Ops.lean ====
section
/-! DEFINITION. The named operations: raising and taking a fault, completing a command, memory words, the
bitstream reader (40_bitreader.md), tree decode (41_models.md), the history and the window copy (43_match.md). -/

namespace Sys2Proof.Machine

open Sys2Proof.Config (Params)

/-! ### Results, raising, fault entry -/

/-- How a procedure ends: with a value, or by `raise` (00_scope.md R11), in either case with the state it has
reached; what was written before a raise stays written (10_state.md R47). -/
inductive Res (α : Type) where
  | ok (val : α) (st : State)
  | raised (cause : Cause) (st : State)
deriving DecidableEq, Repr

/-- Run the next procedure where the first ended with a value; a raise ends the command (00_scope.md R11). -/
def Res.bind {α β : Type} (r : Res α) (k : α → State → Res β) : Res β :=
  match r with
  | .ok v s => k v s
  | .raised c s => .raised c s

/-- The state a procedure has reached, however it ended. -/
def Res.state {α : Type} (r : Res α) : State :=
  match r with
  | .ok _ s => s
  | .raised _ s => s

/-- The code of a cause (60_exceptions.md R230). -/
def causeCode : Cause → Nat
  | .truncated => 1
  | .invalidDistance => 2
  | .outputOverrun => 3
  | .modelCorruption => 4
  | .notInitialised => 5
  | .badArguments => 6

/-- Fault entry (60_exceptions.md R236): ERR takes the code, RESULT its negative as a 64-bit two's-complement
value, FAULT becomes 1 and CTX_VALID, DONE and BUSY 0; nothing else changes. There is no return from a fault
(R237): INIT or reset is the way on. -/
def faultEntry (c : Cause) (s : State) : State :=
  statusFault (s.setOutcome (BitVec.ofNat 8 (causeCode c)) (0 - BitVec.ofNat 64 (causeCode c)))

/-- The outcome of an instruction: its state, or the state after fault entry. -/
def settle (r : Res Unit) : Host.Outcome State Fault Refusal :=
  match r with
  | .ok _ s => .next s
  | .raised c s => .next (faultEntry c s)

/-- The last three lines of DECODE (44_quantum_loop.md R200, R206): RESULT is the number of source bytes
fetched, ERR is 0, DONE becomes 1 and BUSY 0. -/
def completeDecode (s : State) : State := statusComplete (s.setOutcome 0 (s.cur - s.argSrc))

/-! ### SRC and DST (20_memory.md) -/

/-- One byte of SRC. -/
def srcByte (s : State) (addr : Addr) : Byte := Memory.read s.src addr

/-- `MemRead(SRC, addr, n)` (00_scope.md R10): the bytes at `addr`, `addr + 1`, … -/
def srcBytes (s : State) (addr : Addr) (n : Nat) : List Byte :=
  (List.range n).map fun i => srcByte s (addr + BitVec.ofNat 64 i)

/-- A list of bytes as a number, the first byte most significant. -/
def bigEndianValue (bytes : List Byte) : Nat := bytes.foldl (fun acc b => acc * 256 + b.toNat) 0

/-- `SrcWord(addr, n)` (20_memory.md R62): `n` source bytes as a number, in wire order. -/
def srcWord (P : Params) (s : State) (addr : Addr) (n : Nat) : Nat :=
  let bytes := srcBytes s addr n
  bigEndianValue (if P.wireBigEndian then bytes else bytes.reverse)

/-- `MemRead(DST, addr, 1)` (00_scope.md R10). -/
def dstByte (s : State) (addr : Addr) : Byte := Memory.read s.dst addr

/-- `MemWrite(DST, addr, 1, v)` (00_scope.md R10). -/
def setDstByte (s : State) (addr : Addr) (v : Byte) : State := s.setDst (Memory.write s.dst addr v)

/-! ### The bitstream reader (40_bitreader.md) -/

/-- `BytesRemaining()`, LIM - CUR (40_bitreader.md R125). -/
def bytesRemaining (s : State) : Addr := s.lim - s.cur

/-- `ReaderInit()` (40_bitreader.md R121). -/
def readerInit (P : Params) (s : State) : Res Unit :=
  let s := s.setReader s.argSrc s.argSrcEnd
  if (bytesRemaining s).toNat < P.headerBytes then .raised .truncated s
  else
    let n := P.headerWord
    let a := BitVec.ofNat 64 (srcWord P s s.cur n)
    let b := BitVec.ofNat 64 (srcWord P s (s.cur + BitVec.ofNat 64 n) n)
    .ok () ((s.setAcc a b).setCur (s.cur + BitVec.ofNat 64 P.headerBytes))

/-- `Renorm(x)` (40_bitreader.md R122): refill where `x` is low, then rotate the accumulators. -/
def renorm (P : Params) (x : Nat) (s : State) : Res Unit :=
  if x < P.renormLow then
    if (bytesRemaining s).toNat < P.refillBytes then .raised .truncated s
    else
      let filled := (x <<< P.refillBits) ||| srcWord P s s.cur P.refillBytes
      .ok () ((s.setCur (s.cur + BitVec.ofNat 64 P.refillBytes)).setAcc s.accB (BitVec.ofNat 64 filled))
  else .ok () (s.setAcc s.accB (BitVec.ofNat 64 x))

/-- The bit that `DecodeBit` takes from the accumulator value `x` against a cell of value `p` (40_bitreader.md
R123). -/
def bitOf (x p : Nat) : Bool := decide (p ≤ x % 2 ^ Config.probBits)

/-- The value that `DecodeBit` hands to `Renorm` (40_bitreader.md R123; R126 shows that it fits 64 bits). -/
def bitRest (x p : Nat) : Nat :=
  let q := x >>> Config.probBits
  let lo := x % 2 ^ Config.probBits
  if bitOf x p then (Config.probOne - p) * q + (lo - p) else p * q + lo

/-- `DecodeBit(cell)` on the cell with flat index `j` (40_bitreader.md R123). The cell is adapted before the
refill is tried, so it stays adapted where `Renorm` raises `Truncated`. -/
def decodeBit (P : Params) (j : Nat) (s : State) : Res Bool :=
  let p := cellAt P s j
  let x := s.accA.toNat
  let bit := bitOf x p.toNat
  (renorm P (bitRest x p.toNat) (setCell P s j (adapt P p bit))).bind fun _ s => .ok bit s

/-- `ReadBits(n)` (40_bitreader.md R124). -/
def readBits (P : Params) (n : Nat) (s : State) : Res Nat :=
  let x := s.accA.toNat
  (renorm P (x >>> n) s).bind fun _ s => .ok (x % 2 ^ n) s

/-! ### Tree decode (41_models.md) -/

/-- The loop of `DecodeTree`: `depth` more decisions from tree node `node`; the final node. -/
def decodeTreeFrom (P : Params) (base : Nat) : (depth node : Nat) → State → Res Nat
  | 0, node, s => .ok node s
  | depth + 1, node, s =>
    (decodeBit P (base + node) s).bind fun b s => decodeTreeFrom P base depth (2 * node + b.toNat) s

/-- `DecodeTree(slots, depth)` (41_models.md R143); `base` is the flat index of `slots[0]`. -/
def decodeTree (P : Params) (base depth : Nat) (s : State) : Res Nat :=
  (decodeTreeFrom P base depth 1 s).bind fun node s => .ok (node - 2 ^ depth) s

/-- `DecodeNibble(M)` (41_models.md R144). -/
def decodeNibble (P : Params) (base : Nat) (s : State) : Res Nat := decodeTree P base 4 s

/-- `Decode3(M)` (41_models.md R145). -/
def decode3 (P : Params) (base : Nat) (s : State) : Res Nat := decodeTree P base 3 s

/-! ### The match history (43_match.md R176) -/

/-- HIST[i]. -/
def histAt (s : State) (i : Nat) : Dist := (s.hist[i]?).getD 0

/-- The position of `d` among the valid entries, if it is there. -/
def histFind (s : State) (d : Dist) : Option Nat :=
  (List.range Config.histCap).find? fun j => decide (j < s.histLen.toNat) && decide (histAt s j = d)

/-- Entries 0 to `n - 1` move one place down, over entry `n`, and `d` becomes entry 0. -/
def histShift (s : State) (n : Nat) (d : Dist) : Vector Dist 8 :=
  Vector.ofFn fun i : Fin 8 =>
    if i.val = 0 then d else if i.val ≤ n then histAt s (i.val - 1) else histAt s i.val

/-- `HistInsert(d)` (43_match.md R176). -/
def histInsert (d : Dist) (s : State) : State :=
  match histFind s d with
  | some j => s.setHist (histShift s j d) s.histLen
  | none =>
    let n := min s.histLen.toNat (Config.histCap - 1)
    s.setHist (histShift s n d) (BitVec.ofNat 4 (min (s.histLen.toNat + 1) Config.histCap))

/-! ### The window (43_match.md R177) -/

/-- The window address `d` bytes behind the write cursor. -/
def behind (s : State) (d : Dist) : Addr := s.wp - d.setWidth 64

/-- The number of bytes in the window before the write cursor, WP - ARG_DST_START. -/
def windowSize (s : State) : Nat := (s.wp - s.argDstStart).toNat

/-- The number of bytes still to write, ARG_DST_END - WP. -/
def roomLeft (s : State) : Nat := (s.argDstEnd - s.wp).toNat

/-- The positional index of the is-literal cell, the POS_BITS low bits of WP - ARG_DST_START (44_quantum_loop.md
R203). -/
def posIndex (P : Params) (s : State) : Nat := windowSize s % 2 ^ P.posBits

/-- Store one output byte and advance WP. -/
def putByte (v : Byte) (s : State) : State := (setDstByte s s.wp v).setWp (s.wp + 1)

/-- `Copy(len, d)` (43_match.md R177), byte by byte: each read sees the earlier writes of the same copy. -/
def copy : (len : Nat) → (d : Dist) → State → State
  | 0, _, s => s
  | len + 1, d, s => copy len d (putByte (dstByte s (behind s d)) s)

end Sys2Proof.Machine
end

