-- ==== Sys2Proof/Machine/Command.lean ====
section
/-! DEFINITION. The host commands: INIT (41_models.md R147), DECODE (44_quantum_loop.md R200 to R202) and the
reserved codes (60_exceptions.md R235). -/

namespace Sys2Proof.Machine

open Sys2Proof.Config (Params)

/-- The INIT command (41_models.md R147): the context, the reader cursors, ERR, RESULT and STATUS. It cannot
fail and touches neither SRC nor DST. -/
def initCommand (s : State) : State := statusInit (((initModels s).setReader 0 0).setOutcome 0 0)

/-- The meaning of INIT. -/
def execInit (s : State) : Host.Outcome State Fault Refusal := settle (.ok () (initCommand s))

/-- `CheckArgs()` (44_quantum_loop.md R201), in its order. -/
def checkArgs (s : State) : Res Unit :=
  if s.ctxValid = false then .raised .notInitialised s
  else if ¬(s.argDstStart ≤ s.argDst ∧ s.argDst ≤ s.argDstEnd) then .raised .badArguments s
  else if ¬(s.argSrc ≤ s.argSrcEnd) then .raised .badArguments s
  else .ok () s

/-- DECODE up to the loop (44_quantum_loop.md R200): BUSY becomes 1, the arguments are checked, WP is set, and
the reader is constructed. A quantum of zero length completes at once (R202). -/
def startDecode (P : Params) (s : State) : Res Unit :=
  (checkArgs (acceptCommand s)).bind fun _ s =>
  let s := s.setWp s.argDst
  if s.wp = s.argDstEnd then .ok () (completeDecode (s.setReader s.argSrc s.argSrcEnd))
  else readerInit P s

/-- The meaning of DECODE: the command is accepted, and the iterations of its loop are the machine's next steps
(Machine/Sequencer.lean), the last of which completes it. -/
def execDecode (s : State) : Host.Outcome State Fault Refusal := settle (startDecode Config.params s)

/-- The meaning of a reserved command code (30_encoding.md R92, 60_exceptions.md R235): `BadArguments`, whatever
the code. -/
def execCmdReserved (_code : BitVec 32) (s : State) : Host.Outcome State Fault Refusal :=
  settle (.raised .badArguments s)

end Sys2Proof.Machine
end

