-- ==== Sys2Proof/Machine/Operands.lean ====
section
/-! DEFINITION. The operands that an operation decodes: length (30_encoding.md R96), far distance (R97), near
distance (R98), literal byte (R95); their value formulas and the inverse maps of R104. -/

namespace Sys2Proof.Machine

open Sys2Proof.Config (Params)

/-! ### Value formulas and inverse maps -/

/-- The symbols of a medium/long length (30_encoding.md R96): the last one decoded, the earlier ones being the
escapes. -/
inductive LenSymbols where
  | medium (m : Nat)
  | long1 (n : Nat)
  | long2 (n : Nat)
  | long3 (n : Nat)
deriving DecidableEq, Repr

/-- The length a symbol sequence stands for (30_encoding.md R96). -/
def lenValue (P : Params) : LenSymbols → Nat
  | .medium m => P.minLen + m
  | .long1 n => P.longBase1 + n
  | .long2 n => P.longBase2 + n
  | .long3 n => P.longBase3 + n

/-- The symbols that can be decoded: an escape value is never the last symbol, and N3 has no escape
(30_encoding.md R96). -/
def LenSymbols.valid : LenSymbols → Bool
  | .medium m => decide (m ≤ 6)
  | .long1 n => decide (n ≤ 14)
  | .long2 n => decide (n ≤ 14)
  | .long3 n => decide (n ≤ 15)

/-- The symbols of a length (30_encoding.md R104). -/
def lenSymbols (P : Params) (n : Nat) : LenSymbols :=
  if n < P.longBase1 then .medium (n - P.minLen)
  else if n < P.longBase2 then .long1 (n - P.longBase1)
  else if n < P.longBase3 then .long2 (n - P.longBase2)
  else .long3 (n - P.longBase3)

/-- The far distance of HI, LO and R (30_encoding.md R97). -/
def farValue (hi lo r : Nat) : Nat := ((16 + lo) <<< hi) + r - 15

/-- HI, LO and R of a far distance (30_encoding.md R104). -/
def farSymbols (d : Nat) : Nat × Nat × Nat :=
  let x := d + 15
  let hi := Nat.log2 x - 4
  (hi, (x >>> hi) - 16, x % 2 ^ hi)

/-- The signed delta of the six near bits V (30_encoding.md R98). -/
def nearDelta (v : Nat) : Int := if v % 2 = 0 then ((v >>> 1) + 1 : Nat) else -(((v + 1) >>> 1 : Nat) : Int)

/-- V of a near delta (30_encoding.md R104). -/
def nearSymbol (e : Int) : Nat := if 0 < e then (2 * (e - 1)).toNat else (-2 * e - 1).toNat

/-! ### Length and distance -/

/-- `DecodeLen()` (43_match.md R172). -/
def decodeLen (P : Params) (s : State) : Res Nat :=
  (decode3 P medLenBase s).bind fun m s =>
  if m ≤ 6 then .ok (lenValue P (.medium m)) s
  else (decodeNibble P (longLenBase 0) s).bind fun n1 s =>
  if n1 ≤ 14 then .ok (lenValue P (.long1 n1)) s
  else (decodeNibble P (longLenBase 1) s).bind fun n2 s =>
  if n2 ≤ 14 then .ok (lenValue P (.long2 n2)) s
  else (decodeNibble P (longLenBase 2) s).bind fun n3 s =>
  .ok (lenValue P (.long3 n3)) s

/-- The signed sum HIST[k] + delta (43_match.md R173). -/
def nearSum (base : Dist) (v : Nat) : Int := (base.toNat : Int) + nearDelta v

/-- `DecodeNear(k)` (43_match.md R173). -/
def decodeNear (P : Params) (k : Nat) (s : State) : Res Dist :=
  if s.histLen.toNat ≤ k then .raised .invalidDistance s
  else
    (decodeNibble P (nearFirstBase k) s).bind fun e s =>
    (decodeTree P (nearLowBase k) P.nearLowBits s).bind fun lw s =>
    let d := nearSum (histAt s k) (2 ^ P.nearLowBits * e + lw)
    if d ≤ 0 ∨ (2 : Int) ^ P.distW ≤ d then .raised .invalidDistance s
    else .ok (BitVec.ofInt 32 d) s

/-- The refinement R of a far distance, HI bits (43_match.md R174): none, tree bits, or raw bits then tree bits. -/
def decodeFarRest (P : Params) (hi : Nat) (s : State) : Res Nat :=
  if hi = 0 then .ok 0 s
  else if hi ≤ P.farTreeBits then decodeTree P (farRefBase hi) hi s
  else
    (readBits P (hi - P.farTreeBits) s).bind fun rh s =>
    (decodeTree P (farRefBase hi) P.farTreeBits s).bind fun rl s =>
    .ok ((rh <<< P.farTreeBits) ||| rl) s

/-- `DecodeFar()` (43_match.md R174). -/
def decodeFar (P : Params) (s : State) : Res Dist :=
  (decodeNibble P farHiBase s).bind fun hi s =>
  (decodeNibble P (farLoBase hi) s).bind fun lo s =>
  (decodeFarRest P hi s).bind fun r s =>
  .ok (BitVec.ofNat 32 (farValue hi lo r)) s

/-! ### The literal byte (42_literal.md) -/

/-- `LitPlain(LM)` of LiteralModel `c` (42_literal.md R162): both nibbles through the one nomatch model. -/
def litPlain (P : Params) (c : Nat) (s : State) : Res Byte :=
  (decodeNibble P (litNomatchBase c) s).bind fun hi s =>
  (decodeNibble P (litNomatchBase c) s).bind fun lo s =>
  .ok (BitVec.ofNat 4 hi ++ BitVec.ofNat 4 lo) s

/-- The bits `pm[n-1]` to `pm[0]` of one nibble of `LitMatched` (42_literal.md R163): `base` is T.slot[0],
`plain` is LM.nomatch.slot[0], `node` the tree node reached by the actual bits. Answers the final node and
`matched`. -/
def litMatchedBits (P : Params) (base plain : Nat) (pm : BitVec 4) :
    (n node : Nat) → (matched : Bool) → State → Res (Nat × Bool)
  | 0, node, matched, s => .ok (node, matched) s
  | i + 1, node, true, s =>
    (decodeBit P (base + node) s).bind fun e s =>
    litMatchedBits P base plain pm i (2 * node + (xor (pm.getLsbD i) e).toNat) (!e) s
  | i + 1, node, false, s =>
    (decodeBit P (plain + node) s).bind fun b s =>
    litMatchedBits P base plain pm i (2 * node + b.toNat) false s

/-- `LitMatched(LM, m)` of LiteralModel `c` (42_literal.md R163): upper nibble, then lower nibble; `matched` is
not reset between them. -/
def litMatched (P : Params) (c : Nat) (m : Byte) (s : State) : Res Byte :=
  (litMatchedBits P (litUpperBase c) (litNomatchBase c) (m.extractLsb' 4 4) 4 1 true s).bind fun hi s =>
  (litMatchedBits P (litLowerBase c) (litNomatchBase c) (m.extractLsb' 0 4) 4 1 hi.2 s).bind fun lo s =>
  .ok (BitVec.ofNat 4 (hi.1 - 16) ++ BitVec.ofNat 4 (lo.1 - 16)) s

end Sys2Proof.Machine
end

