-- ==== Sys2Proof/Machine/Literal.lean ====
section
/-! DEFINITION. The literal operation (42_literal.md). -/

namespace Sys2Proof.Machine

open Sys2Proof.Config (Params)

/-- The previous output byte, or 0 at the start of the window (42_literal.md R160). -/
def prevByte (s : State) : Byte := if s.argDstStart < s.wp then dstByte s (s.wp - 1) else 0

/-- The LiteralModel a literal uses: the LIT_CTX_BITS top bits of the previous byte (42_literal.md R161). -/
def litContext (P : Params) (s : State) : Nat := (prevByte s).toNat >>> (8 - P.litCtxBits)

/-- A predicted byte is available (42_literal.md R160, R161): the last operation was a match, there is a recent
distance, and it lies in the window. -/
def predicted (P : Params) (s : State) : Bool :=
  decide (P.litStateLimit ≤ s.dstate.val) && decide (1 ≤ s.histLen.toNat) &&
    decide ((histAt s 0).toNat ≤ windowSize s)

/-- The byte of a LIT, matched or plain (42_literal.md R160). -/
def litByte (P : Params) (s : State) : Res Byte :=
  if predicted P s then litMatched P (litContext P s) (dstByte s (behind s (histAt s 0))) s
  else litPlain P (litContext P s) s

/-- LIT (42_literal.md R160), after the selector. -/
def literal (P : Params) (s : State) : Res Unit :=
  let next := P.nextLit[s.dstate]
  (litByte P s).bind fun byte s => .ok () ((putByte byte s).setDstate next)

/-- The meaning of LIT. -/
def execLit (s : State) : Host.Outcome State Fault Refusal := settle (literal Config.params s)

end Sys2Proof.Machine
end

