-- ==== Sys2Proof/Machine/Match.lean ====
section
/-! DEFINITION. The match operations (43_match.md). -/

namespace Sys2Proof.Machine

open Sys2Proof.Config (Params)

/-- `MatchFinish(len, d, NEXT)` (43_match.md R175): the distance check, the length check, then copy, history and
decoder state. `s.dstate` is still the decoder state of the operation's start. -/
def matchFinish (next : Vector DecState 12) (len : Nat) (d : Dist) (s : State) : Res Unit :=
  if d = 0 ∨ windowSize s < d.toNat then .raised .invalidDistance s
  else if roomLeft s < len then .raised .outputOverrun s
  else .ok () ((histInsert d (copy len d s)).setDstate next[s.dstate])

/-- MATCH_FAR (43_match.md R180), after the selector: the length first, then the distance. -/
def matchFar (P : Params) (s : State) : Res Unit :=
  (decodeLen P s).bind fun len s =>
  (decodeFar P s).bind fun d s =>
  matchFinish P.nextNew len d s

/-- MATCH_NEAR0 and MATCH_NEAR1 (43_match.md R181, R182), after the selector. -/
def matchNear (P : Params) (k : Nat) (s : State) : Res Unit :=
  (decodeLen P s).bind fun len s =>
  (decodeNear P k s).bind fun d s =>
  matchFinish P.nextNew len d s

/-- SLOT and the distance it names (43_match.md R183, R184): an empty slot raises `InvalidDistance`. -/
def decodeSlot (P : Params) (s : State) : Res Nat :=
  (decode3 P (repSlotBase s.dstate) s).bind fun slot s =>
  if s.histLen.toNat ≤ slot then .raised .invalidDistance s else .ok slot s

/-- REP (43_match.md R183), after the selector. -/
def repMatch (P : Params) (s : State) : Res Unit :=
  (decodeSlot P s).bind fun slot s =>
  let d := histAt s slot
  (decodeLen P s).bind fun len s =>
  matchFinish P.nextRep len d s

/-- SHORTREP (43_match.md R184), after the selector. -/
def shortRepMatch (P : Params) (s : State) : Res Unit :=
  (decodeSlot P s).bind fun slot s =>
  let d := histAt s slot
  (decode3 P (shortLenBase s.dstate slot) s).bind fun slen s =>
  matchFinish P.nextShortrep (P.shortBase + slen) d s

/-- A reserved type value (30_encoding.md R101, 44_quantum_loop.md R203): `ModelCorruption` at once, after the
selector's cells were adapted. -/
def reservedType (s : State) : Res Unit := .raised .modelCorruption s

/-- The meaning of MATCH_FAR. -/
def execMatchFar (s : State) : Host.Outcome State Fault Refusal := settle (matchFar Config.params s)

/-- The meaning of MATCH_NEAR0. -/
def execMatchNear0 (s : State) : Host.Outcome State Fault Refusal := settle (matchNear Config.params 0 s)

/-- The meaning of MATCH_NEAR1. -/
def execMatchNear1 (s : State) : Host.Outcome State Fault Refusal := settle (matchNear Config.params 1 s)

/-- The meaning of REP. -/
def execRep (s : State) : Host.Outcome State Fault Refusal := settle (repMatch Config.params s)

/-- The meaning of SHORTREP. -/
def execShortrep (s : State) : Host.Outcome State Fault Refusal := settle (shortRepMatch Config.params s)

/-- The meaning of TYPE_RESERVED_5. -/
def execTypeReserved5 (s : State) : Host.Outcome State Fault Refusal := settle (reservedType s)

/-- The meaning of TYPE_RESERVED_6_7. -/
def execTypeReserved6to7 (_low : BitVec 1) (s : State) : Host.Outcome State Fault Refusal :=
  settle (reservedType s)

/-- The meaning of TYPE_RESERVED_8_15. -/
def execTypeReserved8to15 (_low : BitVec 3) (s : State) : Host.Outcome State Fault Refusal :=
  settle (reservedType s)

end Sys2Proof.Machine
end

