-- ==== Sys2Proof/Syntax.lean ====
section
/-! DEFINITION. The instructions: one constructor per row of spec/opcode_table.json. -/

namespace Sys2Proof

/-- The two host commands with their reserved codes (30_encoding.md R92) and the six stream operations with
the reserved type values (R93). An operation carries no operands: its length, distance, slot or byte is
decoded adaptively while it runs (R91, R94), so the selector word is all there is to the instruction.
A reserved row carries the bits its row leaves open. -/
inductive Instr where
  /-- INIT, 41_models.md R147. -/
  | init
  /-- DECODE, 44_quantum_loop.md R200. -/
  | decode
  /-- CMD_RESERVED, 60_exceptions.md R235: any 32-bit code but 1 and 2. -/
  | cmdReserved (code : BitVec 32)
  /-- LIT, 42_literal.md R160. -/
  | lit
  /-- MATCH_FAR, 43_match.md R180. -/
  | matchFar
  /-- MATCH_NEAR0, 43_match.md R181. -/
  | matchNear0
  /-- MATCH_NEAR1, 43_match.md R182. -/
  | matchNear1
  /-- REP, 43_match.md R183. -/
  | rep
  /-- SHORTREP, 43_match.md R184. -/
  | shortrep
  /-- TYPE_RESERVED_5, 30_encoding.md R101. -/
  | typeReserved5
  /-- TYPE_RESERVED_6_7, 30_encoding.md R101: bit 0 of the type value. -/
  | typeReserved6to7 (low : BitVec 1)
  /-- TYPE_RESERVED_8_15, 30_encoding.md R101: bits 2 to 0 of the type value. -/
  | typeReserved8to15 (low : BitVec 3)
deriving DecidableEq, Repr

/-- The instruction is a host command, written to CMD (30_encoding.md R92). -/
def Instr.isCommand : Instr → Bool
  | .init | .decode | .cmdReserved _ => true
  | .lit | .matchFar | .matchNear0 | .matchNear1 | .rep | .shortrep => false
  | .typeReserved5 | .typeReserved6to7 _ | .typeReserved8to15 _ => false

end Sys2Proof
end

