-- ==== Sys2Proof/Machine/Dispatch.lean ====
section
/-! DEFINITION. The dispatch: one arm per constructor of Instr. -/

namespace Sys2Proof.Machine

def exec (i : Instr) (s : State) : Host.Outcome State Fault Refusal :=
  match i with
  | .init => Sys2Proof.Machine.execInit s
  | .decode => Sys2Proof.Machine.execDecode s
  | .cmdReserved code => Sys2Proof.Machine.execCmdReserved code s
  | .lit => Sys2Proof.Machine.execLit s
  | .matchFar => Sys2Proof.Machine.execMatchFar s
  | .matchNear0 => Sys2Proof.Machine.execMatchNear0 s
  | .matchNear1 => Sys2Proof.Machine.execMatchNear1 s
  | .rep => Sys2Proof.Machine.execRep s
  | .shortrep => Sys2Proof.Machine.execShortrep s
  | .typeReserved5 => Sys2Proof.Machine.execTypeReserved5 s
  | .typeReserved6to7 low => Sys2Proof.Machine.execTypeReserved6to7 low s
  | .typeReserved8to15 low => Sys2Proof.Machine.execTypeReserved8to15 low s

end Sys2Proof.Machine
end

