-- ==== Sys2Proof/WellFormed.lean ====
section
/-! DEFINITION. Which instructions an encoding stands for. -/

namespace Sys2Proof

/-- A reserved command's code is neither INIT's nor DECODE's (30_encoding.md R92). Every other
constructor's fields are as wide as the bits its row leaves open, so it is well-formed as it stands. -/
def Instr.wellFormed : Instr → Bool
  | .cmdReserved code => code != 1 && code != 2
  | .init | .decode | .lit | .matchFar | .matchNear0 | .matchNear1 | .rep | .shortrep => true
  | .typeReserved5 | .typeReserved6to7 _ | .typeReserved8to15 _ => true

end Sys2Proof
end

