-- ==== Sys2Proof/Decode.lean ====
section
/-! DEFINITION. The decoder of command words and selector words, the encoder that inverts it, and the stream
encoder of 40_bitreader.md R128 (which the hardware does not hold; it is the inverse that streams are made with). -/

namespace Sys2Proof

open Sys2Proof.Config (Params)

/-- An instruction as the hardware meets it: the value written to CMD (30_encoding.md R92), or the selector
word that the two decoded selector symbols make (R93). -/
inductive Encoded where
  | command (value : BitVec 64)
  | selector (sel : BitVec 5)
deriving DecidableEq, Repr

/-- Why a number of bits is no instruction. -/
inductive DecodeError where
  /-- No format of the opcode table has this width. -/
  | noSuchWidth
  /-- The number does not fit the width. -/
  | tooWide
deriving DecidableEq, Repr

/-- The instruction that a 64-bit write to CMD stands for: the low 32 bits are the code, the high 32 bits are
ignored (30_encoding.md R92). -/
def decodeCommand (value : BitVec 64) : Instr :=
  let code := value.extractLsb' 0 32
  if code = 1 then .init
  else if code = 2 then .decode
  else .cmdReserved code

/-- The operation that a selector word stands for (30_encoding.md R93): bit 4 is L, bits 3 to 0 are T; with
L = 1 the type nibble is not decoded and its bits do not matter. A value that is no code point of the record is
reserved; the table's three reserved rows split 5 to 15, and a reserved value below 5, which the default record
does not have, goes with 5 (R101 gives all of them one meaning). -/
def decodeSelector (P : Params) (sel : BitVec 5) : Instr :=
  let t := sel.extractLsb' 0 4
  if sel.getLsbD 4 then .lit
  else if t = P.tFar then .matchFar
  else if t = P.tNear0 then .matchNear0
  else if t = P.tNear1 then .matchNear1
  else if t = P.tRep then .rep
  else if t = P.tShortrep then .shortrep
  else if t ≤ 5 then .typeReserved5
  else if t.getLsbD 3 then .typeReserved8to15 (t.extractLsb' 0 3)
  else .typeReserved6to7 (t.extractLsb' 0 1)

/-- The decoder for a parameter record. -/
def decodeFor (P : Params) : Encoded → Instr
  | .command value => decodeCommand value
  | .selector sel => decodeSelector P sel

/-- The decoder. Every CMD value and every selector word is some row of the table. -/
def decode (e : Encoded) : Instr := decodeFor Config.params e

/-- The encoded word that the number `w`, an instruction of `nbits` bits, is: 64 or 32 bits for a command
(the table gives the code's 32 bits), 5 bits, in a whole byte 8, for a selector word. -/
def readWord (nbits w : Nat) : Except DecodeError Encoded :=
  if nbits = 32 ∨ nbits = 64 then
    if w < 2 ^ nbits then .ok (.command (BitVec.ofNat 64 w)) else .error .tooWide
  else if nbits = 5 ∨ nbits = 8 then
    if w < 2 ^ 5 then .ok (.selector (BitVec.ofNat 5 w)) else .error .tooWide
  else .error .noSuchWidth

/-- The instruction the decoder reads from an instruction of the opcode table whose bits are `w`. -/
def decodeTableWord (nbits w : Nat) : Option Instr :=
  match readWord nbits w with
  | .ok e => some (decode e)
  | .error _ => none

/-- The encoder for a parameter record: the word of an instruction, from the tables of 30_encoding.md R92 and R93.
A literal's selector word has T = 0 (R93: "with T taken as 0 when L = 1"). The reserved rows have the words of the
opcode table. -/
def encodeFor (P : Params) : Instr → Encoded
  | .init => .command 1
  | .decode => .command 2
  | .cmdReserved code => .command (code.setWidth 64)
  | .lit => .selector 0b10000
  | .matchFar => .selector (0#1 ++ P.tFar)
  | .matchNear0 => .selector (0#1 ++ P.tNear0)
  | .matchNear1 => .selector (0#1 ++ P.tNear1)
  | .rep => .selector (0#1 ++ P.tRep)
  | .shortrep => .selector (0#1 ++ P.tShortrep)
  | .typeReserved5 => .selector 0b00101
  | .typeReserved6to7 low => .selector (0b0011#4 ++ low)
  | .typeReserved8to15 low => .selector (0b01#2 ++ low)

/-- The encoder. -/
def encode (i : Instr) : Encoded := encodeFor Config.params i

/-! ### The stream encoder (40_bitreader.md R128) -/

/-- One primitive as the encoder must undo it: a decision on a cell of value `p` that gave `bit`, or a raw
read of `n` bits that gave `v`. -/
inductive Prim where
  | bit (p : Nat) (b : Bool)
  | raw (n v : Nat)
deriving DecidableEq, Repr

/-- The frequency of a bit against a cell of value `p` (40_bitreader.md R128). -/
def bitFreq (p : Nat) (b : Bool) : Nat := if b then Config.probOne - p else p

/-- The first slot of a bit against a cell of value `p` (40_bitreader.md R128). -/
def bitStart (p : Nat) (b : Bool) : Nat := if b then p else 0

/-- Undo the arithmetic of one `DecodeBit` (40_bitreader.md R128), after any refill has been undone. -/
def undoBit (p : Nat) (b : Bool) (x : Nat) : Nat :=
  ((x / bitFreq p b) <<< Config.probBits) + x % bitFreq p b + bitStart p b

/-- Undo the arithmetic of one `ReadBits(n)` (40_bitreader.md R128). -/
def undoRaw (n v x : Nat) : Nat := (x <<< n) ||| v

/-- The encoder emits a refill word before it undoes this primitive (40_bitreader.md R128). -/
def emitsWord (P : Params) (prim : Prim) (x : Nat) : Bool :=
  match prim with
  | .bit p b => decide (bitFreq p b * (P.renormTop >>> Config.probBits) ≤ x)
  | .raw n _ => decide (P.renormTop >>> n ≤ x)

/-- Undo one primitive on the encoder state `x`: the state before it and the refill word it emits, if any. -/
def undoPrim (P : Params) (prim : Prim) (x : Nat) : Nat × Option Nat :=
  let e := emitsWord P prim x
  let x' := if e then x >>> P.refillBits else x
  let word := if e then some (x % 2 ^ P.refillBits) else none
  match prim with
  | .bit p b => (undoBit p b x', word)
  | .raw n v => (undoRaw n v x', word)

/-- What the encoder has after undoing a list of primitives: the state the next primitive uses, the state of
the one after it, and the refill words in stream order. -/
structure EncState where
  xa : Nat
  xb : Nat
  words : List Nat
deriving DecidableEq, Repr

/-- Undo a list of primitives, last to first. The state used by the first primitive is `xa`; the two states
alternate (40_bitreader.md R128). -/
def encodePrims (P : Params) : List Prim → EncState
  | [] => { xa := P.renormLow, xb := P.renormLow, words := [] }
  | prim :: rest =>
    let later := encodePrims P rest
    let undone := undoPrim P prim later.xb
    { xa := undone.1, xb := later.xa,
      words := match undone.2 with
        | some w => w :: later.words
        | none => later.words }

/-- The `n` bytes of a word in wire order, first address first (20_memory.md R62). -/
def wireBytes (bigEndian : Bool) (n v : Nat) : List Byte :=
  let little := (List.range n).map fun i => BitVec.ofNat 8 (v >>> (8 * i))
  if bigEndian then little.reverse else little

/-- The stream of a list of primitives: header, then refill words (30_encoding.md R90, 40_bitreader.md R128). -/
def encodeStream (P : Params) (prims : List Prim) : List Byte :=
  let e := encodePrims P prims
  wireBytes P.wireBigEndian P.headerWord e.xa ++ wireBytes P.wireBigEndian P.headerWord e.xb ++
    e.words.flatMap (wireBytes P.wireBigEndian P.refillBytes)

end Sys2Proof
end

