-- ==== Sys2Proof/Machine/Quantum.lean ====
section
/-! DEFINITION. DECODE as the host sees it, one atomic transition (70_reset_and_hazards.md R275): the pseudocode
of 44_quantum_loop.md R200 and R203 written out whole, without the machine's steps. The machine's runs are
stated against it (Obligations.DecodeRunsAsOneQuantum). -/

namespace Sys2Proof.Machine

open Sys2Proof.Config (Params)

/-- `Step()` (44_quantum_loop.md R203): one operation. -/
def quantumStep (P : Params) (s : State) : Res Unit :=
  let d := s.dstate
  (decodeBit P (isLitCell d (posIndex P s)) s).bind fun l s =>
  if l then literal P s
  else
    (decodeNibble P (typeBase d) s).bind fun t s =>
    if t = P.tFar.toNat then matchFar P s
    else if t = P.tNear0.toNat then matchNear P 0 s
    else if t = P.tNear1.toNat then matchNear P 1 s
    else if t = P.tRep.toNat then repMatch P s
    else if t = P.tShortrep.toNat then shortRepMatch P s
    else .raised .modelCorruption s

/-- The loop of DECODE (44_quantum_loop.md R200), at most `fuel` operations; R204 bounds them by the length of
the region to fill. -/
def quantumLoop (P : Params) : (fuel : Nat) → State → Res Unit
  | 0, s => .ok () s
  | fuel + 1, s =>
    if s.wp < s.argDstEnd then (quantumStep P s).bind fun _ s => quantumLoop P fuel s else .ok () s

/-- DECODE (44_quantum_loop.md R200). -/
def decodeQuantum (P : Params) (s : State) : Res Unit :=
  (checkArgs (acceptCommand s)).bind fun _ s =>
  let s := s.setWp s.argDst
  if s.wp = s.argDstEnd then .ok () (completeDecode (s.setReader s.argSrc s.argSrcEnd))
  else
    (readerInit P s).bind fun _ s =>
    (quantumLoop P (roomLeft s) s).bind fun _ s => .ok () (completeDecode s)

end Sys2Proof.Machine
end

