-- ==== Sys2Proof/Machine/Registers.lean ====
section
/-! DEFINITION. The register block as the host sees it (10_state.md R28 to R35), the host's accesses to the two
memories, and hardware reset (70_reset_and_hazards.md R260). -/

namespace Sys2Proof.Machine

/-- A register of the map of 10_state.md R28. -/
inductive Reg where
  | cmd
  | status
  | err
  | result
  | argDst
  | argDstEnd
  | argDstStart
  | argSrc
  | argSrcEnd
  | bytesRemaining
  | wpView
  | dstateView
  | histView (i : Fin 8)
  | histLenView
  | ctxView (j : Fin 2327)
deriving DecidableEq, Repr

/-- The register at a byte offset, for an access of a given size (10_state.md R28): 64-bit accesses at the listed
offsets, 16-bit accesses for CTX_VIEW; anything else is no register. -/
def regAt (offset : BitVec 64) (size : AccessSize) : Option Reg :=
  match size with
  | .b64 =>
    if offset = 0x00 then some .cmd
    else if offset = 0x08 then some .status
    else if offset = 0x10 then some .err
    else if offset = 0x18 then some .result
    else if offset = 0x20 then some .argDst
    else if offset = 0x28 then some .argDstEnd
    else if offset = 0x30 then some .argDstStart
    else if offset = 0x38 then some .argSrc
    else if offset = 0x40 then some .argSrcEnd
    else if offset = 0x48 then some .bytesRemaining
    else if offset = 0x50 then some .wpView
    else if offset = 0x58 then some .dstateView
    else if h : 0x60 ≤ offset.toNat ∧ offset.toNat < 0xA0 ∧ offset.toNat % 8 = 0 then
      some (.histView ⟨(offset.toNat - 0x60) / 8, by omega⟩)
    else if offset = 0xA0 then some .histLenView
    else none
  | .b16 =>
    if h : 0x2000 ≤ offset.toNat ∧ offset.toNat < 0x2000 + 2 * 2327 ∧ offset.toNat % 2 = 0 then
      some (.ctxView ⟨(offset.toNat - 0x2000) / 2, by omega⟩)
    else none
  | .b8 => none
  | .b32 => none

/-- The width used of a register (10_state.md R28). -/
def regWidth : Reg → Nat
  | .cmd => 32
  | .status => 4
  | .err => 8
  | .result => 64
  | .argDst | .argDstEnd | .argDstStart | .argSrc | .argSrcEnd | .bytesRemaining | .wpView => Config.params.addrW
  | .dstateView | .histLenView => 4
  | .histView _ => Config.params.distW
  | .ctxView _ => 16

/-- A view register, whose value is not defined while BUSY is 1 (10_state.md R35). -/
def regIsView : Reg → Bool
  | .wpView | .dstateView | .histView _ | .histLenView | .ctxView _ => true
  | .cmd | .status | .err | .result | .argDst | .argDstEnd | .argDstStart | .argSrc | .argSrcEnd => false
  | .bytesRemaining => false

/-- The contents of a register (10_state.md R28 to R35), zero-extended; CMD reads as 0. -/
def regValue (s : State) : Reg → BitVec 64
  | .cmd => 0
  | .status => statusWord s
  | .err => s.err.setWidth 64
  | .result => s.result
  | .argDst => s.argDst
  | .argDstEnd => s.argDstEnd
  | .argDstStart => s.argDstStart
  | .argSrc => s.argSrc
  | .argSrcEnd => s.argSrcEnd
  | .bytesRemaining => bytesRemaining s
  | .wpView => s.wp
  | .dstateView => BitVec.ofNat 64 s.dstate.val
  | .histView i => (histAt s i.val).setWidth 64
  | .histLenView => s.histLen.setWidth 64
  | .ctxView j => (cellAt Config.params s j.val).setWidth 64

/-- A value cut to its low `n` bits. -/
def lowBits (n : Nat) (v : BitVec 64) : BitVec 64 := v &&& BitVec.ofNat 64 (2 ^ n - 1)

/-- A host read of the block: its data goes to `readData`. An access that is no register reads 0; a view read
while BUSY is 1 gives a free value of the register's width (10_state.md R35). Nothing of the spec's state
changes (45_laws.md R223). -/
def readReg (offset : BitVec 64) (size : AccessSize) (s : State) : State :=
  match regAt offset size with
  | none => s.setReadData 0
  | some r =>
    if s.busy && regIsView r then
      (s.setReadData (lowBits (regWidth r) (Config.busyView s.freeReads))).countFreeRead
    else s.setReadData (regValue s r)

/-- A host write to the block that is no accepted command (10_state.md R28): the ARG registers take the value
while BUSY is 0; every other write is dropped. -/
def writeReg (offset : BitVec 64) (size : AccessSize) (v : BitVec 64) (s : State) : State :=
  if s.busy then s
  else
    match regAt offset size with
    | some .argDst => { s with argDst := v }
    | some .argDstEnd => { s with argDstEnd := v }
    | some .argDstStart => { s with argDstStart := v }
    | some .argSrc => { s with argSrc := v }
    | some .argSrcEnd => { s with argSrcEnd := v }
    | _ => s

/-- A write is a command: a 64-bit write to CMD while BUSY is 0 (10_state.md R29). -/
def acceptsCommand (offset : BitVec 64) (size : AccessSize) (s : State) : Bool :=
  decide (regAt offset size = some .cmd) && !s.busy

/-- The first `n` bytes from WP of what the operation in progress writes, put into DST in ascending order. -/
def partialWrites (s after : State) : (n : Nat) → Memory
  | 0 => s.dst
  | n + 1 =>
    let addr := s.wp + BitVec.ofNat 64 n
    Memory.write (partialWrites s after n) addr (dstByte after addr)

/-- The number of bytes that the operation in progress has written when a reset abandons it: any number up to all
that it writes (70_reset_and_hazards.md R260, 93_implementation_defined.md U6), a free value. -/
def resetProgress (s : State) : Nat :=
  if s.busy && decide (s.wp < s.argDstEnd) then
    min ((quantumStep Config.params s).state.wp - s.wp).toNat (Config.resetCut s.freeReads)
  else 0

/-- Hardware reset (70_reset_and_hazards.md R260): every register as after reset. A command in progress is
abandoned without fault entry, and DST holds a prefix of its writes: those of the completed operations and a
free number of the bytes of the operation in progress. Nothing else changes SRC, DST or the model's host
interface. -/
def hardReset (s : State) : State :=
  { State.reset with
    src := s.src
    dst := partialWrites s (quantumStep Config.params s).state (resetProgress s)
    script := s.script, readData := s.readData
    freeReads := if s.busy then s.freeReads + 1 else s.freeReads }

/-- The address is in the source region (20_memory.md R60). -/
def inSource (s : State) (a : Addr) : Bool := decide (s.argSrc ≤ a) && decide (a < s.argSrcEnd)

/-- The address is in the window or the region to fill (20_memory.md R61). -/
def inWindow (s : State) (a : Addr) : Bool := decide (s.argDstStart ≤ a) && decide (a < s.argDstEnd)

/-- A host action other than an accepted command. Touching the buffers of a command in progress is a race that
the spec leaves undefined (93_implementation_defined.md U2). -/
def hostAction (a : HostAction) (s : State) : Host.Outcome State Fault Refusal :=
  match a with
  | .regWrite offset size v => .next (writeReg offset size v s)
  | .regRead offset size => .next (readReg offset size s)
  | .srcWrite addr v =>
    if s.busy && inSource s addr then .fault .raceOnSource else .next (s.setSrc (Memory.write s.src addr v))
  | .srcRead addr =>
    if s.busy && inSource s addr then .fault .raceOnSource
    else .next (s.setReadData ((srcByte s addr).setWidth 64))
  | .dstWrite addr v =>
    if s.busy && inWindow s addr then .fault .raceOnWindow else .next (setDstByte s addr v)
  | .dstRead addr =>
    if s.busy && inWindow s addr then .fault .raceOnWindow
    else .next (s.setReadData ((dstByte s addr).setWidth 64))
  | .hwReset => .next (hardReset s)

end Sys2Proof.Machine
end

