-- ==== Sys2Proof/Machine/Sequencer.lean ====
section
/-! DEFINITION. What one step does: serve a host event, or make the next move of the decode loop
(44_quantum_loop.md R200, R203); and how an operation's selector is fetched. -/

namespace Sys2Proof.Machine

open Sys2Proof.Config (Params)

/-- A step runs an instruction in a state, or is settled without one. -/
inductive Move where
  | instr (i : Instr) (s : State)
  | settled (o : Host.Outcome State Fault Refusal)

/-- Decode the selector of the next operation (30_encoding.md R93, 44_quantum_loop.md R203): L, and where L is 0
the type nibble. -/
def fetchSelector (P : Params) (s : State) : Res (BitVec 5) :=
  let d := s.dstate
  (decodeBit P (isLitCell d (posIndex P s)) s).bind fun l s =>
  if l then .ok 0b10000 s
  else (decodeNibble P (typeBase d) s).bind fun t s => .ok (BitVec.ofNat 5 t) s

/-- The host event that lands now, and the state without it. When IDLE the next event lands at once; when BUSY
only one marked to land inside the command, when its time has come. -/
def dueEvent (s : State) : Option (HostAction × State) :=
  match s.script, s.phase with
  | [], _ => none
  | e :: rest, .idle => some (e.action, s.setScript rest)
  | e :: rest, .busy =>
    match e.timing with
    | .afterMoves 0 => some (e.action, s.setScript rest)
    | .afterMoves (_ + 1) => none
    | .afterCommand => none

/-- The pending events after one more move of the decoder. -/
def tickEvents : List HostEvent → List HostEvent
  | ⟨.afterMoves (n + 1), a⟩ :: rest => ⟨.afterMoves n, a⟩ :: rest
  | l => l

/-- Serve a host event: an accepted CMD write runs the command (30_encoding.md R92). -/
def hostMove (a : HostAction) (s : State) : Move :=
  match a with
  | .regWrite offset size v =>
    if acceptsCommand offset size s then .instr (decodeCommand v) s else .settled (hostAction a s)
  | .regRead _ _ | .srcWrite _ _ | .srcRead _ | .dstWrite _ _ | .dstRead _ | .hwReset => .settled (hostAction a s)

/-- The next move of the loop of DECODE (44_quantum_loop.md R200): one operation while WP < ARG_DST_END, else
completion. -/
def loopMove (P : Params) (s : State) : Move :=
  if s.wp < s.argDstEnd then
    match fetchSelector P s with
    | .ok sel s => .instr (decodeSelector P sel) s
    | .raised c s => .settled (.next (faultEntry c s))
  else .settled (.next (completeDecode s))

/-- The next move of the machine. An IDLE block with no host event stays as it is (70_reset_and_hazards.md R280). -/
def nextMove (s : State) : Move :=
  match dueEvent s with
  | some (a, s') => hostMove a s'
  | none =>
    match s.phase with
    | .idle => .settled (.next s)
    | .busy => loopMove Config.params (s.setScript (tickEvents s.script))

/-! ### Placing an instruction where the next step fetches it -/

/-- The primitives of a selector word in state `s`: the is-literal bit, and where it is 0 the four bits of the
type nibble along their path, each with the value of the cell it will meet. -/
def selectorPrims (P : Params) (s : State) (sel : BitVec 5) : List Prim :=
  let cell := fun j => (cellAt P s j).toNat
  let l := sel.getLsbD 4
  let t := typeBase s.dstate
  let b3 := sel.getLsbD 3
  let b2 := sel.getLsbD 2
  let b1 := sel.getLsbD 1
  let b0 := sel.getLsbD 0
  let n2 := 2 + b3.toNat
  let n3 := 2 * n2 + b2.toNat
  let n4 := 2 * n3 + b1.toNat
  .bit (cell (isLitCell s.dstate 0)) l ::
    if l then []
    else [.bit (cell (t + 1)) b3, .bit (cell (t + n2)) b2, .bit (cell (t + n3)) b1, .bit (cell (t + n4)) b0]

/-- The bytes of `l` at `addr`, `addr + 1`, … of a memory. -/
def storeBytes (m : Memory) (addr : Addr) : List Byte → Memory
  | [] => m
  | b :: rest => storeBytes (Memory.write m addr b) (addr + 1) rest

/-- The bytes of 33 refill words: no operation performs more primitives (30_encoding.md R102), so none refills
more often. -/
def tailBytes (P : Params) : Nat := 33 * P.refillBytes

/-- `s` in the middle of a DECODE whose next operation has selector `sel`: a window that is still empty at DST
address 0 with room for the longest operation, and at SRC address 0 the stream of the selector's primitives, its
header already read, followed by refill words of zeros. -/
def withSelector (P : Params) (s : State) (sel : BitVec 5) : State :=
  let e := encodePrims P (selectorPrims P s sel)
  let stream := encodeStream P (selectorPrims P s sel)
  let size := stream.length + tailBytes P
  { s with
    phase := .busy, done := false, fault := false, ctxValid := true, err := 0, result := 0
    argDst := 0, argDstStart := 0, argDstEnd := BitVec.ofNat 64 P.maxLen, wp := 0
    argSrc := 0, argSrcEnd := BitVec.ofNat 64 size
    cur := BitVec.ofNat 64 P.headerBytes, lim := BitVec.ofNat 64 size
    accA := BitVec.ofNat 64 e.xa, accB := BitVec.ofNat 64 e.xb
    src := storeBytes (s.src.filter fun c => decide (size ≤ c.1)) 0 stream, script := [] }

/-- `s` with the host's write of `value` to CMD as the event that lands next; the block is IDLE, since a write
while BUSY is dropped. -/
def withCommand (s : State) (value : BitVec 64) : State :=
  { s with phase := .idle, script := ⟨.afterCommand, .regWrite 0x00 .b64 value⟩ :: s.script }

end Sys2Proof.Machine
end

