-- ==== Sys2Proof/Machine/Step.lean ====
section
/-! DEFINITION. One step of the machine, and placing an instruction where the next step fetches it. -/

namespace Sys2Proof.Machine

/-- One step: run the instruction that the next move names, or answer what the move has settled. -/
def step (s : State) : Host.Outcome State Fault Refusal :=
  match nextMove s with
  | .instr i s' => exec i s'
  | .settled o => o

/-- `s` with the instruction whose bits are `w` placed where the next step fetches it: a selector word as the
next operation of a DECODE in progress, any other width as the host's next write to CMD. -/
def State.withFetchWord (s : State) (nbits w : Nat) : State :=
  match readWord nbits w with
  | .ok (.selector sel) => withSelector Config.params s sel
  | .ok (.command v) => withCommand s v
  | .error _ => s

end Sys2Proof.Machine
end

