-- ==== Sys2Proof/Safety.lean ====
section
/-! DEFINITION. What claims speak of: the state invariant (10_state.md R48), the frames of operations, and the
inputs a command may depend on (20_memory.md R75, 44_quantum_loop.md R209). -/

namespace Sys2Proof.Safety

open Sys2Proof.Machine
open Sys2Proof.Config (Params)

/-! ### The invariant -/

/-- Every cell of CTX is in [P_MIN, P_MAX] (10_state.md R37). -/
def CellsInRange (P : Params) (s : State) : Prop := ∀ j, j < Config.numCells → P.InRange (cellAt P s j)

/-- The history invariant (10_state.md R26, 43_match.md R178). -/
structure HistoryOk (s : State) : Prop where
  length_le : s.histLen.toNat ≤ 8
  nonzero : ∀ i, i < s.histLen.toNat → histAt s i ≠ 0
  distinct : ∀ i j, i < j → j < s.histLen.toNat → histAt s i ≠ histAt s j
  unused : ∀ i, s.histLen.toNat ≤ i → histAt s i = 0

/-- The STATUS bits, ERR and RESULT agree (10_state.md R30 to R32, 60_exceptions.md R236). -/
structure StatusOk (s : State) : Prop where
  busy_not_done : s.phase = .busy → s.done = false
  busy_valid : s.phase = .busy → s.ctxValid = true
  done_not_fault : s.done = true → s.fault = false
  fault_invalid : s.fault = true → s.ctxValid = false
  err_iff : s.err = 0 ↔ s.fault = false
  err_le : s.err.toNat ≤ 6
  result_err : s.fault = true → s.result = 0 - s.err.setWidth 64

/-- The reader's cursors while a DECODE is in progress (10_state.md R22, R24). -/
structure CursorsOk (s : State) : Prop where
  src_le : s.argSrc ≤ s.cur
  cur_le : s.cur ≤ s.lim
  lim_eq : s.lim = s.argSrcEnd
  header : 16 ≤ (s.cur - s.argSrc).toNat
  words : (s.cur - s.argSrc).toNat % 4 = 0

/-- The write cursor while a DECODE is in progress (10_state.md R23, 44_quantum_loop.md R201). -/
structure WindowOk (s : State) : Prop where
  start_le : s.argDstStart ≤ s.argDst
  dst_le : s.argDst ≤ s.wp
  wp_le : s.wp ≤ s.argDstEnd

/-- The invariant of the machine (10_state.md R48). -/
structure Inv (s : State) : Prop where
  src_wf : Memory.wf s.src = true
  dst_wf : Memory.wf s.dst = true
  cells_wf : Cells.wf Config.params s.cells = true
  cells : CellsInRange Config.params s
  history : HistoryOk s
  match_state : Config.params.litStateLimit ≤ s.dstate.val → 1 ≤ s.histLen.toNat
  status : StatusOk s
  cursors : s.phase = .busy → CursorsOk s
  window : s.phase = .busy → WindowOk s

/-! ### Frames -/

/-- Only the accumulators, CUR and cells may differ: what the symbols of an operation write (43_match.md R170). -/
def ReaderFrame (s t : State) : Prop :=
  t = { s with accA := t.accA, accB := t.accB, cur := t.cur, cells := t.cells }

/-- The reader's cursor is not past its limit, and it has source bytes left for `k` refills: enough for `k`
primitives, whatever they decode (40_bitreader.md R122: at most one refill each). -/
def Supply (P : Params) (k : Nat) (s : State) : Prop :=
  s.cur ≤ s.lim ∧ P.refillBytes * k ≤ (bytesRemaining s).toNat

/-- A cell on a decode path (10_state.md R38, R39, R41; 30_encoding.md R101 c): every other cell is never
consulted. -/
def onPath : CellPath → Bool
  | .isLit _ _ => true
  | .typeSlot _ n | .longLen _ n | .nearFirst _ n | .farHi n | .farLo _ n => decide (1 ≤ n.val ∧ n.val < 16)
  | .litUpper _ n | .litLower _ n | .litNomatch _ n => decide (1 ≤ n.val ∧ n.val < 16)
  | .repSlot _ n | .shortLen _ _ n | .medLen n => decide (1 ≤ n.val ∧ n.val < 8)
  | .nearLow _ i => decide (1 ≤ i.val)
  | .farRef h i => decide (1 ≤ i.val ∧ i.val < 2 ^ min h.val 4)

/-- Cell `j` of the flat numbering is on a decode path. -/
def Consulted (j : Nat) : Prop := ∃ p : CellPath, onPath p = true ∧ cellIndex p = j

/-- The cells outside `[lo, lo + n)` read as before. -/
def CellsKeptOutside (P : Params) (lo n : Nat) (s t : State) : Prop :=
  ∀ j, j < lo ∨ lo + n ≤ j → cellAt P t j = cellAt P s j

/-- Every DST byte but the `n` at `addr` reads as before. -/
def DstKeptOutside (addr : Addr) (n : Nat) (s t : State) : Prop :=
  ∀ a : Addr, (∀ i, i < n → a ≠ addr + BitVec.ofNat 64 i) → dstByte t a = dstByte s a

/-- Only what an operation may write differs (43_match.md R170, 42_literal.md R160): the reader, the cells, DST,
WP, HIST, HIST_LEN and DSTATE. -/
def OperationFrame (s t : State) : Prop :=
  t = { s with
    accA := t.accA, accB := t.accB, cur := t.cur, cells := t.cells, dst := t.dst, wp := t.wp
    hist := t.hist, histLen := t.histLen, dstate := t.dstate }

/-- `d` is a near distance from `base`: not `base` itself, not 0, at most 32 away (30_encoding.md R98,
43_match.md R173). -/
def IsNear (base d : Dist) : Prop :=
  d ≠ base ∧ d ≠ 0 ∧ (base.toNat : Int) - 32 ≤ d.toNat ∧ (d.toNat : Int) ≤ base.toNat + 32

/-- `t` is `s` after a match of length `len` at distance `d` with transition table `next` (43_match.md R175 to
R177): the bytes, WP, the history and DSTATE; apart from the reader and the cells nothing else differs. -/
structure MatchDone (next : Vector DecState 12) (len : Nat) (d : Dist) (s t : State) : Prop where
  frame : OperationFrame s t
  cursor : t.wp = s.wp + BitVec.ofNat 64 len
  copied : ∀ i, i < len →
    dstByte t (s.wp + BitVec.ofNat 64 i) = dstByte t (s.wp + BitVec.ofNat 64 i - d.setWidth 64)
  kept : DstKeptOutside s.wp len s t
  hist : t.hist = (histInsert d s).hist ∧ t.histLen = (histInsert d s).histLen
  state : t.dstate = next[s.dstate]

/-- The distance and the length of a match pass the checks of `MatchFinish` (43_match.md R175). -/
def FitsWindow (len : Nat) (d : Dist) (s : State) : Prop :=
  d ≠ 0 ∧ d.toNat ≤ windowSize s ∧ len ≤ roomLeft s

/-! ### Streams made by an encoder (40_bitreader.md R128) -/

/-- A primitive that an encoder plans: a decision on the cell with a flat index, or raw bits. -/
inductive Plan where
  | bit (cell : Nat) (b : Bool)
  | raw (n v : Nat)
deriving DecidableEq, Repr

/-- What the hardware can be made to decode: a decision on a cell of CTX, or 1 to RAW_MAX raw bits. -/
def Plan.ok (P : Params) : Plan → Prop
  | .bit j _ => j < Config.numCells
  | .raw n v => 1 ≤ n ∧ n ≤ P.rawMax ∧ v < 2 ^ n

/-- The planned primitives with the value that each decision's cell will have when it is met: the encoder adapts
the context as the decoder will. -/
def planPrims (P : Params) : List Plan → State → List Prim
  | [], _ => []
  | .bit j b :: rest, s => .bit (cellAt P s j).toNat b :: planPrims P rest (setCell P s j (adapt P (cellAt P s j) b))
  | .raw n v :: rest, s => .raw n v :: planPrims P rest s

/-- Decoding from `s` gives the planned symbols, one after another, and ends in `t`. -/
def Decodes (P : Params) : List Plan → State → State → Prop
  | [], s, t => t = s
  | .bit j b :: rest, s, t => ∃ u, decodeBit P j s = .ok b u ∧ Decodes P rest u t
  | .raw n v :: rest, s, t => ∃ u, readBits P n s = .ok v u ∧ Decodes P rest u t

/-! ### Runs -/

/-- `n` steps, ending early where the machine stops. -/
def runFor : Nat → State → Host.Outcome State Fault Refusal
  | 0, s => .next s
  | n + 1, s =>
    match step s with
    | .next t => runFor n t
    | .fault f => .fault f
    | .refused r => .refused r

/-- No host event will land while the block is BUSY. -/
def NoEventInside (s : State) : Prop :=
  match s.script with
  | [] => True
  | e :: _ => e.timing = .afterCommand

/-- The next thing the machine does is a move of the decode loop. -/
def LoopTurn (s : State) : Prop := s.phase = .busy ∧ dueEvent s = none

/-- The next thing the machine does is no access of the host's to its memories and no reset: a move of the
decoder, or an access to a register (an accepted command among them). -/
def NoHostMemoryAccess (s : State) : Prop :=
  match dueEvent s with
  | none => True
  | some (.regWrite _ _ _, _) | some (.regRead _ _, _) => True
  | some (.srcWrite _ _, _) | some (.srcRead _, _) | some (.dstWrite _ _, _) | some (.dstRead _, _) | some (.hwReset, _) => False

/-! ### What a DECODE depends on (44_quantum_loop.md R209) -/

/-- Two states that agree on everything a DECODE may depend on: CTX with CTX_VALID, the ARG registers,
SRC[ARG_SRC, ARG_SRC_END) and DST[ARG_DST_START, ARG_DST). -/
structure SameInputs (s t : State) : Prop where
  context : t.cells = s.cells ∧ t.hist = s.hist ∧ t.histLen = s.histLen ∧ t.dstate = s.dstate ∧
    t.ctxValid = s.ctxValid
  args : t.argDst = s.argDst ∧ t.argDstEnd = s.argDstEnd ∧ t.argDstStart = s.argDstStart ∧
    t.argSrc = s.argSrc ∧ t.argSrcEnd = s.argSrcEnd
  source : ∀ a : Addr, s.argSrc ≤ a → a < s.argSrcEnd → Memory.read t.src a = Memory.read s.src a
  window : ∀ a : Addr, s.argDstStart ≤ a → a < s.argDst → dstByte t a = dstByte s a

/-- Two states after a DECODE that agree on what it determines: CTX, STATUS, ERR and RESULT. -/
structure SameResult (s t : State) : Prop where
  context : t.cells = s.cells ∧ t.hist = s.hist ∧ t.histLen = s.histLen ∧ t.dstate = s.dstate
  status : t.phase = s.phase ∧ t.done = s.done ∧ t.fault = s.fault ∧ t.ctxValid = s.ctxValid
  outcome : t.err = s.err ∧ t.result = s.result

/-- Two states after a DECODE that passed its argument check: they also agree on CUR, LIM, WP and the window. -/
structure SameProgress (s t : State) : Prop where
  cursors : t.cur = s.cur ∧ t.lim = s.lim ∧ t.wp = s.wp
  window : ∀ a : Addr, s.argDstStart ≤ a → a < s.wp → dstByte t a = dstByte s a

end Sys2Proof.Safety
end

