-- ==== Sys2Proof/Certificates/Slice0/Obligations.lean ====
section
/-! DEFINITION. The statements for the provers, in the order of OBLIGATIONS.json. -/

section

open Sys2Proof Sys2Proof.Machine Sys2Proof.Safety
open Sys2Proof.Config (Params)

/-! ### Encoding -/

/-- Words written out from the tables of 30_encoding.md R92 and R93 decode to the instruction of their row. -/
def Obligations.SampleWordsDecode : Prop :=
  decodeTableWord 32 0x00000001 = some .init ∧ decodeTableWord 32 0x00000002 = some .decode ∧
  decodeTableWord 32 0x00000000 = some (.cmdReserved 0) ∧ decodeTableWord 32 0xFFFFFFFF = some (.cmdReserved 0xFFFFFFFF) ∧
  decodeTableWord 8 0b10000 = some .lit ∧ decodeTableWord 8 0b11111 = some .lit ∧
  decodeTableWord 8 0b00000 = some .matchFar ∧ decodeTableWord 8 0b00001 = some .matchNear0 ∧
  decodeTableWord 8 0b00010 = some .matchNear1 ∧ decodeTableWord 8 0b00011 = some .rep ∧
  decodeTableWord 8 0b00100 = some .shortrep ∧ decodeTableWord 8 0b00101 = some .typeReserved5 ∧
  decodeTableWord 8 0b00111 = some (.typeReserved6to7 1) ∧ decodeTableWord 8 0b01110 = some (.typeReserved8to15 6)

/-- 30_encoding.md R92: of a 64-bit write to CMD the low 32 bits are the code and the high 32 bits are ignored. -/
def Obligations.CommandCodeIsTheLowHalf : Prop :=
  ∀ v : BitVec 64, decode (.command v) =
    if v.toNat % 2 ^ 32 = 1 then .init
    else if v.toNat % 2 ^ 32 = 2 then .decode
    else .cmdReserved (BitVec.ofNat 32 (v.toNat % 2 ^ 32))

/-- 30_encoding.md R92, R93: decoding an encoded well-formed instruction gives it back, and encoding a decoded word
gives the word back but for the bits that the tables leave out (the high half of a command, T where L is 1). For
every well-formed record, whatever its type code points (00_scope.md R7), the six operations decode from their words. -/
def Obligations.DecodeInvertsEncode : Prop :=
  (∀ i : Instr, i.wellFormed = true → decode (encode i) = i) ∧
  (∀ e : Encoded, (decode e).wellFormed = true) ∧
  (∀ v : BitVec 64, encode (decode (.command v)) = .command (v &&& 0xFFFFFFFF)) ∧
  (∀ sel : BitVec 5, encode (decode (.selector sel)) = .selector (if sel.getLsbD 4 then 0b10000 else sel)) ∧
  ∀ P : Params, P.Wf → ∀ i : Instr,
    (i = .lit ∨ i = .matchFar ∨ i = .matchNear0 ∨ i = .matchNear1 ∨ i = .rep ∨ i = .shortrep) →
    decodeFor P (encodeFor P i) = i

/-- 30_encoding.md R96, R104: every length in 2..54 has exactly one symbol sequence. -/
def Obligations.LengthCodeIsBijective : Prop :=
  ∀ P : Params, P.AsWritten →
    (∀ n, 2 ≤ n → n ≤ 54 → (lenSymbols P n).valid = true ∧ lenValue P (lenSymbols P n) = n) ∧
    ∀ y : LenSymbols, y.valid = true →
      2 ≤ lenValue P y ∧ lenValue P y ≤ 54 ∧ lenSymbols P (lenValue P y) = y

/-- 30_encoding.md R97, R104: HI picks the range [16·2^HI - 15, 32·2^HI - 16], and every distance in 1..1048560 has
exactly one symbol sequence. -/
def Obligations.FarCodeIsBijective : Prop :=
  (∀ d, 1 ≤ d → d ≤ 1048560 → ∃ hi lo r, farSymbols d = (hi, lo, r) ∧ hi < 16 ∧ lo < 16 ∧ r < 2 ^ hi ∧
    farValue hi lo r = d) ∧
  ∀ hi lo r, hi < 16 → lo < 16 → r < 2 ^ hi →
    16 * 2 ^ hi ≤ farValue hi lo r + 15 ∧ farValue hi lo r + 16 ≤ 32 * 2 ^ hi ∧
    farSymbols (farValue hi lo r) = (hi, lo, r)

/-- 30_encoding.md R98, R104: the 64 values of V give the deltas -32..-1 and 1..32, each once. -/
def Obligations.NearCodeIsBijective : Prop :=
  (∀ v, v < 64 → nearDelta v ≠ 0 ∧ -32 ≤ nearDelta v ∧ nearDelta v ≤ 32 ∧ nearSymbol (nearDelta v) = v) ∧
  ∀ e : Int, e ≠ 0 → -32 ≤ e → e ≤ 32 → nearSymbol e < 64 ∧ nearDelta (nearSymbol e) = e

/-- 40_bitreader.md R128, 30_encoding.md R90: a stream that the encoder made for a plan of primitives, placed at
ARG_SRC and declared to its end, is decoded to exactly the planned symbols, with both header words in
[2^31, 2^63), and is used up to its last byte. -/
def Obligations.EncodedStreamIsReadBack : Prop :=
  ∀ (P : Params) (s : State) (plan : List Plan), P.Wf → P.AsWritten → Cells.wf P s.cells = true → CellsInRange P s →
    (∀ p ∈ plan, p.ok P) →
    let stream := encodeStream P (planPrims P plan s)
    s.argSrc.toNat + stream.length < 2 ^ 64 → s.argSrcEnd = s.argSrc + BitVec.ofNat 64 stream.length →
    srcBytes s s.argSrc stream.length = stream →
    ∃ t u, readerInit P s = .ok () t ∧ Decodes P plan t u ∧ u.cur = s.argSrcEnd ∧
      2 ^ 31 ≤ t.accA.toNat ∧ t.accA.toNat < 2 ^ 63 ∧ 2 ^ 31 ≤ t.accB.toNat ∧ t.accB.toNat < 2 ^ 63

/-- An instruction placed by `withFetchWord` is the one that the next step runs: a 32-bit word as the host's write to
CMD, a selector word as the next operation of a DECODE in progress, which then has source bytes left for 33 more
primitives. -/
def Obligations.PlacedInstructionIsFetched : Prop :=
  (∀ (s : State) (w : BitVec 32),
    step (s.withFetchWord 32 w.toNat) = exec (decode (.command (w.setWidth 64))) { s with phase := .idle }) ∧
  ∀ (s : State) (sel : BitVec 5), Memory.wf s.src = true → Cells.wf Config.params s.cells = true →
    CellsInRange Config.params s →
    ∃ t, step (s.withFetchWord 8 sel.toNat) = exec (decode (.selector sel)) t ∧
      ReaderFrame (s.withFetchWord 8 sel.toNat) t ∧ t.phase = .busy ∧ t.wp < t.argDstEnd ∧ Supply Config.params 33 t

/-- 10_state.md R42 with 41_models.md R147: the flat numbering gives each of the 2327 numbers to exactly one cell, and
the initializer by number is the initializer by path. -/
def Obligations.CellNumberingIsExact : Prop :=
  (∀ (P : Params) (q : CellPath), cellIndex q < 2327 ∧ initCell P (cellIndex q) = pathInit P q) ∧
  ∀ j, j < 2327 → ∃ q : CellPath, cellIndex q = j ∧ ∀ q' : CellPath, cellIndex q' = j → q' = q

/-! ### The primitives -/

/-- 20_memory.md R62: a source word is its bytes, the first one most significant, and the last one most significant in
the other byte order. -/
def Obligations.SourceWordsFollowTheWireOrder : Prop :=
  ∀ (P : Params) (s : State) (a : Addr),
    let b := fun i : Nat => (Memory.read s.src (a + BitVec.ofNat 64 i)).toNat
    srcWord P s a 4 =
      (if P.wireBigEndian then b 0 * 2 ^ 24 + b 1 * 2 ^ 16 + b 2 * 2 ^ 8 + b 3
        else b 3 * 2 ^ 24 + b 2 * 2 ^ 16 + b 1 * 2 ^ 8 + b 0) ∧
    srcWord P s a 8 =
      if P.wireBigEndian then srcWord P s a 4 * 2 ^ 32 + srcWord P s (a + 4) 4
        else srcWord P s (a + 4) 4 * 2 ^ 32 + srcWord P s a 4

/-- 41_models.md R141: the value of `Adapt`, its range and its monotonicity for every well-formed record, and the
corner cases of the default record. -/
def Obligations.AdaptMovesTowardTheBit : Prop :=
  (∀ (P : Params) (p : Prob), P.Wf → P.InRange p →
    (adapt P p false).toNat = min (max (p.toNat + (0x8000 - p.toNat) / 2 ^ P.rateShift) P.pMin) P.pMax ∧
    (adapt P p true).toNat = min (max (p.toNat - p.toNat / 2 ^ P.rateShift) P.pMin) P.pMax ∧
    p.toNat ≤ (adapt P p false).toNat ∧ (adapt P p true).toNat ≤ p.toNat ∧
    P.InRange (adapt P p false) ∧ P.InRange (adapt P p true)) ∧
  (∀ (p : Prob) (b : Bool), 0x1F ≤ p.toNat → p.toNat ≤ 0x7FE1 →
    0x1F ≤ (adapt Config.params p b).toNat ∧ (adapt Config.params p b).toNat ≤ 0x7FE1) ∧
  adapt Config.params 0x4000 false = 0x4200 ∧ adapt Config.params 0x4000 true = 0x3E00 ∧
  adapt Config.params 0x7FE0 false = 0x7FE1 ∧ adapt Config.params 0x7FE1 false = 0x7FE1 ∧
  adapt Config.params 0x20 true = 0x1F ∧ adapt Config.params 0x1F true = 0x1F ∧
  adapt Config.params 1 true = 1 ∧ adapt Config.params 0x7FFF false = 0x7FFF ∧
  adapt Config.params 0x4200 true = 0x3FF0

/-- 40_bitreader.md R122: what `Renorm(x)` does, for every 64-bit `x` and every record; with the numbers that the rule
writes, 2^31 and 4 bytes, a refilled accumulator is exact and below 2^63. -/
def Obligations.RenormRefillsBelowTwoToThe31 : Prop :=
  ∀ (P : Params) (s : State) (x : Nat), x < 2 ^ 64 →
    (P.renormLow ≤ x → ∃ t, renorm P x s = .ok () t ∧ t = { s with accA := s.accB, accB := t.accB } ∧
      t.accB.toNat = x) ∧
    (x < P.renormLow → P.refillBytes ≤ (bytesRemaining s).toNat → ∃ t, renorm P x s = .ok () t ∧
      t = { s with accA := s.accB, accB := t.accB, cur := s.cur + BitVec.ofNat 64 P.refillBytes } ∧
      t.accB = BitVec.ofNat 64 (x * 2 ^ P.refillBits + srcWord P s s.cur P.refillBytes) ∧
      (P.AsWritten → t.accB.toNat = x * 2 ^ 32 + srcWord P s s.cur 4 ∧ t.accB.toNat < 2 ^ 63)) ∧
    (x < P.renormLow → (bytesRemaining s).toNat < P.refillBytes → renorm P x s = .raised .truncated s) ∧
    (P.AsWritten → P.renormLow = 2 ^ 31 ∧ P.refillBytes = 4)

/-- 40_bitreader.md R121: what `ReaderInit()` does, for every record; as the rule writes them, the header has 16 bytes,
two words of 8. -/
def Obligations.ReaderInitLoadsTheHeader : Prop :=
  ∀ (P : Params) (s : State),
    (P.headerBytes ≤ (s.argSrcEnd - s.argSrc).toNat → ∃ t, readerInit P s = .ok () t ∧
      t = { s with
        accA := t.accA, accB := t.accB, cur := s.argSrc + BitVec.ofNat 64 P.headerBytes, lim := s.argSrcEnd } ∧
      t.accA = BitVec.ofNat 64 (srcWord P s s.argSrc P.headerWord) ∧
      t.accB = BitVec.ofNat 64 (srcWord P s (s.argSrc + BitVec.ofNat 64 P.headerWord) P.headerWord) ∧
      (P.AsWritten → t.accA.toNat = srcWord P s s.argSrc 8 ∧ t.accB.toNat = srcWord P s (s.argSrc + 8) 8)) ∧
    ((s.argSrcEnd - s.argSrc).toNat < P.headerBytes →
      readerInit P s = .raised .truncated { s with cur := s.argSrc, lim := s.argSrcEnd }) ∧
    (P.AsWritten → P.headerBytes = 16)

/-- 40_bitreader.md R123: the bit that `DecodeBit` takes, the cell it adapts, and the value it hands to `Renorm`; on a
raise the cell stays adapted. -/
def Obligations.DecodeBitComparesAndAdapts : Prop :=
  ∀ (P : Params) (s : State) (j : Nat), P.Wf → Cells.wf P s.cells = true → CellsInRange P s → j < 2327 →
    let x := s.accA.toNat
    let p := (cellAt P s j).toNat
    let bit : Bool := decide (p ≤ x % 2 ^ 15)
    let x2 := if bit then (0x8000 - p) * (x / 2 ^ 15) + (x % 2 ^ 15 - p) else p * (x / 2 ^ 15) + x % 2 ^ 15
    let s' := setCell P s j (adapt P (cellAt P s j) bit)
    (∀ i, cellAt P s' i = if i = j then adapt P (cellAt P s j) bit else cellAt P s i) ∧ x2 ≤ x ∧
    (∀ t, renorm P x2 s' = .ok () t → decodeBit P j s = .ok bit t ∧ t.cells = s'.cells) ∧
    ∀ c t, renorm P x2 s' = .raised c t → decodeBit P j s = .raised .truncated s'

/-- 40_bitreader.md R124: for n from 1 to RAW_MAX, `ReadBits(n)` answers the n low bits of ACC_A, renormalises what is left, and consults no
cell. -/
def Obligations.ReadBitsTakesTheLowBits : Prop :=
  ∀ (P : Params) (s : State) (n : Nat), 1 ≤ n → n ≤ P.rawMax →
    (∀ t, renorm P (s.accA.toNat / 2 ^ n) s = .ok () t →
      readBits P n s = .ok (s.accA.toNat % 2 ^ n) t ∧ t.cells = s.cells) ∧
    ∀ c t, renorm P (s.accA.toNat / 2 ^ n) s = .raised c t → readBits P n s = .raised .truncated s

/-- 40_bitreader.md R126 (a) to (d): no primitive's value exceeds the accumulator it came from, and accumulators in
[2^31, 2^63) stay there. -/
def Obligations.AccumulatorsStayNormal : Prop :=
  (∀ x p, 1 ≤ p → p ≤ 0x7FFF → x < 2 ^ 64 → bitRest x p ≤ x) ∧
  (∀ (P : Params) (s t : State) (j : Nat) (b : Bool), P.AsWritten → 1 ≤ (cellAt P s j).toNat → (cellAt P s j).toNat ≤ 0x7FFF →
    (2 ^ 31 ≤ s.accA.toNat ∧ s.accA.toNat < 2 ^ 63) → (2 ^ 31 ≤ s.accB.toNat ∧ s.accB.toNat < 2 ^ 63) →
    decodeBit P j s = .ok b t →
    (2 ^ 31 ≤ t.accA.toNat ∧ t.accA.toNat < 2 ^ 63) ∧ (2 ^ 31 ≤ t.accB.toNat ∧ t.accB.toNat < 2 ^ 63)) ∧
  ∀ (P : Params) (s t : State) (n v : Nat), P.AsWritten → 1 ≤ n → n ≤ P.rawMax →
    (2 ^ 31 ≤ s.accA.toNat ∧ s.accA.toNat < 2 ^ 63) → (2 ^ 31 ≤ s.accB.toNat ∧ s.accB.toNat < 2 ^ 63) →
    readBits P n s = .ok v t →
    (2 ^ 31 ≤ t.accA.toNat ∧ t.accA.toNat < 2 ^ 63) ∧ (2 ^ 31 ≤ t.accB.toNat ∧ t.accB.toNat < 2 ^ 63)

/-- 41_models.md R143, 10_state.md R38: a tree decode that answers `v` has adapted exactly the cells on the path of
`v`, each by the bit of `v` that it decided; where it raises, it has adapted cells of the tree only. -/
def Obligations.TreeDecodeAdaptsOnePath : Prop :=
  ∀ (P : Params) (s : State) (base depth : Nat), Cells.wf P s.cells = true → 1 ≤ depth → depth ≤ 4 →
    base + 2 ^ depth ≤ 2327 →
    (∀ v t, decodeTree P base depth s = .ok v t →
      v < 2 ^ depth ∧ ReaderFrame s t ∧
      (∀ i, i < depth →
        cellAt P t (base + (2 ^ depth + v) / 2 ^ (depth - i)) =
          adapt P (cellAt P s (base + (2 ^ depth + v) / 2 ^ (depth - i))) (v.testBit (depth - 1 - i))) ∧
      ∀ j, (∀ i, i < depth → j ≠ base + (2 ^ depth + v) / 2 ^ (depth - i)) → cellAt P t j = cellAt P s j) ∧
    ∀ c t, decodeTree P base depth s = .raised c t →
      c = .truncated ∧ ReaderFrame s t ∧ ∀ j, ¬(base < j ∧ j < base + 2 ^ depth) → cellAt P t j = cellAt P s j

/-! ### The operands -/

/-- 43_match.md R172, R174: a length is in 2..54 and adapts cells of `med_len` and `long_len` only; a far distance is
in 1..1048560 and adapts cells of `far` only; the only fault is `Truncated`, and not with source bytes for 15 and 13
primitives. -/
def Obligations.LengthAndFarDistanceInRange : Prop :=
  ∀ (P : Params) (s : State), P.AsWritten → Cells.wf P s.cells = true →
    (∀ n t, decodeLen P s = .ok n t → 2 ≤ n ∧ n ≤ 54 ∧ ReaderFrame s t ∧ CellsKeptOutside P 1272 60 s t) ∧
    (∀ d t, decodeFar P s = .ok d t →
      1 ≤ d.toNat ∧ d.toNat ≤ 1048560 ∧ ReaderFrame s t ∧ CellsKeptOutside P 1374 545 s t) ∧
    (∀ c t, decodeLen P s = .raised c t → c = .truncated ∧ ReaderFrame s t ∧ ¬Supply P 15 s) ∧
    ∀ c t, decodeFar P s = .raised c t → c = .truncated ∧ ReaderFrame s t ∧ ¬Supply P 13 s

/-- 43_match.md R172, 30_encoding.md R96: a length is assembled from the symbols decoded: 2 + M for M up to 6, else
9 + N1 for N1 up to 14, else 24 + N2 for N2 up to 14, else 39 + N3 (with the numbers of the record); a raise of a
symbol is the length's. -/
def Obligations.LengthIsAssembledFromItsSymbols : Prop :=
  ∀ (P : Params) (s : State),
    (∀ c t, decodeTree P 1272 3 s = .raised c t → decodeLen P s = .raised c t) ∧
    (∀ m t, decodeTree P 1272 3 s = .ok m t →
      m < 8 ∧ (m ≤ 6 → decodeLen P s = .ok (P.minLen + m) t) ∧
      (m = 7 →
        (∀ c u, decodeTree P 1281 4 t = .raised c u → decodeLen P s = .raised c u) ∧
        ∀ n1 u, decodeTree P 1281 4 t = .ok n1 u →
          n1 < 16 ∧ (n1 ≤ 14 → decodeLen P s = .ok (P.longBase1 + n1) u) ∧
          (n1 = 15 →
            (∀ c v, decodeTree P 1298 4 u = .raised c v → decodeLen P s = .raised c v) ∧
            ∀ n2 v, decodeTree P 1298 4 u = .ok n2 v →
              n2 < 16 ∧ (n2 ≤ 14 → decodeLen P s = .ok (P.longBase2 + n2) v) ∧
              (n2 = 15 →
                (∀ c w, decodeTree P 1315 4 v = .raised c w → decodeLen P s = .raised c w) ∧
                ∀ n3 w, decodeTree P 1315 4 v = .ok n3 w →
                  n3 < 16 ∧ decodeLen P s = .ok (P.longBase3 + n3) w)))) ∧
    (P.AsWritten → P.minLen = 2 ∧ P.longBase1 = 9 ∧ P.longBase2 = 24 ∧ P.longBase3 = 39)

/-- 43_match.md R174, 30_encoding.md R97: a far distance is ((16 + LO) << HI) + R - 15 of the symbols decoded, LO from
the model that HI picks; R is nothing for HI 0, HI tree bits for HI up to 4, else HI - 4 raw bits and then, as its low
part, 4 tree bits; a raise of a symbol is the distance's. -/
def Obligations.FarDistanceIsAssembledFromItsSymbols : Prop :=
  ∀ (P : Params) (s : State), P.AsWritten →
    (∀ c t, decodeTree P 1374 4 s = .raised c t → decodeFar P s = .raised c t) ∧
    ∀ hi t, decodeTree P 1374 4 s = .ok hi t →
      hi < 16 ∧ (∀ c u, decodeTree P (1391 + 17 * hi) 4 t = .raised c u → decodeFar P s = .raised c u) ∧
      ∀ lo u, decodeTree P (1391 + 17 * hi) 4 t = .ok lo u →
        lo < 16 ∧
        (hi = 0 → ∃ d, decodeFar P s = .ok d u ∧ d.toNat = 16 + lo - 15) ∧
        (1 ≤ hi → hi ≤ 4 →
          (∀ c v, decodeTree P (1663 + 16 * hi) hi u = .raised c v → decodeFar P s = .raised c v) ∧
          ∀ r v, decodeTree P (1663 + 16 * hi) hi u = .ok r v →
            r < 2 ^ hi ∧ ∃ d, decodeFar P s = .ok d v ∧ d.toNat = (16 + lo) * 2 ^ hi + r - 15) ∧
        (5 ≤ hi →
          (∀ c v, readBits P (hi - 4) u = .raised c v → decodeFar P s = .raised c v) ∧
          ∀ rh v, readBits P (hi - 4) u = .ok rh v →
            rh < 2 ^ (hi - 4) ∧
            (∀ c w, decodeTree P (1663 + 16 * hi) 4 v = .raised c w → decodeFar P s = .raised c w) ∧
            ∀ rl w, decodeTree P (1663 + 16 * hi) 4 v = .ok rl w →
              rl < 16 ∧ ∃ d, decodeFar P s = .ok d w ∧ d.toNat = (16 + lo) * 2 ^ hi + (16 * rh + rl) - 15)

/-- 43_match.md R173: without entry `k` a near distance raises `InvalidDistance` and decodes nothing; otherwise it is
HIST[k] plus the delta of six decoded bits, or `InvalidDistance` where that sum is no positive 32-bit distance. -/
def Obligations.NearDistanceIsASmallDelta : Prop :=
  ∀ (P : Params) (s : State) (k : Nat), P.AsWritten → k < 2 →
    (s.histLen.toNat ≤ k → decodeNear P k s = .raised .invalidDistance s) ∧
    (k < s.histLen.toNat → ∀ e t lw u, decodeTree P (1332 + 21 * k) 4 s = .ok e t →
      decodeTree P (1332 + 21 * k + 17) 2 t = .ok lw u →
      let v := 4 * e + lw
      let delta : Int := if v % 2 = 0 then (v / 2 : Nat) + 1 else -((v + 1) / 2 : Nat)
      let d : Int := (histAt s k).toNat + delta
      v < 64 ∧ (d ≤ 0 ∨ 2 ^ 32 ≤ d → decodeNear P k s = .raised .invalidDistance u) ∧
      (0 < d → d < 2 ^ 32 → ∃ r : Dist, decodeNear P k s = .ok r u ∧ (r.toNat : Int) = d ∧ IsNear (histAt s k) r))

/-- 42_literal.md R162, R163: a plain literal adapts `nomatch` cells of its LiteralModel only; a matched one adapts
cells of that LiteralModel only, leaves `nomatch` untouched where the byte is the predicted one, and leaves `lower`
untouched where the upper nibbles differ. -/
def Obligations.LiteralByteUsesOneModel : Prop :=
  ∀ (P : Params) (s t : State) (c : Nat) (m byte : Byte), Cells.wf P s.cells = true → c < 8 →
    (litPlain P c s = .ok byte t →
      ReaderFrame s t ∧ CellsKeptOutside P (1919 + 51 * c + 34) 17 s t) ∧
    (litMatched P c m s = .ok byte t →
      ReaderFrame s t ∧ CellsKeptOutside P (1919 + 51 * c) 51 s t ∧
      (byte = m → CellsKeptOutside P (1919 + 51 * c) 34 s t) ∧
      (byte.extractLsb' 4 4 ≠ m.extractLsb' 4 4 →
        ∀ j, 1919 + 51 * c + 17 ≤ j → j < 1919 + 51 * c + 34 → cellAt P t j = cellAt P s j))

/-- 42_literal.md R162, R163: the byte of a literal. A plain one is two nibbles of the one `nomatch` model, the upper
one decoded first. A matched one answers `byte` exactly where its eight decisions are, most significant bit first and
each in the state the one before left: while the bits above equal those of the predicted byte `m`, the bit differs
from `m`'s or not, decided in `upper` for bits 7 to 4 and in `lower` for bits 3 to 0; after a mismatch, across the
nibbles, the bit itself, decided in `nomatch`; at the node that the byte's own bits of that nibble lead to. -/
def Obligations.LiteralByteIsAssembledFromItsBits : Prop :=
  ∀ (P : Params) (s : State) (c : Nat), c < 8 →
    let lit := 1919 + 51 * c
    (∀ f t, decodeTree P (lit + 34) 4 s = .raised f t → litPlain P c s = .raised f t) ∧
    (∀ hi t, decodeTree P (lit + 34) 4 s = .ok hi t →
      (∀ f u, decodeTree P (lit + 34) 4 t = .raised f u → litPlain P c s = .raised f u) ∧
      ∀ lo u, decodeTree P (lit + 34) 4 t = .ok lo u →
        hi < 16 ∧ lo < 16 ∧ ∃ byte, litPlain P c s = .ok byte u ∧ byte.toNat = 16 * hi + lo) ∧
    ∀ (m byte : Byte) (t : State), litMatched P c m s = .ok byte t ↔
      ∃ at' : Nat → State, at' 0 = s ∧ at' 8 = t ∧ ∀ j, j < 8 →
        let above := byte.toNat / 2 ^ (8 - j)
        let equal := above = m.toNat / 2 ^ (8 - j)
        let depth := j % 4
        let node := 2 ^ depth + above % 2 ^ depth
        let tree := if equal then (if j < 4 then lit else lit + 17) else lit + 34
        let b := byte.getLsbD (7 - j)
        decodeBit P (tree + node) (at' j) = .ok (if equal then xor b (m.getLsbD (7 - j)) else b) (at' (j + 1))

/-! ### The history, the copy and the tail of a match -/

/-- 43_match.md R176: `HistInsert(d)` puts `d` first; a distance already there moves to the front, a new one pushes the
others down and drops the eighth. -/
def Obligations.HistInsertMovesToFront : Prop :=
  ∀ (s : State) (d : Dist), HistoryOk s →
    let t := histInsert d s
    t = { s with hist := t.hist, histLen := t.histLen } ∧ histAt t 0 = d ∧
    (∀ j, j < s.histLen.toNat → histAt s j = d → t.histLen = s.histLen ∧
      (∀ i, 1 ≤ i → i ≤ j → histAt t i = histAt s (i - 1)) ∧ ∀ i, j < i → histAt t i = histAt s i) ∧
    ((∀ j, j < s.histLen.toNat → histAt s j ≠ d) → t.histLen.toNat = min (s.histLen.toNat + 1) 8 ∧
      ∀ i, 1 ≤ i → i < 8 → histAt t i = if i ≤ s.histLen.toNat then histAt s (i - 1) else 0)

/-- 43_match.md R178: INIT gives a history that is well-formed, and every operation keeps it so; here every step does,
hardware reset among them, after which 10_state.md R46 leaves HIST and HIST_LEN unspecified: that they are well-formed
there is the model's choice (notes/assumptions/6). -/
def Obligations.HistoryStaysWellFormed : Prop :=
  (∀ s t : State, exec .init s = .next t → HistoryOk t) ∧
  ∀ s t : State, HistoryOk s → step s = .next t → HistoryOk t

/-- 43_match.md R177: after `Copy(len, d)` each of the `len` bytes from the old WP equals the byte `d` before it as it
is after the copy; WP has advanced by `len` and nothing else has changed. -/
def Obligations.CopyRepeatsTheWindow : Prop :=
  ∀ (s : State) (len : Nat) (d : Dist), Memory.wf s.dst = true → s.argDstStart ≤ s.wp → s.wp ≤ s.argDstEnd →
    1 ≤ len → FitsWindow len d s →
    let t := copy len d s
    t = { s with dst := t.dst, wp := s.wp + BitVec.ofNat 64 len } ∧ Memory.wf t.dst = true ∧
    (∀ i, i < len →
      dstByte t (s.wp + BitVec.ofNat 64 i) = dstByte t (s.wp + BitVec.ofNat 64 i - d.setWidth 64)) ∧
    DstKeptOutside s.wp len s t

/-- 43_match.md R175: `MatchFinish` checks the distance, then the length, and only then writes. -/
def Obligations.MatchFinishChecksThenWrites : Prop :=
  ∀ (s : State) (next : Vector DecState 12) (len : Nat) (d : Dist), Memory.wf s.dst = true → 1 ≤ len → len ≤ 54 →
    (d = 0 ∨ windowSize s < d.toNat → matchFinish next len d s = .raised .invalidDistance s) ∧
    (d ≠ 0 → d.toNat ≤ windowSize s → roomLeft s < len → matchFinish next len d s = .raised .outputOverrun s) ∧
    (FitsWindow len d s → ∃ t, matchFinish next len d s = .ok () t ∧ MatchDone next len d s t ∧
      t = { s with dst := t.dst, wp := t.wp, hist := t.hist, histLen := t.histLen, dstate := t.dstate })

/-- 44_quantum_loop.md R205: the transition tables, and what it says of them: one literal leaves every match state,
three literals reach 0, a match lands at 7 or above, two in a row in 10 or 11, and the kinds stay apart. -/
def Obligations.TransitionTables : Prop :=
  Config.params.nextLit = #v[0, 0, 0, 0, 1, 2, 3, 4, 5, 6, 4, 5] ∧
  Config.params.nextNew = #v[7, 7, 7, 7, 7, 7, 7, 10, 10, 10, 10, 10] ∧
  Config.params.nextRep = #v[8, 8, 8, 8, 8, 8, 8, 11, 11, 11, 11, 11] ∧
  Config.params.nextShortrep = #v[9, 9, 9, 9, 9, 9, 9, 11, 11, 11, 11, 11] ∧
  (∀ d : DecState,
    let lit := fun d : DecState => Config.params.nextLit[d]
    lit d ≤ d ∧ lit d < 7 ∧ lit (lit (lit d)) = 0) ∧
  ∀ d : DecState,
    let new := Config.params.nextNew[d]
    let rep := Config.params.nextRep[d]
    let short := Config.params.nextShortrep[d]
    7 ≤ new ∧ 7 ≤ rep ∧ 7 ≤ short ∧ new ≠ rep ∧ new ≠ short ∧
    (7 ≤ d → (new = 10 ∨ new = 11) ∧ (rep = 10 ∨ rep = 11) ∧ (short = 10 ∨ short = 11))

/-! ### The stream operations -/

/-- 42_literal.md R160: LIT decodes its byte (matched where the last operation was a match and its distance lies in the
window, plain otherwise) with the LiteralModel of the previous byte, stores it at WP and moves DSTATE; with source
bytes for 8 primitives it completes, and where the byte raises nothing but the reader and cells has changed. -/
def Obligations.LitWritesOneByte : Prop :=
  ∀ s : State, Memory.wf s.dst = true → Cells.wf Config.params s.cells = true →
    let prev : Byte := if s.argDstStart < s.wp then dstByte s (s.wp - 1) else 0
    let c := prev.toNat / 32
    let pred := 7 ≤ s.dstate.val ∧ 1 ≤ s.histLen.toNat ∧ (histAt s 0).toNat ≤ (s.wp - s.argDstStart).toNat
    let m := dstByte s (s.wp - (histAt s 0).setWidth 64)
    let decoded : Res Byte := if pred then litMatched Config.params c m s else litPlain Config.params c s
    (∀ byte u, decoded = .ok byte u → ∃ t, exec .lit s = .next t ∧ ReaderFrame s u ∧
      t = { u with dst := t.dst, wp := s.wp + 1, dstate := Config.params.nextLit[s.dstate] } ∧
      dstByte t s.wp = byte ∧ DstKeptOutside s.wp 1 s t ∧
      CellsKeptOutside Config.params (1919 + 51 * c) 51 s t) ∧
    (∀ f u, decoded = .raised f u → f = .truncated ∧ ReaderFrame s u ∧ exec .lit s = .next (faultEntry .truncated u)) ∧
    (Supply Config.params 8 s → ∃ t, exec .lit s = .next t ∧ OperationFrame s t ∧ t.wp = s.wp + 1 ∧ t.hist = s.hist ∧
      t.histLen = s.histLen ∧ t.dstate = Config.params.nextLit[s.dstate] ∧ DstKeptOutside s.wp 1 s t)

/-- 43_match.md R180: MATCH_FAR is the length, then the far distance, then `MatchFinish` with NEXT_NEW; it completes
where the window holds 1048560 bytes, 54 bytes of room are left, and the source has bytes for 28 primitives. -/
def Obligations.MatchFarCopiesFromAFarDistance : Prop :=
  ∀ s : State, Memory.wf s.dst = true → Cells.wf Config.params s.cells = true →
    (∀ f u, decodeLen Config.params s = .raised f u → exec .matchFar s = .next (faultEntry f u)) ∧
    (∀ len u, decodeLen Config.params s = .ok len u →
      (∀ f v, decodeFar Config.params u = .raised f v → exec .matchFar s = .next (faultEntry f v)) ∧
      ∀ d v, decodeFar Config.params u = .ok d v →
        (windowSize s < d.toNat → exec .matchFar s = .next (faultEntry .invalidDistance v)) ∧
        (d.toNat ≤ windowSize s → roomLeft s < len → exec .matchFar s = .next (faultEntry .outputOverrun v)) ∧
        (FitsWindow len d s → ∃ t, exec .matchFar s = .next t ∧ MatchDone Config.params.nextNew len d s t)) ∧
    (Supply Config.params 28 s → 1048560 ≤ windowSize s → 54 ≤ roomLeft s →
      ∃ len d t, 2 ≤ len ∧ len ≤ 54 ∧ 1 ≤ d.toNat ∧ d.toNat ≤ 1048560 ∧ exec .matchFar s = .next t ∧
        MatchDone Config.params.nextNew len d s t ∧
        ∀ j, ¬(1272 ≤ j ∧ j < 1332) → ¬(1374 ≤ j ∧ j < 1919) → cellAt Config.params t j = cellAt Config.params s j)

/-- 43_match.md R181, R182: MATCH_NEAR0 and MATCH_NEAR1 are the length, then the near distance against HIST[0] or
HIST[1], then `MatchFinish` with NEXT_NEW; they complete where that entry exists, is 33 or more and, plus 32, lies in
the window, 54 bytes of room are left, and the source has bytes for 21 primitives. -/
def Obligations.MatchNearCopiesFromANearDistance : Prop :=
  ∀ (i : Instr) (k : Nat), (i = .matchNear0 ∧ k = 0) ∨ (i = .matchNear1 ∧ k = 1) →
  ∀ s : State, Memory.wf s.dst = true → Cells.wf Config.params s.cells = true →
    (∀ f u, decodeLen Config.params s = .raised f u → exec i s = .next (faultEntry f u)) ∧
    (∀ len u, decodeLen Config.params s = .ok len u →
      (∀ f v, decodeNear Config.params k u = .raised f v → exec i s = .next (faultEntry f v)) ∧
      (s.histLen.toNat ≤ k → exec i s = .next (faultEntry .invalidDistance u)) ∧
      ∀ d v, decodeNear Config.params k u = .ok d v →
        (windowSize s < d.toNat → exec i s = .next (faultEntry .invalidDistance v)) ∧
        (d.toNat ≤ windowSize s → roomLeft s < len → exec i s = .next (faultEntry .outputOverrun v)) ∧
        (FitsWindow len d s → ∃ t, exec i s = .next t ∧ MatchDone Config.params.nextNew len d s t)) ∧
    (Supply Config.params 21 s → k < s.histLen.toNat → 33 ≤ (histAt s k).toNat → (histAt s k).toNat + 32 < 2 ^ 32 →
      (histAt s k).toNat + 32 ≤ windowSize s → 54 ≤ roomLeft s →
      ∃ len d t, 2 ≤ len ∧ len ≤ 54 ∧ IsNear (histAt s k) d ∧ exec i s = .next t ∧
        MatchDone Config.params.nextNew len d s t ∧
        ∀ j, ¬(1272 ≤ j ∧ j < 1332) → ¬(1332 + 21 * k ≤ j ∧ j < 1332 + 21 * k + 21) →
          cellAt Config.params t j = cellAt Config.params s j)

/-- 43_match.md R183: REP is the slot, `InvalidDistance` where it is empty, then the length, then `MatchFinish` with
NEXT_REP at the slot's distance; it completes where all eight slots hold distances in the window, 54 bytes of room
are left, and the source has bytes for 18 primitives. -/
def Obligations.RepReusesASlot : Prop :=
  ∀ s : State, Memory.wf s.dst = true → Cells.wf Config.params s.cells = true →
    let slotBase := 300 + 9 * s.dstate.val
    (∀ f u, decode3 Config.params slotBase s = .raised f u → exec .rep s = .next (faultEntry f u)) ∧
    (∀ slot u, decode3 Config.params slotBase s = .ok slot u →
      (s.histLen.toNat ≤ slot → exec .rep s = .next (faultEntry .invalidDistance u)) ∧
      (slot < s.histLen.toNat →
        (∀ f v, decodeLen Config.params u = .raised f v → exec .rep s = .next (faultEntry f v)) ∧
        ∀ len v, decodeLen Config.params u = .ok len v →
          (histAt s slot = 0 ∨ windowSize s < (histAt s slot).toNat →
            exec .rep s = .next (faultEntry .invalidDistance v)) ∧
          (histAt s slot ≠ 0 → (histAt s slot).toNat ≤ windowSize s → roomLeft s < len →
            exec .rep s = .next (faultEntry .outputOverrun v)) ∧
          (FitsWindow len (histAt s slot) s →
            ∃ t, exec .rep s = .next t ∧ MatchDone Config.params.nextRep len (histAt s slot) s t))) ∧
    (Supply Config.params 18 s → s.histLen = 8 → (∀ i, i < 8 → histAt s i ≠ 0 ∧ (histAt s i).toNat ≤ windowSize s) →
      54 ≤ roomLeft s →
      ∃ slot len t, slot < 8 ∧ 2 ≤ len ∧ len ≤ 54 ∧ exec .rep s = .next t ∧
        MatchDone Config.params.nextRep len (histAt s slot) s t ∧
        ∀ j, ¬(slotBase ≤ j ∧ j < slotBase + 9) → ¬(1272 ≤ j ∧ j < 1332) →
          cellAt Config.params t j = cellAt Config.params s j)

/-- 43_match.md R184: SHORTREP is the slot, `InvalidDistance` where it is empty, then a length of 1 to 8 from the model
of DSTATE and the slot, then `MatchFinish` with NEXT_SHORTREP; it completes where all eight slots hold distances in
the window, 8 bytes of room are left, and the source has bytes for 6 primitives. -/
def Obligations.ShortRepCopiesOneToEight : Prop :=
  ∀ s : State, Memory.wf s.dst = true → Cells.wf Config.params s.cells = true →
    let slotBase := 300 + 9 * s.dstate.val
    let lenBase := fun slot => 408 + 9 * (8 * s.dstate.val + slot)
    (∀ f u, decode3 Config.params slotBase s = .raised f u → exec .shortrep s = .next (faultEntry f u)) ∧
    (∀ slot u, decode3 Config.params slotBase s = .ok slot u →
      (s.histLen.toNat ≤ slot → exec .shortrep s = .next (faultEntry .invalidDistance u)) ∧
      (slot < s.histLen.toNat →
        (∀ f v, decode3 Config.params (lenBase slot) u = .raised f v → exec .shortrep s = .next (faultEntry f v)) ∧
        ∀ slen v, decode3 Config.params (lenBase slot) u = .ok slen v →
          (histAt s slot = 0 ∨ windowSize s < (histAt s slot).toNat →
            exec .shortrep s = .next (faultEntry .invalidDistance v)) ∧
          (histAt s slot ≠ 0 → (histAt s slot).toNat ≤ windowSize s → roomLeft s < 1 + slen →
            exec .shortrep s = .next (faultEntry .outputOverrun v)) ∧
          (FitsWindow (1 + slen) (histAt s slot) s →
            ∃ t, exec .shortrep s = .next t ∧
              MatchDone Config.params.nextShortrep (1 + slen) (histAt s slot) s t))) ∧
    (Supply Config.params 6 s → s.histLen = 8 → (∀ i, i < 8 → histAt s i ≠ 0 ∧ (histAt s i).toNat ≤ windowSize s) →
      8 ≤ roomLeft s →
      ∃ slot len t, slot < 8 ∧ 1 ≤ len ∧ len ≤ 8 ∧ exec .shortrep s = .next t ∧
        MatchDone Config.params.nextShortrep len (histAt s slot) s t ∧
        ∀ j, ¬(slotBase ≤ j ∧ j < slotBase + 9) → ¬(lenBase slot ≤ j ∧ j < lenBase slot + 9) →
          cellAt Config.params t j = cellAt Config.params s j)

/-- 43_match.md R170, R179: a match operation always gives a next state: the whole match at a distance inside the
window and a length that fits, or a fault entry that leaves DST, WP, HIST, HIST_LEN and DSTATE as they were. -/
def Obligations.MatchIsWholeOrUntouched : Prop :=
  ∀ (i : Instr) (s : State), Memory.wf s.dst = true →
    (i = .matchFar ∨ i = .matchNear0 ∨ i = .matchNear1 ∨ i = .rep ∨ i = .shortrep) →
    ∃ t, exec i s = .next t ∧
      ((∃ next len d, 1 ≤ len ∧ len ≤ 54 ∧ FitsWindow len d s ∧ MatchDone next len d s t) ∨
        ∃ c u, ReaderFrame s u ∧ t = faultEntry c u ∧
          (c = .truncated ∨ c = .invalidDistance ∨ c = .outputOverrun))

/-- 30_encoding.md R101, 60_exceptions.md R234: a reserved type value raises `ModelCorruption`, code 4; beyond what the
selector has already adapted nothing but ERR, RESULT and STATUS changes. -/
def Obligations.ReservedTypesRaiseModelCorruption : Prop :=
  ∀ (s : State) (i : Instr),
    (i = .typeReserved5 ∨ (∃ low, i = .typeReserved6to7 low) ∨ ∃ low, i = .typeReserved8to15 low) →
    exec i s = .next { s with
      err := 4, result := 0xFFFFFFFFFFFFFFFC, phase := .idle, done := false, fault := true, ctxValid := false }

/-- 44_quantum_loop.md R203, 30_encoding.md R93: the selector is the is-literal bit of the cell that DSTATE and the
position pick, and where it is 0 the type nibble of DSTATE; nothing else is consulted. -/
def Obligations.SelectorIsIsLitThenType : Prop :=
  ∀ (P : Params) (s : State), P.AsWritten → Cells.wf P s.cells = true →
    let cell := 8 * s.dstate.val + (s.wp - s.argDstStart).toNat % 8
    (∀ f u, decodeBit P cell s = .raised f u → fetchSelector P s = .raised f u) ∧
    (∀ u, decodeBit P cell s = .ok true u → fetchSelector P s = .ok 0b10000 u) ∧
    (∀ u, decodeBit P cell s = .ok false u →
      (∀ f v, decodeTree P (96 + 17 * s.dstate.val) 4 u = .raised f v → fetchSelector P s = .raised f v) ∧
      ∀ n v, decodeTree P (96 + 17 * s.dstate.val) 4 u = .ok n v →
        n < 16 ∧ fetchSelector P s = .ok (BitVec.ofNat 5 n) v) ∧
    ∀ sel t, fetchSelector P s = .ok sel t → ReaderFrame s t ∧
      ∀ j, j ≠ cell → ¬(96 + 17 * s.dstate.val < j ∧ j < 96 + 17 * s.dstate.val + 16) → cellAt P t j = cellAt P s j

/-- 44_quantum_loop.md R203, 00_scope.md R7: one operation of the decode loop, for every well-formed record: the
is-literal bit, then LIT, or the type nibble and the operation whose code point it is, or `ModelCorruption` where it is
none of the five. -/
def Obligations.TypeCodePointsPickTheOperation : Prop :=
  ∀ (P : Params) (s : State), P.Wf →
    let cell := 8 * s.dstate.val + (s.wp - s.argDstStart).toNat % 2 ^ P.posBits
    (∀ f u, decodeBit P cell s = .raised f u → quantumStep P s = .raised f u) ∧
    (∀ u, decodeBit P cell s = .ok true u → quantumStep P s = literal P u) ∧
    ∀ u, decodeBit P cell s = .ok false u →
      (∀ f v, decodeTree P (96 + 17 * s.dstate.val) 4 u = .raised f v → quantumStep P s = .raised f v) ∧
      ∀ n v, decodeTree P (96 + 17 * s.dstate.val) 4 u = .ok n v →
        (n = P.tFar.toNat → quantumStep P s = matchFar P v) ∧
        (n = P.tNear0.toNat → quantumStep P s = matchNear P 0 v) ∧
        (n = P.tNear1.toNat → quantumStep P s = matchNear P 1 v) ∧
        (n = P.tRep.toNat → quantumStep P s = repMatch P v) ∧
        (n = P.tShortrep.toNat → quantumStep P s = shortRepMatch P v) ∧
        ((∀ code ∈ P.codePoints, n ≠ code.toNat) → quantumStep P s = .raised .modelCorruption v)

/-! ### Commands and faults -/

/-- 41_models.md R147: what INIT leaves, in whatever state it is accepted; it touches neither SRC nor DST. -/
def Obligations.InitResetsTheContext : Prop :=
  ∀ s : State, ∃ t, exec .init s = .next t ∧
    (∀ q : CellPath, cellAt Config.params t (cellIndex q) = pathInit Config.params q) ∧
    (∀ j, j < 2327 → cellAt Config.params t j = 0x4000) ∧ (∀ i, histAt t i = 0) ∧
    t = { s with
      cells := [], hist := t.hist, histLen := 0, dstate := 0, cur := 0, lim := 0, err := 0, result := 0
      fault := false, ctxValid := true, done := true, phase := .idle } ∧
    statusWord t = 0b1010

/-- 44_quantum_loop.md R201, 60_exceptions.md R239: DECODE checks CTX_VALID first, then the order of the destination
arguments, then that of the source arguments, and touches neither SRC, DST nor CTX where a check fails. -/
def Obligations.DecodeChecksItsArguments : Prop :=
  ∀ s : State,
    let refused := fun code : Nat => Host.Outcome.next (ρ := Refusal) (φ := Fault) { s with
      err := BitVec.ofNat 8 code, result := 0 - BitVec.ofNat 64 code, phase := .idle, done := false, fault := true,
      ctxValid := false }
    (s.ctxValid = false → exec .decode s = refused 5) ∧
    (s.ctxValid = true → ¬(s.argDstStart ≤ s.argDst ∧ s.argDst ≤ s.argDstEnd) → exec .decode s = refused 6) ∧
    (s.ctxValid = true → s.argDstStart ≤ s.argDst → s.argDst ≤ s.argDstEnd → ¬s.argSrc ≤ s.argSrcEnd →
      exec .decode s = refused 6)

/-- 44_quantum_loop.md R200 with 40_bitreader.md R121: a DECODE that passes its checks, has bytes to fill and at least
16 source bytes sets WP, loads the header and is BUSY; with fewer source bytes it raises `Truncated`. -/
def Obligations.DecodeStartsTheReader : Prop :=
  ∀ s : State, s.ctxValid = true → s.argDstStart ≤ s.argDst → s.argDst < s.argDstEnd → s.argSrc ≤ s.argSrcEnd →
    (16 ≤ (s.argSrcEnd - s.argSrc).toNat → ∃ t, exec .decode s = .next t ∧
      t = { s with
        phase := .busy, done := false, wp := s.argDst, cur := s.argSrc + 16, lim := s.argSrcEnd
        accA := t.accA, accB := t.accB } ∧
      t.accA.toNat = srcWord Config.params s s.argSrc 8 ∧ t.accB.toNat = srcWord Config.params s (s.argSrc + 8) 8) ∧
    ((s.argSrcEnd - s.argSrc).toNat < 16 → exec .decode s = .next { s with
      wp := s.argDst, cur := s.argSrc, lim := s.argSrcEnd, err := 1, result := 0xFFFFFFFFFFFFFFFF
      phase := .idle, done := false, fault := true, ctxValid := false })

/-- 44_quantum_loop.md R202: a zero-length quantum completes at once with RESULT 0, however short the source; no SRC
byte, no DST byte and nothing of CTX is touched, and BYTES_REMAINING reads ARG_SRC_END - ARG_SRC. -/
def Obligations.ZeroLengthQuantumCompletes : Prop :=
  ∀ s : State, s.ctxValid = true → s.argDstStart ≤ s.argDst → s.argDst = s.argDstEnd → s.argSrc ≤ s.argSrcEnd →
    ∃ t, exec .decode s = .next t ∧
      t = { s with
        wp := s.argDst, cur := s.argSrc, lim := s.argSrcEnd, err := 0, result := 0, phase := .idle, done := true } ∧
      regValue t .bytesRemaining = s.argSrcEnd - s.argSrc

/-- 60_exceptions.md R235 (a): a reserved command code raises `BadArguments`, code 6, and accesses neither SRC, DST nor
CTX. -/
def Obligations.ReservedCommandRaisesBadArguments : Prop :=
  ∀ (s : State) (code : BitVec 32), exec (.cmdReserved code) s = .next { s with
    err := 6, result := 0xFFFFFFFFFFFFFFFA, phase := .idle, done := false, fault := true, ctxValid := false }

/-- 60_exceptions.md R236, with the codes of R230: fault entry writes ERR, RESULT and STATUS, and nothing else. -/
def Obligations.FaultEntryWritesTheOutcome : Prop :=
  ∀ s : State,
    let entered := fun code : Nat => { s with
      err := BitVec.ofNat 8 code, result := BitVec.ofNat 64 (2 ^ 64 - code), fault := true, ctxValid := false
      done := false, phase := .idle }
    faultEntry .truncated s = entered 1 ∧ faultEntry .invalidDistance s = entered 2 ∧
    faultEntry .outputOverrun s = entered 3 ∧ faultEntry .modelCorruption s = entered 4 ∧
    faultEntry .notInitialised s = entered 5 ∧ faultEntry .badArguments s = entered 6 ∧
    ∀ c, statusWord (faultEntry c s) = 0b0100

/-- 44_quantum_loop.md R200, R206: where WP has reached ARG_DST_END the loop ends: RESULT is CUR - ARG_SRC, 16 plus a
multiple of 4 and no more than the declared source, ERR is 0, DONE is 1 and BUSY 0. -/
def Obligations.LoopEndsWithTheByteCount : Prop :=
  ∀ s : State, LoopTurn s → s.argDstEnd ≤ s.wp →
    ∃ t, step s = .next t ∧
      t = { s with
        err := 0, result := s.cur - s.argSrc, phase := .idle, done := true, script := tickEvents s.script } ∧
      (CursorsOk s → (∃ k, t.result.toNat = 16 + 4 * k) ∧ t.result ≤ s.argSrcEnd - s.argSrc)

/-- 60_exceptions.md R237: CTX_VALID becomes 1 by an INIT command only, and FAULT becomes 0 by INIT or hardware reset
only. -/
def Obligations.OnlyInitRecovers : Prop :=
  ∀ s t : State, step s = .next t →
    (s.ctxValid = false → t.ctxValid = true →
      s.phase = .idle ∧ ∃ e rest v, s.script = e :: rest ∧ e.action = .regWrite 0x00 .b64 v ∧ decode (.command v) = .init) ∧
    (s.fault = true → t.fault = false → ∃ e rest, s.script = e :: rest ∧
      (e.action = .hwReset ∨ ∃ v, e.action = .regWrite 0x00 .b64 v ∧ decode (.command v) = .init))

/-! ### The host's side -/

/-- 10_state.md R28 to R35, 45_laws.md R223: what each register reads as, that CMD and everything that is no register
read 0, that a read changes nothing but the data it returns, and that a step serves the host's read so. That a view
read while BUSY is 1 gives a free value of the view's width, and the counter of free values, are the model's own
(notes/assumptions/9). -/
def Obligations.RegisterReads : Prop :=
  ∀ s : State,
    readReg 0x00 .b64 s = s.setReadData 0 ∧ readReg 0x08 .b64 s = s.setReadData (statusWord s) ∧
    readReg 0x10 .b64 s = s.setReadData (s.err.setWidth 64) ∧ readReg 0x18 .b64 s = s.setReadData s.result ∧
    readReg 0x20 .b64 s = s.setReadData s.argDst ∧ readReg 0x28 .b64 s = s.setReadData s.argDstEnd ∧
    readReg 0x30 .b64 s = s.setReadData s.argDstStart ∧ readReg 0x38 .b64 s = s.setReadData s.argSrc ∧
    readReg 0x40 .b64 s = s.setReadData s.argSrcEnd ∧ readReg 0x48 .b64 s = s.setReadData (s.lim - s.cur) ∧
    (s.phase = .idle →
      readReg 0x50 .b64 s = s.setReadData s.wp ∧
      readReg 0x58 .b64 s = s.setReadData (BitVec.ofNat 64 s.dstate.val) ∧
      (∀ i, i < 8 → readReg (BitVec.ofNat 64 (0x60 + 8 * i)) .b64 s = s.setReadData ((histAt s i).setWidth 64)) ∧
      readReg 0xA0 .b64 s = s.setReadData (s.histLen.setWidth 64) ∧
      ∀ j, j < 2327 → readReg (BitVec.ofNat 64 (0x2000 + 2 * j)) .b16 s =
        s.setReadData ((cellAt Config.params s j).setWidth 64)) ∧
    (s.phase = .busy →
      let free := fun width : Nat => (s.setReadData (lowBits width (Config.busyView s.freeReads))).countFreeRead
      readReg 0x50 .b64 s = (s.setReadData (Config.busyView s.freeReads)).countFreeRead ∧
      readReg 0x58 .b64 s = free 4 ∧ (∀ i, i < 8 → readReg (BitVec.ofNat 64 (0x60 + 8 * i)) .b64 s = free 32) ∧
      readReg 0xA0 .b64 s = free 4 ∧ ∀ j, j < 2327 → readReg (BitVec.ofNat 64 (0x2000 + 2 * j)) .b16 s = free 16) ∧
    (∀ offset size, let t := readReg offset size s
      t = { s with readData := t.readData, freeReads := t.freeReads } ∧
      hostMove (.regRead offset size) s = .settled (.next t)) ∧
    (∀ offset size s', dueEvent s = some (.regRead offset size, s') → step s = .next (readReg offset size s')) ∧
    (∀ offset, readReg offset .b8 s = s.setReadData 0 ∧ readReg offset .b32 s = s.setReadData 0) ∧
    (∀ offset : BitVec 64, offset.toNat % 8 ≠ 0 ∨ 0xA0 < offset.toNat → readReg offset .b64 s = s.setReadData 0) ∧
    (∀ offset : BitVec 64, offset.toNat % 2 ≠ 0 ∨ offset.toNat < 0x2000 ∨ 0x322E ≤ offset.toNat →
      readReg offset .b16 s = s.setReadData 0) ∧
    (statusWord s).toNat = s.busy.toNat + 2 * s.done.toNat + 4 * s.fault.toNat + 8 * s.ctxValid.toNat

/-- 10_state.md R28, R29, R33: while BUSY is 0 a 64-bit write to an ARG register stores the value; a write to any other
place but CMD, and every write while BUSY is 1, CMD's included, is dropped; a step serves the host's write so. -/
def Obligations.RegisterWrites : Prop :=
  ∀ (s : State) (v : BitVec 64),
    (s.phase = .idle →
      writeReg 0x20 .b64 v s = { s with argDst := v } ∧ writeReg 0x28 .b64 v s = { s with argDstEnd := v } ∧
      writeReg 0x30 .b64 v s = { s with argDstStart := v } ∧ writeReg 0x38 .b64 v s = { s with argSrc := v } ∧
      writeReg 0x40 .b64 v s = { s with argSrcEnd := v } ∧
      (∀ offset, hostMove (.regWrite offset .b64 v) s = .instr (decode (.command v)) s ↔ offset = 0x00) ∧
      (∀ offset, offset ≠ 0x00 →
        hostMove (.regWrite offset .b64 v) s = .settled (.next (writeReg offset .b64 v s))) ∧
      (∀ offset : BitVec 64, offset.toNat < 0x20 ∨ 0x40 < offset.toNat ∨ offset.toNat % 8 ≠ 0 →
        writeReg offset .b64 v s = s) ∧
      ∀ offset size, size ≠ .b64 → hostMove (.regWrite offset size v) s = .settled (.next s)) ∧
    (s.phase = .busy → ∀ offset size, hostMove (.regWrite offset size v) s = .settled (.next s)) ∧
    ∀ offset s', dueEvent s = some (.regWrite offset .b64 v, s') → offset ≠ 0x00 ∨ s.phase = .busy →
      step s = .next (writeReg offset .b64 v s')

/-- 20_memory.md R66, 00_scope.md R16: between commands the host's write of a byte is what is read there afterwards,
no other byte and no register changes, and a read returns the last value written. That the host can read a byte of SRC
is the model's choice (notes/assumptions/26). -/
def Obligations.HostMemoryAccess : Prop :=
  ∀ (s : State) (e : HostEvent) (rest : List HostEvent) (a : Addr) (v : Byte), s.phase = .idle →
    s.script = e :: rest → Memory.wf s.src = true → Memory.wf s.dst = true →
    (e.action = .srcWrite a v → ∃ t, step s = .next t ∧ t = { s with script := rest, src := t.src } ∧
      Memory.wf t.src = true ∧ ∀ b, Memory.read t.src b = if b = a then v else Memory.read s.src b) ∧
    (e.action = .srcRead a →
      step s = .next { s with script := rest, readData := (srcByte s a).setWidth 64 }) ∧
    (e.action = .dstWrite a v → ∃ t, step s = .next t ∧ t = { s with script := rest, dst := t.dst } ∧
      Memory.wf t.dst = true ∧ ∀ b, dstByte t b = if b = a then v else dstByte s b) ∧
    (e.action = .dstRead a →
      step s = .next { s with script := rest, readData := (dstByte s a).setWidth 64 })

/-- 70_reset_and_hazards.md R260: hardware reset, at any time, gives PHASE IDLE, STATUS, ERR, RESULT and the ARG registers
0 and CUR, LIM and WP 0, without fault entry; DST then holds a prefix of the command's writes: of the operation in
progress its first `n` bytes, in ascending order, for some `n`, and below WP what stood there. That bytes below WP
survive is the model's reading of R260 (notes/assumptions/14: 93_implementation_defined.md U6 says any value), as is
the free number `n`; the other registers are unspecified after a reset, and the values they take are the model's own
(notes/assumptions/4 to 7). -/
def Obligations.HardwareResetAtAnyTime : Prop :=
  ∀ (s s' : State), Inv s → dueEvent s = some (.hwReset, s') →
    let op := (quantumStep Config.params s').state
    ∃ t, step s = .next t ∧ statusWord t = 0 ∧ t.phase = .idle ∧ t.err = 0 ∧ t.result = 0 ∧ t.argDst = 0 ∧
      t.argDstEnd = 0 ∧ t.argDstStart = 0 ∧ t.argSrc = 0 ∧ t.argSrcEnd = 0 ∧ t.cur = 0 ∧ t.lim = 0 ∧ t.wp = 0 ∧
      t.src = s.src ∧ (s.phase = .idle → t.dst = s.dst) ∧
      (∃ n, (n = 0 ∨ s.phase = .busy ∧ s.wp < s.argDstEnd ∧ n ≤ (op.wp - s.wp).toNat) ∧
        ∀ a, dstByte t a = if (a - s.wp).toNat < n then dstByte op a else dstByte s a) ∧
      ∀ a, dstByte t a ≠ dstByte s a → s.wp ≤ a ∧ a < s.argDstEnd

/-- 70_reset_and_hazards.md R272 HD3 and HD4 with 93_implementation_defined.md U2: a step gives a next state, except that
the machine stops where the host touches the buffers of a command in progress (notes/assumptions/10, and 26 for a read
of SRC). -/
def Obligations.StopsOnlyOnHostRaces : Prop :=
  ∀ s : State, (∃ t, step s = .next t) ∨
    (s.phase = .busy ∧ ∃ a rest, s.script = ⟨.afterMoves 0, a⟩ :: rest ∧
      ((∃ addr, ((∃ v, a = .srcWrite addr v) ∨ a = .srcRead addr) ∧ s.argSrc ≤ addr ∧ addr < s.argSrcEnd ∧ step s = .fault .raceOnSource) ∨
        ∃ addr, ((∃ v, a = .dstWrite addr v) ∨ a = .dstRead addr) ∧ s.argDstStart ≤ addr ∧ addr < s.argDstEnd ∧
          step s = .fault .raceOnWindow))

/-! ### The machine -/

/-- A step runs the decoded instruction: on an IDLE block the host's next write to CMD, as 30_encoding.md R92 decodes
it; in a DECODE the operation whose selector the reader yields, or fault entry where decoding the selector raises. -/
def Obligations.StepRunsDecodedInstruction : Prop :=
  (∀ (s : State) (e : HostEvent) (rest : List HostEvent) (v : BitVec 64), s.phase = .idle → s.script = e :: rest →
    e.action = .regWrite 0x00 .b64 v → step s = exec (decode (.command v)) (s.setScript rest)) ∧
  ∀ s : State, LoopTurn s → s.wp < s.argDstEnd →
    (∀ sel t, fetchSelector Config.params (s.setScript (tickEvents s.script)) = .ok sel t →
      step s = exec (decode (.selector sel)) t) ∧
    ∀ c t, fetchSelector Config.params (s.setScript (tickEvents s.script)) = .raised c t →
      step s = .next (faultEntry c t)

/-- 10_state.md R46, 70_reset_and_hazards.md R260: the values that the spec gives for the state after hardware reset. -/
def Obligations.ResetValues : Prop :=
  let s := State.reset
  s.phase = .idle ∧ statusWord s = 0 ∧ s.err = 0 ∧ s.result = 0 ∧ s.argDst = 0 ∧ s.argDstEnd = 0 ∧
  s.argDstStart = 0 ∧ s.argSrc = 0 ∧ s.argSrcEnd = 0 ∧ s.cur = 0 ∧ s.lim = 0 ∧ s.wp = 0 ∧
  regValue s .bytesRemaining = 0

/-- The invariant holds at reset. Its clauses on the context rest on the model's reset values (notes/assumptions/4 to
8). -/
def Obligations.ResetMeetsTheInvariant : Prop := Inv State.reset

/-- 10_state.md R48 and its parts (R22, R23, R26, R30 to R32, R37): every step from a state that meets the invariant
leads to one that does, whatever the host does. At a hardware reset R46 leaves the context unspecified: there the
clauses on DSTATE, the history and the cells rest on the model's reset values (notes/assumptions/5, 6 and 7). -/
def Obligations.StepKeepsTheInvariant : Prop :=
  ∀ s t : State, Inv s → step s = .next t → Inv t

/-- 30_encoding.md R101 (c), 93_implementation_defined.md U10: a cell on no decode path keeps its initializer value for
ever. At a hardware reset, which leaves the cells unspecified (10_state.md R46), it has that value by the model's choice
(notes/assumptions/7). -/
def Obligations.UnusedCellsKeepTheirValue : Prop :=
  ∀ s t : State, Cells.wf Config.params s.cells = true → step s = .next t → ∀ j, ¬Consulted j →
    cellAt Config.params s j = initCell Config.params j → cellAt Config.params t j = initCell Config.params j

/-- 20_memory.md R75, R61, 44_quantum_loop.md R204, R207: a step that is no memory access of the host's never changes SRC, and changes no
DST byte but those it moves WP past, which lie in [ARG_DST, ARG_DST_END) of the command in progress; CUR stays in
[ARG_SRC, LIM]; an operation advances WP by at most 54. -/
def Obligations.StepStaysInItsRegions : Prop :=
  ∀ s t : State, Inv s → NoHostMemoryAccess s → step s = .next t →
    t.src = s.src ∧
    (∀ a, dstByte t a ≠ dstByte s a →
      s.phase = .busy ∧ s.argDst ≤ a ∧ a < s.argDstEnd ∧ s.wp ≤ a ∧ a < t.wp) ∧
    (s.phase = .busy → s.wp ≤ t.wp ∧ t.wp ≤ s.argDstEnd ∧ (t.wp - s.wp).toNat ≤ 54 ∧
      s.argSrc ≤ t.cur ∧ s.cur ≤ t.cur ∧ t.cur ≤ s.argSrcEnd ∧
      (t.phase = .busy → LoopTurn s → s.wp < t.wp))

/-- 44_quantum_loop.md R204: a DECODE in progress that no host event interrupts is over within as many steps as bytes are
left to write, and one more; it ends with DONE and WP at ARG_DST_END, or with FAULT. -/
def Obligations.DecodeTerminates : Prop :=
  ∀ s : State, Inv s → s.phase = .busy → NoEventInside s →
    ∃ n t, n ≤ roomLeft s + 1 ∧ runFor n s = .next t ∧ t.phase = .idle ∧
      ((t.done = true ∧ t.wp = s.argDstEnd ∧ t.result = t.cur - t.argSrc) ∨
        (t.fault = true ∧ s.wp ≤ t.wp ∧ t.wp ≤ s.argDstEnd))

/-- 44_quantum_loop.md R200, R203, 70_reset_and_hazards.md R275: the steps that follow a write of DECODE to CMD, with no
host event inside the command, make exactly the one transition of R200's pseudocode, and leave the block IDLE. -/
def Obligations.DecodeRunsAsOneQuantum : Prop :=
  ∀ (s : State) (e : HostEvent) (rest : List HostEvent) (v : BitVec 64), s.phase = .idle → s.script = e :: rest →
    e.action = .regWrite 0x00 .b64 v → decode (.command v) = .decode → NoEventInside (s.setScript rest) →
    ∃ n t, n ≤ (s.argDstEnd - s.argDst).toNat + 2 ∧ runFor n s = .next t ∧ t.phase = .idle ∧
      settle (decodeQuantum Config.params (s.setScript rest)) = .next t

/-- 44_quantum_loop.md R209: the state after a DECODE is determined by CTX, the five ARG values, SRC[ARG_SRC,
ARG_SRC_END) and DST[ARG_DST_START, ARG_DST) before it, whatever every other register and byte holds. -/
def Obligations.DecodeIsAFunctionOfItsInputs : Prop :=
  ∀ s t : State, Inv s → Inv t → SameInputs s t →
    match decodeQuantum Config.params s, decodeQuantum Config.params t with
    | .ok _ s', .ok _ t' => SameResult s' t' ∧ SameProgress s' t'
    | .raised c s', .raised d t' => c = d ∧ SameResult (faultEntry c s') (faultEntry d t') ∧
      (c = .notInitialised ∨ c = .badArguments ∨ SameProgress s' t')
    | .ok _ _, .raised _ _ | .raised _ _, .ok _ _ => False

end
end

