-- ==== Sys2Proof/Laws/State.lean ====
section
/-! SUPPORT. One lemma per field per named update of State. -/

namespace Sys2Proof.Machine.State

@[simp] theorem setAcc_accA (s : State) (a b : Acc) : (s.setAcc a b).accA = a := rfl
@[simp] theorem setAcc_accB (s : State) (a b : Acc) : (s.setAcc a b).accB = b := rfl
@[simp] theorem setAcc_cur (s : State) (a b : Acc) : (s.setAcc a b).cur = s.cur := rfl
@[simp] theorem setAcc_lim (s : State) (a b : Acc) : (s.setAcc a b).lim = s.lim := rfl
@[simp] theorem setAcc_wp (s : State) (a b : Acc) : (s.setAcc a b).wp = s.wp := rfl
@[simp] theorem setAcc_dstate (s : State) (a b : Acc) : (s.setAcc a b).dstate = s.dstate := rfl
@[simp] theorem setAcc_hist (s : State) (a b : Acc) : (s.setAcc a b).hist = s.hist := rfl
@[simp] theorem setAcc_histLen (s : State) (a b : Acc) : (s.setAcc a b).histLen = s.histLen := rfl
@[simp] theorem setAcc_cells (s : State) (a b : Acc) : (s.setAcc a b).cells = s.cells := rfl
@[simp] theorem setAcc_phase (s : State) (a b : Acc) : (s.setAcc a b).phase = s.phase := rfl
@[simp] theorem setAcc_done (s : State) (a b : Acc) : (s.setAcc a b).done = s.done := rfl
@[simp] theorem setAcc_fault (s : State) (a b : Acc) : (s.setAcc a b).fault = s.fault := rfl
@[simp] theorem setAcc_ctxValid (s : State) (a b : Acc) : (s.setAcc a b).ctxValid = s.ctxValid := rfl
@[simp] theorem setAcc_err (s : State) (a b : Acc) : (s.setAcc a b).err = s.err := rfl
@[simp] theorem setAcc_result (s : State) (a b : Acc) : (s.setAcc a b).result = s.result := rfl
@[simp] theorem setAcc_argDst (s : State) (a b : Acc) : (s.setAcc a b).argDst = s.argDst := rfl
@[simp] theorem setAcc_argDstEnd (s : State) (a b : Acc) : (s.setAcc a b).argDstEnd = s.argDstEnd := rfl
@[simp] theorem setAcc_argDstStart (s : State) (a b : Acc) : (s.setAcc a b).argDstStart = s.argDstStart := rfl
@[simp] theorem setAcc_argSrc (s : State) (a b : Acc) : (s.setAcc a b).argSrc = s.argSrc := rfl
@[simp] theorem setAcc_argSrcEnd (s : State) (a b : Acc) : (s.setAcc a b).argSrcEnd = s.argSrcEnd := rfl
@[simp] theorem setAcc_src (s : State) (a b : Acc) : (s.setAcc a b).src = s.src := rfl
@[simp] theorem setAcc_dst (s : State) (a b : Acc) : (s.setAcc a b).dst = s.dst := rfl
@[simp] theorem setAcc_script (s : State) (a b : Acc) : (s.setAcc a b).script = s.script := rfl
@[simp] theorem setAcc_readData (s : State) (a b : Acc) : (s.setAcc a b).readData = s.readData := rfl
@[simp] theorem setAcc_freeReads (s : State) (a b : Acc) : (s.setAcc a b).freeReads = s.freeReads := rfl

@[simp] theorem setCur_accA (s : State) (c : Addr) : (s.setCur c).accA = s.accA := rfl
@[simp] theorem setCur_accB (s : State) (c : Addr) : (s.setCur c).accB = s.accB := rfl
@[simp] theorem setCur_cur (s : State) (c : Addr) : (s.setCur c).cur = c := rfl
@[simp] theorem setCur_lim (s : State) (c : Addr) : (s.setCur c).lim = s.lim := rfl
@[simp] theorem setCur_wp (s : State) (c : Addr) : (s.setCur c).wp = s.wp := rfl
@[simp] theorem setCur_dstate (s : State) (c : Addr) : (s.setCur c).dstate = s.dstate := rfl
@[simp] theorem setCur_hist (s : State) (c : Addr) : (s.setCur c).hist = s.hist := rfl
@[simp] theorem setCur_histLen (s : State) (c : Addr) : (s.setCur c).histLen = s.histLen := rfl
@[simp] theorem setCur_cells (s : State) (c : Addr) : (s.setCur c).cells = s.cells := rfl
@[simp] theorem setCur_phase (s : State) (c : Addr) : (s.setCur c).phase = s.phase := rfl
@[simp] theorem setCur_done (s : State) (c : Addr) : (s.setCur c).done = s.done := rfl
@[simp] theorem setCur_fault (s : State) (c : Addr) : (s.setCur c).fault = s.fault := rfl
@[simp] theorem setCur_ctxValid (s : State) (c : Addr) : (s.setCur c).ctxValid = s.ctxValid := rfl
@[simp] theorem setCur_err (s : State) (c : Addr) : (s.setCur c).err = s.err := rfl
@[simp] theorem setCur_result (s : State) (c : Addr) : (s.setCur c).result = s.result := rfl
@[simp] theorem setCur_argDst (s : State) (c : Addr) : (s.setCur c).argDst = s.argDst := rfl
@[simp] theorem setCur_argDstEnd (s : State) (c : Addr) : (s.setCur c).argDstEnd = s.argDstEnd := rfl
@[simp] theorem setCur_argDstStart (s : State) (c : Addr) : (s.setCur c).argDstStart = s.argDstStart := rfl
@[simp] theorem setCur_argSrc (s : State) (c : Addr) : (s.setCur c).argSrc = s.argSrc := rfl
@[simp] theorem setCur_argSrcEnd (s : State) (c : Addr) : (s.setCur c).argSrcEnd = s.argSrcEnd := rfl
@[simp] theorem setCur_src (s : State) (c : Addr) : (s.setCur c).src = s.src := rfl
@[simp] theorem setCur_dst (s : State) (c : Addr) : (s.setCur c).dst = s.dst := rfl
@[simp] theorem setCur_script (s : State) (c : Addr) : (s.setCur c).script = s.script := rfl
@[simp] theorem setCur_readData (s : State) (c : Addr) : (s.setCur c).readData = s.readData := rfl
@[simp] theorem setCur_freeReads (s : State) (c : Addr) : (s.setCur c).freeReads = s.freeReads := rfl

@[simp] theorem setReader_accA (s : State) (c l : Addr) : (s.setReader c l).accA = s.accA := rfl
@[simp] theorem setReader_accB (s : State) (c l : Addr) : (s.setReader c l).accB = s.accB := rfl
@[simp] theorem setReader_cur (s : State) (c l : Addr) : (s.setReader c l).cur = c := rfl
@[simp] theorem setReader_lim (s : State) (c l : Addr) : (s.setReader c l).lim = l := rfl
@[simp] theorem setReader_wp (s : State) (c l : Addr) : (s.setReader c l).wp = s.wp := rfl
@[simp] theorem setReader_dstate (s : State) (c l : Addr) : (s.setReader c l).dstate = s.dstate := rfl
@[simp] theorem setReader_hist (s : State) (c l : Addr) : (s.setReader c l).hist = s.hist := rfl
@[simp] theorem setReader_histLen (s : State) (c l : Addr) : (s.setReader c l).histLen = s.histLen := rfl
@[simp] theorem setReader_cells (s : State) (c l : Addr) : (s.setReader c l).cells = s.cells := rfl
@[simp] theorem setReader_phase (s : State) (c l : Addr) : (s.setReader c l).phase = s.phase := rfl
@[simp] theorem setReader_done (s : State) (c l : Addr) : (s.setReader c l).done = s.done := rfl
@[simp] theorem setReader_fault (s : State) (c l : Addr) : (s.setReader c l).fault = s.fault := rfl
@[simp] theorem setReader_ctxValid (s : State) (c l : Addr) : (s.setReader c l).ctxValid = s.ctxValid := rfl
@[simp] theorem setReader_err (s : State) (c l : Addr) : (s.setReader c l).err = s.err := rfl
@[simp] theorem setReader_result (s : State) (c l : Addr) : (s.setReader c l).result = s.result := rfl
@[simp] theorem setReader_argDst (s : State) (c l : Addr) : (s.setReader c l).argDst = s.argDst := rfl
@[simp] theorem setReader_argDstEnd (s : State) (c l : Addr) : (s.setReader c l).argDstEnd = s.argDstEnd := rfl
@[simp] theorem setReader_argDstStart (s : State) (c l : Addr) : (s.setReader c l).argDstStart = s.argDstStart := rfl
@[simp] theorem setReader_argSrc (s : State) (c l : Addr) : (s.setReader c l).argSrc = s.argSrc := rfl
@[simp] theorem setReader_argSrcEnd (s : State) (c l : Addr) : (s.setReader c l).argSrcEnd = s.argSrcEnd := rfl
@[simp] theorem setReader_src (s : State) (c l : Addr) : (s.setReader c l).src = s.src := rfl
@[simp] theorem setReader_dst (s : State) (c l : Addr) : (s.setReader c l).dst = s.dst := rfl
@[simp] theorem setReader_script (s : State) (c l : Addr) : (s.setReader c l).script = s.script := rfl
@[simp] theorem setReader_readData (s : State) (c l : Addr) : (s.setReader c l).readData = s.readData := rfl
@[simp] theorem setReader_freeReads (s : State) (c l : Addr) : (s.setReader c l).freeReads = s.freeReads := rfl

@[simp] theorem setWp_accA (s : State) (w : Addr) : (s.setWp w).accA = s.accA := rfl
@[simp] theorem setWp_accB (s : State) (w : Addr) : (s.setWp w).accB = s.accB := rfl
@[simp] theorem setWp_cur (s : State) (w : Addr) : (s.setWp w).cur = s.cur := rfl
@[simp] theorem setWp_lim (s : State) (w : Addr) : (s.setWp w).lim = s.lim := rfl
@[simp] theorem setWp_wp (s : State) (w : Addr) : (s.setWp w).wp = w := rfl
@[simp] theorem setWp_dstate (s : State) (w : Addr) : (s.setWp w).dstate = s.dstate := rfl
@[simp] theorem setWp_hist (s : State) (w : Addr) : (s.setWp w).hist = s.hist := rfl
@[simp] theorem setWp_histLen (s : State) (w : Addr) : (s.setWp w).histLen = s.histLen := rfl
@[simp] theorem setWp_cells (s : State) (w : Addr) : (s.setWp w).cells = s.cells := rfl
@[simp] theorem setWp_phase (s : State) (w : Addr) : (s.setWp w).phase = s.phase := rfl
@[simp] theorem setWp_done (s : State) (w : Addr) : (s.setWp w).done = s.done := rfl
@[simp] theorem setWp_fault (s : State) (w : Addr) : (s.setWp w).fault = s.fault := rfl
@[simp] theorem setWp_ctxValid (s : State) (w : Addr) : (s.setWp w).ctxValid = s.ctxValid := rfl
@[simp] theorem setWp_err (s : State) (w : Addr) : (s.setWp w).err = s.err := rfl
@[simp] theorem setWp_result (s : State) (w : Addr) : (s.setWp w).result = s.result := rfl
@[simp] theorem setWp_argDst (s : State) (w : Addr) : (s.setWp w).argDst = s.argDst := rfl
@[simp] theorem setWp_argDstEnd (s : State) (w : Addr) : (s.setWp w).argDstEnd = s.argDstEnd := rfl
@[simp] theorem setWp_argDstStart (s : State) (w : Addr) : (s.setWp w).argDstStart = s.argDstStart := rfl
@[simp] theorem setWp_argSrc (s : State) (w : Addr) : (s.setWp w).argSrc = s.argSrc := rfl
@[simp] theorem setWp_argSrcEnd (s : State) (w : Addr) : (s.setWp w).argSrcEnd = s.argSrcEnd := rfl
@[simp] theorem setWp_src (s : State) (w : Addr) : (s.setWp w).src = s.src := rfl
@[simp] theorem setWp_dst (s : State) (w : Addr) : (s.setWp w).dst = s.dst := rfl
@[simp] theorem setWp_script (s : State) (w : Addr) : (s.setWp w).script = s.script := rfl
@[simp] theorem setWp_readData (s : State) (w : Addr) : (s.setWp w).readData = s.readData := rfl
@[simp] theorem setWp_freeReads (s : State) (w : Addr) : (s.setWp w).freeReads = s.freeReads := rfl

@[simp] theorem setDstate_accA (s : State) (d : DecState) : (s.setDstate d).accA = s.accA := rfl
@[simp] theorem setDstate_accB (s : State) (d : DecState) : (s.setDstate d).accB = s.accB := rfl
@[simp] theorem setDstate_cur (s : State) (d : DecState) : (s.setDstate d).cur = s.cur := rfl
@[simp] theorem setDstate_lim (s : State) (d : DecState) : (s.setDstate d).lim = s.lim := rfl
@[simp] theorem setDstate_wp (s : State) (d : DecState) : (s.setDstate d).wp = s.wp := rfl
@[simp] theorem setDstate_dstate (s : State) (d : DecState) : (s.setDstate d).dstate = d := rfl
@[simp] theorem setDstate_hist (s : State) (d : DecState) : (s.setDstate d).hist = s.hist := rfl
@[simp] theorem setDstate_histLen (s : State) (d : DecState) : (s.setDstate d).histLen = s.histLen := rfl
@[simp] theorem setDstate_cells (s : State) (d : DecState) : (s.setDstate d).cells = s.cells := rfl
@[simp] theorem setDstate_phase (s : State) (d : DecState) : (s.setDstate d).phase = s.phase := rfl
@[simp] theorem setDstate_done (s : State) (d : DecState) : (s.setDstate d).done = s.done := rfl
@[simp] theorem setDstate_fault (s : State) (d : DecState) : (s.setDstate d).fault = s.fault := rfl
@[simp] theorem setDstate_ctxValid (s : State) (d : DecState) : (s.setDstate d).ctxValid = s.ctxValid := rfl
@[simp] theorem setDstate_err (s : State) (d : DecState) : (s.setDstate d).err = s.err := rfl
@[simp] theorem setDstate_result (s : State) (d : DecState) : (s.setDstate d).result = s.result := rfl
@[simp] theorem setDstate_argDst (s : State) (d : DecState) : (s.setDstate d).argDst = s.argDst := rfl
@[simp] theorem setDstate_argDstEnd (s : State) (d : DecState) : (s.setDstate d).argDstEnd = s.argDstEnd := rfl
@[simp] theorem setDstate_argDstStart (s : State) (d : DecState) : (s.setDstate d).argDstStart = s.argDstStart := rfl
@[simp] theorem setDstate_argSrc (s : State) (d : DecState) : (s.setDstate d).argSrc = s.argSrc := rfl
@[simp] theorem setDstate_argSrcEnd (s : State) (d : DecState) : (s.setDstate d).argSrcEnd = s.argSrcEnd := rfl
@[simp] theorem setDstate_src (s : State) (d : DecState) : (s.setDstate d).src = s.src := rfl
@[simp] theorem setDstate_dst (s : State) (d : DecState) : (s.setDstate d).dst = s.dst := rfl
@[simp] theorem setDstate_script (s : State) (d : DecState) : (s.setDstate d).script = s.script := rfl
@[simp] theorem setDstate_readData (s : State) (d : DecState) : (s.setDstate d).readData = s.readData := rfl
@[simp] theorem setDstate_freeReads (s : State) (d : DecState) : (s.setDstate d).freeReads = s.freeReads := rfl

@[simp] theorem setHist_accA (s : State) (h : Vector Dist 8) (n : BitVec 4) : (s.setHist h n).accA = s.accA := rfl
@[simp] theorem setHist_accB (s : State) (h : Vector Dist 8) (n : BitVec 4) : (s.setHist h n).accB = s.accB := rfl
@[simp] theorem setHist_cur (s : State) (h : Vector Dist 8) (n : BitVec 4) : (s.setHist h n).cur = s.cur := rfl
@[simp] theorem setHist_lim (s : State) (h : Vector Dist 8) (n : BitVec 4) : (s.setHist h n).lim = s.lim := rfl
@[simp] theorem setHist_wp (s : State) (h : Vector Dist 8) (n : BitVec 4) : (s.setHist h n).wp = s.wp := rfl
@[simp] theorem setHist_dstate (s : State) (h : Vector Dist 8) (n : BitVec 4) : (s.setHist h n).dstate = s.dstate := rfl
@[simp] theorem setHist_hist (s : State) (h : Vector Dist 8) (n : BitVec 4) : (s.setHist h n).hist = h := rfl
@[simp] theorem setHist_histLen (s : State) (h : Vector Dist 8) (n : BitVec 4) : (s.setHist h n).histLen = n := rfl
@[simp] theorem setHist_cells (s : State) (h : Vector Dist 8) (n : BitVec 4) : (s.setHist h n).cells = s.cells := rfl
@[simp] theorem setHist_phase (s : State) (h : Vector Dist 8) (n : BitVec 4) : (s.setHist h n).phase = s.phase := rfl
@[simp] theorem setHist_done (s : State) (h : Vector Dist 8) (n : BitVec 4) : (s.setHist h n).done = s.done := rfl
@[simp] theorem setHist_fault (s : State) (h : Vector Dist 8) (n : BitVec 4) : (s.setHist h n).fault = s.fault := rfl
@[simp] theorem setHist_ctxValid (s : State) (h : Vector Dist 8) (n : BitVec 4) : (s.setHist h n).ctxValid = s.ctxValid := rfl
@[simp] theorem setHist_err (s : State) (h : Vector Dist 8) (n : BitVec 4) : (s.setHist h n).err = s.err := rfl
@[simp] theorem setHist_result (s : State) (h : Vector Dist 8) (n : BitVec 4) : (s.setHist h n).result = s.result := rfl
@[simp] theorem setHist_argDst (s : State) (h : Vector Dist 8) (n : BitVec 4) : (s.setHist h n).argDst = s.argDst := rfl
@[simp] theorem setHist_argDstEnd (s : State) (h : Vector Dist 8) (n : BitVec 4) : (s.setHist h n).argDstEnd = s.argDstEnd := rfl
@[simp] theorem setHist_argDstStart (s : State) (h : Vector Dist 8) (n : BitVec 4) : (s.setHist h n).argDstStart = s.argDstStart := rfl
@[simp] theorem setHist_argSrc (s : State) (h : Vector Dist 8) (n : BitVec 4) : (s.setHist h n).argSrc = s.argSrc := rfl
@[simp] theorem setHist_argSrcEnd (s : State) (h : Vector Dist 8) (n : BitVec 4) : (s.setHist h n).argSrcEnd = s.argSrcEnd := rfl
@[simp] theorem setHist_src (s : State) (h : Vector Dist 8) (n : BitVec 4) : (s.setHist h n).src = s.src := rfl
@[simp] theorem setHist_dst (s : State) (h : Vector Dist 8) (n : BitVec 4) : (s.setHist h n).dst = s.dst := rfl
@[simp] theorem setHist_script (s : State) (h : Vector Dist 8) (n : BitVec 4) : (s.setHist h n).script = s.script := rfl
@[simp] theorem setHist_readData (s : State) (h : Vector Dist 8) (n : BitVec 4) : (s.setHist h n).readData = s.readData := rfl
@[simp] theorem setHist_freeReads (s : State) (h : Vector Dist 8) (n : BitVec 4) : (s.setHist h n).freeReads = s.freeReads := rfl

@[simp] theorem setCells_accA (s : State) (c : Cells) : (s.setCells c).accA = s.accA := rfl
@[simp] theorem setCells_accB (s : State) (c : Cells) : (s.setCells c).accB = s.accB := rfl
@[simp] theorem setCells_cur (s : State) (c : Cells) : (s.setCells c).cur = s.cur := rfl
@[simp] theorem setCells_lim (s : State) (c : Cells) : (s.setCells c).lim = s.lim := rfl
@[simp] theorem setCells_wp (s : State) (c : Cells) : (s.setCells c).wp = s.wp := rfl
@[simp] theorem setCells_dstate (s : State) (c : Cells) : (s.setCells c).dstate = s.dstate := rfl
@[simp] theorem setCells_hist (s : State) (c : Cells) : (s.setCells c).hist = s.hist := rfl
@[simp] theorem setCells_histLen (s : State) (c : Cells) : (s.setCells c).histLen = s.histLen := rfl
@[simp] theorem setCells_cells (s : State) (c : Cells) : (s.setCells c).cells = c := rfl
@[simp] theorem setCells_phase (s : State) (c : Cells) : (s.setCells c).phase = s.phase := rfl
@[simp] theorem setCells_done (s : State) (c : Cells) : (s.setCells c).done = s.done := rfl
@[simp] theorem setCells_fault (s : State) (c : Cells) : (s.setCells c).fault = s.fault := rfl
@[simp] theorem setCells_ctxValid (s : State) (c : Cells) : (s.setCells c).ctxValid = s.ctxValid := rfl
@[simp] theorem setCells_err (s : State) (c : Cells) : (s.setCells c).err = s.err := rfl
@[simp] theorem setCells_result (s : State) (c : Cells) : (s.setCells c).result = s.result := rfl
@[simp] theorem setCells_argDst (s : State) (c : Cells) : (s.setCells c).argDst = s.argDst := rfl
@[simp] theorem setCells_argDstEnd (s : State) (c : Cells) : (s.setCells c).argDstEnd = s.argDstEnd := rfl
@[simp] theorem setCells_argDstStart (s : State) (c : Cells) : (s.setCells c).argDstStart = s.argDstStart := rfl
@[simp] theorem setCells_argSrc (s : State) (c : Cells) : (s.setCells c).argSrc = s.argSrc := rfl
@[simp] theorem setCells_argSrcEnd (s : State) (c : Cells) : (s.setCells c).argSrcEnd = s.argSrcEnd := rfl
@[simp] theorem setCells_src (s : State) (c : Cells) : (s.setCells c).src = s.src := rfl
@[simp] theorem setCells_dst (s : State) (c : Cells) : (s.setCells c).dst = s.dst := rfl
@[simp] theorem setCells_script (s : State) (c : Cells) : (s.setCells c).script = s.script := rfl
@[simp] theorem setCells_readData (s : State) (c : Cells) : (s.setCells c).readData = s.readData := rfl
@[simp] theorem setCells_freeReads (s : State) (c : Cells) : (s.setCells c).freeReads = s.freeReads := rfl

@[simp] theorem setStatus_accA (s : State) (p : Phase) (d f v : Bool) : (s.setStatus p d f v).accA = s.accA := rfl
@[simp] theorem setStatus_accB (s : State) (p : Phase) (d f v : Bool) : (s.setStatus p d f v).accB = s.accB := rfl
@[simp] theorem setStatus_cur (s : State) (p : Phase) (d f v : Bool) : (s.setStatus p d f v).cur = s.cur := rfl
@[simp] theorem setStatus_lim (s : State) (p : Phase) (d f v : Bool) : (s.setStatus p d f v).lim = s.lim := rfl
@[simp] theorem setStatus_wp (s : State) (p : Phase) (d f v : Bool) : (s.setStatus p d f v).wp = s.wp := rfl
@[simp] theorem setStatus_dstate (s : State) (p : Phase) (d f v : Bool) : (s.setStatus p d f v).dstate = s.dstate := rfl
@[simp] theorem setStatus_hist (s : State) (p : Phase) (d f v : Bool) : (s.setStatus p d f v).hist = s.hist := rfl
@[simp] theorem setStatus_histLen (s : State) (p : Phase) (d f v : Bool) : (s.setStatus p d f v).histLen = s.histLen := rfl
@[simp] theorem setStatus_cells (s : State) (p : Phase) (d f v : Bool) : (s.setStatus p d f v).cells = s.cells := rfl
@[simp] theorem setStatus_phase (s : State) (p : Phase) (d f v : Bool) : (s.setStatus p d f v).phase = p := rfl
@[simp] theorem setStatus_done (s : State) (p : Phase) (d f v : Bool) : (s.setStatus p d f v).done = d := rfl
@[simp] theorem setStatus_fault (s : State) (p : Phase) (d f v : Bool) : (s.setStatus p d f v).fault = f := rfl
@[simp] theorem setStatus_ctxValid (s : State) (p : Phase) (d f v : Bool) : (s.setStatus p d f v).ctxValid = v := rfl
@[simp] theorem setStatus_err (s : State) (p : Phase) (d f v : Bool) : (s.setStatus p d f v).err = s.err := rfl
@[simp] theorem setStatus_result (s : State) (p : Phase) (d f v : Bool) : (s.setStatus p d f v).result = s.result := rfl
@[simp] theorem setStatus_argDst (s : State) (p : Phase) (d f v : Bool) : (s.setStatus p d f v).argDst = s.argDst := rfl
@[simp] theorem setStatus_argDstEnd (s : State) (p : Phase) (d f v : Bool) : (s.setStatus p d f v).argDstEnd = s.argDstEnd := rfl
@[simp] theorem setStatus_argDstStart (s : State) (p : Phase) (d f v : Bool) : (s.setStatus p d f v).argDstStart = s.argDstStart := rfl
@[simp] theorem setStatus_argSrc (s : State) (p : Phase) (d f v : Bool) : (s.setStatus p d f v).argSrc = s.argSrc := rfl
@[simp] theorem setStatus_argSrcEnd (s : State) (p : Phase) (d f v : Bool) : (s.setStatus p d f v).argSrcEnd = s.argSrcEnd := rfl
@[simp] theorem setStatus_src (s : State) (p : Phase) (d f v : Bool) : (s.setStatus p d f v).src = s.src := rfl
@[simp] theorem setStatus_dst (s : State) (p : Phase) (d f v : Bool) : (s.setStatus p d f v).dst = s.dst := rfl
@[simp] theorem setStatus_script (s : State) (p : Phase) (d f v : Bool) : (s.setStatus p d f v).script = s.script := rfl
@[simp] theorem setStatus_readData (s : State) (p : Phase) (d f v : Bool) : (s.setStatus p d f v).readData = s.readData := rfl
@[simp] theorem setStatus_freeReads (s : State) (p : Phase) (d f v : Bool) : (s.setStatus p d f v).freeReads = s.freeReads := rfl

@[simp] theorem setOutcome_accA (s : State) (e : BitVec 8) (r : BitVec 64) : (s.setOutcome e r).accA = s.accA := rfl
@[simp] theorem setOutcome_accB (s : State) (e : BitVec 8) (r : BitVec 64) : (s.setOutcome e r).accB = s.accB := rfl
@[simp] theorem setOutcome_cur (s : State) (e : BitVec 8) (r : BitVec 64) : (s.setOutcome e r).cur = s.cur := rfl
@[simp] theorem setOutcome_lim (s : State) (e : BitVec 8) (r : BitVec 64) : (s.setOutcome e r).lim = s.lim := rfl
@[simp] theorem setOutcome_wp (s : State) (e : BitVec 8) (r : BitVec 64) : (s.setOutcome e r).wp = s.wp := rfl
@[simp] theorem setOutcome_dstate (s : State) (e : BitVec 8) (r : BitVec 64) : (s.setOutcome e r).dstate = s.dstate := rfl
@[simp] theorem setOutcome_hist (s : State) (e : BitVec 8) (r : BitVec 64) : (s.setOutcome e r).hist = s.hist := rfl
@[simp] theorem setOutcome_histLen (s : State) (e : BitVec 8) (r : BitVec 64) : (s.setOutcome e r).histLen = s.histLen := rfl
@[simp] theorem setOutcome_cells (s : State) (e : BitVec 8) (r : BitVec 64) : (s.setOutcome e r).cells = s.cells := rfl
@[simp] theorem setOutcome_phase (s : State) (e : BitVec 8) (r : BitVec 64) : (s.setOutcome e r).phase = s.phase := rfl
@[simp] theorem setOutcome_done (s : State) (e : BitVec 8) (r : BitVec 64) : (s.setOutcome e r).done = s.done := rfl
@[simp] theorem setOutcome_fault (s : State) (e : BitVec 8) (r : BitVec 64) : (s.setOutcome e r).fault = s.fault := rfl
@[simp] theorem setOutcome_ctxValid (s : State) (e : BitVec 8) (r : BitVec 64) : (s.setOutcome e r).ctxValid = s.ctxValid := rfl
@[simp] theorem setOutcome_err (s : State) (e : BitVec 8) (r : BitVec 64) : (s.setOutcome e r).err = e := rfl
@[simp] theorem setOutcome_result (s : State) (e : BitVec 8) (r : BitVec 64) : (s.setOutcome e r).result = r := rfl
@[simp] theorem setOutcome_argDst (s : State) (e : BitVec 8) (r : BitVec 64) : (s.setOutcome e r).argDst = s.argDst := rfl
@[simp] theorem setOutcome_argDstEnd (s : State) (e : BitVec 8) (r : BitVec 64) : (s.setOutcome e r).argDstEnd = s.argDstEnd := rfl
@[simp] theorem setOutcome_argDstStart (s : State) (e : BitVec 8) (r : BitVec 64) : (s.setOutcome e r).argDstStart = s.argDstStart := rfl
@[simp] theorem setOutcome_argSrc (s : State) (e : BitVec 8) (r : BitVec 64) : (s.setOutcome e r).argSrc = s.argSrc := rfl
@[simp] theorem setOutcome_argSrcEnd (s : State) (e : BitVec 8) (r : BitVec 64) : (s.setOutcome e r).argSrcEnd = s.argSrcEnd := rfl
@[simp] theorem setOutcome_src (s : State) (e : BitVec 8) (r : BitVec 64) : (s.setOutcome e r).src = s.src := rfl
@[simp] theorem setOutcome_dst (s : State) (e : BitVec 8) (r : BitVec 64) : (s.setOutcome e r).dst = s.dst := rfl
@[simp] theorem setOutcome_script (s : State) (e : BitVec 8) (r : BitVec 64) : (s.setOutcome e r).script = s.script := rfl
@[simp] theorem setOutcome_readData (s : State) (e : BitVec 8) (r : BitVec 64) : (s.setOutcome e r).readData = s.readData := rfl
@[simp] theorem setOutcome_freeReads (s : State) (e : BitVec 8) (r : BitVec 64) : (s.setOutcome e r).freeReads = s.freeReads := rfl

@[simp] theorem setSrc_accA (s : State) (m : Memory) : (s.setSrc m).accA = s.accA := rfl
@[simp] theorem setSrc_accB (s : State) (m : Memory) : (s.setSrc m).accB = s.accB := rfl
@[simp] theorem setSrc_cur (s : State) (m : Memory) : (s.setSrc m).cur = s.cur := rfl
@[simp] theorem setSrc_lim (s : State) (m : Memory) : (s.setSrc m).lim = s.lim := rfl
@[simp] theorem setSrc_wp (s : State) (m : Memory) : (s.setSrc m).wp = s.wp := rfl
@[simp] theorem setSrc_dstate (s : State) (m : Memory) : (s.setSrc m).dstate = s.dstate := rfl
@[simp] theorem setSrc_hist (s : State) (m : Memory) : (s.setSrc m).hist = s.hist := rfl
@[simp] theorem setSrc_histLen (s : State) (m : Memory) : (s.setSrc m).histLen = s.histLen := rfl
@[simp] theorem setSrc_cells (s : State) (m : Memory) : (s.setSrc m).cells = s.cells := rfl
@[simp] theorem setSrc_phase (s : State) (m : Memory) : (s.setSrc m).phase = s.phase := rfl
@[simp] theorem setSrc_done (s : State) (m : Memory) : (s.setSrc m).done = s.done := rfl
@[simp] theorem setSrc_fault (s : State) (m : Memory) : (s.setSrc m).fault = s.fault := rfl
@[simp] theorem setSrc_ctxValid (s : State) (m : Memory) : (s.setSrc m).ctxValid = s.ctxValid := rfl
@[simp] theorem setSrc_err (s : State) (m : Memory) : (s.setSrc m).err = s.err := rfl
@[simp] theorem setSrc_result (s : State) (m : Memory) : (s.setSrc m).result = s.result := rfl
@[simp] theorem setSrc_argDst (s : State) (m : Memory) : (s.setSrc m).argDst = s.argDst := rfl
@[simp] theorem setSrc_argDstEnd (s : State) (m : Memory) : (s.setSrc m).argDstEnd = s.argDstEnd := rfl
@[simp] theorem setSrc_argDstStart (s : State) (m : Memory) : (s.setSrc m).argDstStart = s.argDstStart := rfl
@[simp] theorem setSrc_argSrc (s : State) (m : Memory) : (s.setSrc m).argSrc = s.argSrc := rfl
@[simp] theorem setSrc_argSrcEnd (s : State) (m : Memory) : (s.setSrc m).argSrcEnd = s.argSrcEnd := rfl
@[simp] theorem setSrc_src (s : State) (m : Memory) : (s.setSrc m).src = m := rfl
@[simp] theorem setSrc_dst (s : State) (m : Memory) : (s.setSrc m).dst = s.dst := rfl
@[simp] theorem setSrc_script (s : State) (m : Memory) : (s.setSrc m).script = s.script := rfl
@[simp] theorem setSrc_readData (s : State) (m : Memory) : (s.setSrc m).readData = s.readData := rfl
@[simp] theorem setSrc_freeReads (s : State) (m : Memory) : (s.setSrc m).freeReads = s.freeReads := rfl

@[simp] theorem setDst_accA (s : State) (m : Memory) : (s.setDst m).accA = s.accA := rfl
@[simp] theorem setDst_accB (s : State) (m : Memory) : (s.setDst m).accB = s.accB := rfl
@[simp] theorem setDst_cur (s : State) (m : Memory) : (s.setDst m).cur = s.cur := rfl
@[simp] theorem setDst_lim (s : State) (m : Memory) : (s.setDst m).lim = s.lim := rfl
@[simp] theorem setDst_wp (s : State) (m : Memory) : (s.setDst m).wp = s.wp := rfl
@[simp] theorem setDst_dstate (s : State) (m : Memory) : (s.setDst m).dstate = s.dstate := rfl
@[simp] theorem setDst_hist (s : State) (m : Memory) : (s.setDst m).hist = s.hist := rfl
@[simp] theorem setDst_histLen (s : State) (m : Memory) : (s.setDst m).histLen = s.histLen := rfl
@[simp] theorem setDst_cells (s : State) (m : Memory) : (s.setDst m).cells = s.cells := rfl
@[simp] theorem setDst_phase (s : State) (m : Memory) : (s.setDst m).phase = s.phase := rfl
@[simp] theorem setDst_done (s : State) (m : Memory) : (s.setDst m).done = s.done := rfl
@[simp] theorem setDst_fault (s : State) (m : Memory) : (s.setDst m).fault = s.fault := rfl
@[simp] theorem setDst_ctxValid (s : State) (m : Memory) : (s.setDst m).ctxValid = s.ctxValid := rfl
@[simp] theorem setDst_err (s : State) (m : Memory) : (s.setDst m).err = s.err := rfl
@[simp] theorem setDst_result (s : State) (m : Memory) : (s.setDst m).result = s.result := rfl
@[simp] theorem setDst_argDst (s : State) (m : Memory) : (s.setDst m).argDst = s.argDst := rfl
@[simp] theorem setDst_argDstEnd (s : State) (m : Memory) : (s.setDst m).argDstEnd = s.argDstEnd := rfl
@[simp] theorem setDst_argDstStart (s : State) (m : Memory) : (s.setDst m).argDstStart = s.argDstStart := rfl
@[simp] theorem setDst_argSrc (s : State) (m : Memory) : (s.setDst m).argSrc = s.argSrc := rfl
@[simp] theorem setDst_argSrcEnd (s : State) (m : Memory) : (s.setDst m).argSrcEnd = s.argSrcEnd := rfl
@[simp] theorem setDst_src (s : State) (m : Memory) : (s.setDst m).src = s.src := rfl
@[simp] theorem setDst_dst (s : State) (m : Memory) : (s.setDst m).dst = m := rfl
@[simp] theorem setDst_script (s : State) (m : Memory) : (s.setDst m).script = s.script := rfl
@[simp] theorem setDst_readData (s : State) (m : Memory) : (s.setDst m).readData = s.readData := rfl
@[simp] theorem setDst_freeReads (s : State) (m : Memory) : (s.setDst m).freeReads = s.freeReads := rfl

@[simp] theorem setScript_accA (s : State) (l : List HostEvent) : (s.setScript l).accA = s.accA := rfl
@[simp] theorem setScript_accB (s : State) (l : List HostEvent) : (s.setScript l).accB = s.accB := rfl
@[simp] theorem setScript_cur (s : State) (l : List HostEvent) : (s.setScript l).cur = s.cur := rfl
@[simp] theorem setScript_lim (s : State) (l : List HostEvent) : (s.setScript l).lim = s.lim := rfl
@[simp] theorem setScript_wp (s : State) (l : List HostEvent) : (s.setScript l).wp = s.wp := rfl
@[simp] theorem setScript_dstate (s : State) (l : List HostEvent) : (s.setScript l).dstate = s.dstate := rfl
@[simp] theorem setScript_hist (s : State) (l : List HostEvent) : (s.setScript l).hist = s.hist := rfl
@[simp] theorem setScript_histLen (s : State) (l : List HostEvent) : (s.setScript l).histLen = s.histLen := rfl
@[simp] theorem setScript_cells (s : State) (l : List HostEvent) : (s.setScript l).cells = s.cells := rfl
@[simp] theorem setScript_phase (s : State) (l : List HostEvent) : (s.setScript l).phase = s.phase := rfl
@[simp] theorem setScript_done (s : State) (l : List HostEvent) : (s.setScript l).done = s.done := rfl
@[simp] theorem setScript_fault (s : State) (l : List HostEvent) : (s.setScript l).fault = s.fault := rfl
@[simp] theorem setScript_ctxValid (s : State) (l : List HostEvent) : (s.setScript l).ctxValid = s.ctxValid := rfl
@[simp] theorem setScript_err (s : State) (l : List HostEvent) : (s.setScript l).err = s.err := rfl
@[simp] theorem setScript_result (s : State) (l : List HostEvent) : (s.setScript l).result = s.result := rfl
@[simp] theorem setScript_argDst (s : State) (l : List HostEvent) : (s.setScript l).argDst = s.argDst := rfl
@[simp] theorem setScript_argDstEnd (s : State) (l : List HostEvent) : (s.setScript l).argDstEnd = s.argDstEnd := rfl
@[simp] theorem setScript_argDstStart (s : State) (l : List HostEvent) : (s.setScript l).argDstStart = s.argDstStart := rfl
@[simp] theorem setScript_argSrc (s : State) (l : List HostEvent) : (s.setScript l).argSrc = s.argSrc := rfl
@[simp] theorem setScript_argSrcEnd (s : State) (l : List HostEvent) : (s.setScript l).argSrcEnd = s.argSrcEnd := rfl
@[simp] theorem setScript_src (s : State) (l : List HostEvent) : (s.setScript l).src = s.src := rfl
@[simp] theorem setScript_dst (s : State) (l : List HostEvent) : (s.setScript l).dst = s.dst := rfl
@[simp] theorem setScript_script (s : State) (l : List HostEvent) : (s.setScript l).script = l := rfl
@[simp] theorem setScript_readData (s : State) (l : List HostEvent) : (s.setScript l).readData = s.readData := rfl
@[simp] theorem setScript_freeReads (s : State) (l : List HostEvent) : (s.setScript l).freeReads = s.freeReads := rfl

@[simp] theorem setReadData_accA (s : State) (v : BitVec 64) : (s.setReadData v).accA = s.accA := rfl
@[simp] theorem setReadData_accB (s : State) (v : BitVec 64) : (s.setReadData v).accB = s.accB := rfl
@[simp] theorem setReadData_cur (s : State) (v : BitVec 64) : (s.setReadData v).cur = s.cur := rfl
@[simp] theorem setReadData_lim (s : State) (v : BitVec 64) : (s.setReadData v).lim = s.lim := rfl
@[simp] theorem setReadData_wp (s : State) (v : BitVec 64) : (s.setReadData v).wp = s.wp := rfl
@[simp] theorem setReadData_dstate (s : State) (v : BitVec 64) : (s.setReadData v).dstate = s.dstate := rfl
@[simp] theorem setReadData_hist (s : State) (v : BitVec 64) : (s.setReadData v).hist = s.hist := rfl
@[simp] theorem setReadData_histLen (s : State) (v : BitVec 64) : (s.setReadData v).histLen = s.histLen := rfl
@[simp] theorem setReadData_cells (s : State) (v : BitVec 64) : (s.setReadData v).cells = s.cells := rfl
@[simp] theorem setReadData_phase (s : State) (v : BitVec 64) : (s.setReadData v).phase = s.phase := rfl
@[simp] theorem setReadData_done (s : State) (v : BitVec 64) : (s.setReadData v).done = s.done := rfl
@[simp] theorem setReadData_fault (s : State) (v : BitVec 64) : (s.setReadData v).fault = s.fault := rfl
@[simp] theorem setReadData_ctxValid (s : State) (v : BitVec 64) : (s.setReadData v).ctxValid = s.ctxValid := rfl
@[simp] theorem setReadData_err (s : State) (v : BitVec 64) : (s.setReadData v).err = s.err := rfl
@[simp] theorem setReadData_result (s : State) (v : BitVec 64) : (s.setReadData v).result = s.result := rfl
@[simp] theorem setReadData_argDst (s : State) (v : BitVec 64) : (s.setReadData v).argDst = s.argDst := rfl
@[simp] theorem setReadData_argDstEnd (s : State) (v : BitVec 64) : (s.setReadData v).argDstEnd = s.argDstEnd := rfl
@[simp] theorem setReadData_argDstStart (s : State) (v : BitVec 64) : (s.setReadData v).argDstStart = s.argDstStart := rfl
@[simp] theorem setReadData_argSrc (s : State) (v : BitVec 64) : (s.setReadData v).argSrc = s.argSrc := rfl
@[simp] theorem setReadData_argSrcEnd (s : State) (v : BitVec 64) : (s.setReadData v).argSrcEnd = s.argSrcEnd := rfl
@[simp] theorem setReadData_src (s : State) (v : BitVec 64) : (s.setReadData v).src = s.src := rfl
@[simp] theorem setReadData_dst (s : State) (v : BitVec 64) : (s.setReadData v).dst = s.dst := rfl
@[simp] theorem setReadData_script (s : State) (v : BitVec 64) : (s.setReadData v).script = s.script := rfl
@[simp] theorem setReadData_readData (s : State) (v : BitVec 64) : (s.setReadData v).readData = v := rfl
@[simp] theorem setReadData_freeReads (s : State) (v : BitVec 64) : (s.setReadData v).freeReads = s.freeReads := rfl

@[simp] theorem countFreeRead_accA (s : State) : s.countFreeRead.accA = s.accA := rfl
@[simp] theorem countFreeRead_accB (s : State) : s.countFreeRead.accB = s.accB := rfl
@[simp] theorem countFreeRead_cur (s : State) : s.countFreeRead.cur = s.cur := rfl
@[simp] theorem countFreeRead_lim (s : State) : s.countFreeRead.lim = s.lim := rfl
@[simp] theorem countFreeRead_wp (s : State) : s.countFreeRead.wp = s.wp := rfl
@[simp] theorem countFreeRead_dstate (s : State) : s.countFreeRead.dstate = s.dstate := rfl
@[simp] theorem countFreeRead_hist (s : State) : s.countFreeRead.hist = s.hist := rfl
@[simp] theorem countFreeRead_histLen (s : State) : s.countFreeRead.histLen = s.histLen := rfl
@[simp] theorem countFreeRead_cells (s : State) : s.countFreeRead.cells = s.cells := rfl
@[simp] theorem countFreeRead_phase (s : State) : s.countFreeRead.phase = s.phase := rfl
@[simp] theorem countFreeRead_done (s : State) : s.countFreeRead.done = s.done := rfl
@[simp] theorem countFreeRead_fault (s : State) : s.countFreeRead.fault = s.fault := rfl
@[simp] theorem countFreeRead_ctxValid (s : State) : s.countFreeRead.ctxValid = s.ctxValid := rfl
@[simp] theorem countFreeRead_err (s : State) : s.countFreeRead.err = s.err := rfl
@[simp] theorem countFreeRead_result (s : State) : s.countFreeRead.result = s.result := rfl
@[simp] theorem countFreeRead_argDst (s : State) : s.countFreeRead.argDst = s.argDst := rfl
@[simp] theorem countFreeRead_argDstEnd (s : State) : s.countFreeRead.argDstEnd = s.argDstEnd := rfl
@[simp] theorem countFreeRead_argDstStart (s : State) : s.countFreeRead.argDstStart = s.argDstStart := rfl
@[simp] theorem countFreeRead_argSrc (s : State) : s.countFreeRead.argSrc = s.argSrc := rfl
@[simp] theorem countFreeRead_argSrcEnd (s : State) : s.countFreeRead.argSrcEnd = s.argSrcEnd := rfl
@[simp] theorem countFreeRead_src (s : State) : s.countFreeRead.src = s.src := rfl
@[simp] theorem countFreeRead_dst (s : State) : s.countFreeRead.dst = s.dst := rfl
@[simp] theorem countFreeRead_script (s : State) : s.countFreeRead.script = s.script := rfl
@[simp] theorem countFreeRead_readData (s : State) : s.countFreeRead.readData = s.readData := rfl
@[simp] theorem countFreeRead_freeReads (s : State) : s.countFreeRead.freeReads = s.freeReads + 1 := rfl

end Sys2Proof.Machine.State
end

