-- ==== Sys2Proof/Laws/Memory.lean ====
section
/-! SUPPORT. The laws of the sparse stores: read after write, the kept canonical form, and extensionality. -/

namespace Sys2Proof.Machine

section Sparse

variable {w : Nat} {dflt : Nat → BitVec w} {bound : Nat}

@[simp] theorem sparseRead_nil (a : Nat) : sparseRead dflt [] a = dflt a := rfl

theorem sparseRead_cons (k : Nat) (v : BitVec w) (m : List (Nat × BitVec w)) (a : Nat) :
    sparseRead dflt ((k, v) :: m) a = if a = k then v else sparseRead dflt m a := rfl

/-- A lower bound of the keys may be lowered. -/
theorem sparseWfFrom_mono {m : List (Nat × BitVec w)} {lo hi : Nat} (h : lo ≤ hi)
    (hm : sparseWfFrom dflt bound hi m = true) : sparseWfFrom dflt bound lo m = true := by
  cases m with
  | nil => rfl
  | cons e m =>
    simp only [sparseWfFrom, Bool.and_eq_true, decide_eq_true_eq] at hm ⊢
    obtain ⟨⟨⟨h1, h2⟩, h3⟩, h4⟩ := hm
    exact ⟨⟨⟨by omega, h2⟩, h3⟩, h4⟩

/-- Below the lower bound of the keys a store reads the default. -/
theorem sparseRead_below {m : List (Nat × BitVec w)} {lo a : Nat}
    (hm : sparseWfFrom dflt bound lo m = true) (ha : a < lo) : sparseRead dflt m a = dflt a := by
  induction m generalizing lo with
  | nil => rfl
  | cons e m ih =>
    simp only [sparseWfFrom, Bool.and_eq_true, decide_eq_true_eq] at hm
    obtain ⟨⟨⟨h1, -⟩, -⟩, h4⟩ := hm
    rw [sparseRead_cons, if_neg (by omega)]
    exact ih h4 (by omega)

theorem sparseRead_insert (m : List (Nat × BitVec w)) (a : Nat) (v : BitVec w) (b : Nat) :
    sparseRead dflt (sparseInsert a v m) b = if b = a then v else sparseRead dflt m b := by
  induction m with
  | nil => rfl
  | cons e m ih =>
    obtain ⟨k, x⟩ := e
    unfold sparseInsert
    split
    · rw [sparseRead_cons]
    · split
      · next h1 h2 => subst h2; simp only [sparseRead_cons]; split <;> simp_all
      · next h1 h2 =>
        simp only [sparseRead_cons, ih]
        by_cases hb : b = k
        · rw [if_pos hb, if_neg (by omega), if_pos hb]
        · rw [if_neg hb, if_neg hb]

theorem sparseRead_erase {m : List (Nat × BitVec w)} {lo : Nat} (hm : sparseWfFrom dflt bound lo m = true)
    (a b : Nat) : sparseRead dflt (sparseErase a m) b = if b = a then dflt a else sparseRead dflt m b := by
  induction m generalizing lo with
  | nil => simp only [sparseErase, sparseRead_nil]; split <;> simp_all
  | cons e m ih =>
    obtain ⟨k, x⟩ := e
    simp only [sparseWfFrom, Bool.and_eq_true, decide_eq_true_eq] at hm
    obtain ⟨-, h4⟩ := hm
    unfold sparseErase
    split
    · next h =>
      subst h
      by_cases hb : b = a
      · subst hb; rw [if_pos rfl]; exact sparseRead_below h4 (by omega)
      · rw [if_neg hb, sparseRead_cons, if_neg hb]
    · next h =>
      simp only [sparseRead_cons, ih h4]
      by_cases hb : b = k
      · rw [if_pos hb, if_neg (by omega), if_pos hb]
      · rw [if_neg hb, if_neg hb]

/-- Read after write, in any canonical store. -/
theorem sparseRead_write {m : List (Nat × BitVec w)} {lo : Nat} (hm : sparseWfFrom dflt bound lo m = true)
    (a : Nat) (v : BitVec w) (b : Nat) :
    sparseRead dflt (sparseWrite dflt m a v) b = if b = a then v else sparseRead dflt m b := by
  unfold sparseWrite
  split
  · next h => rw [sparseRead_erase hm, h]
  · exact sparseRead_insert m a v b

theorem sparseWfFrom_insert {m : List (Nat × BitVec w)} {lo a : Nat} {v : BitVec w}
    (hm : sparseWfFrom dflt bound lo m = true) (hlo : lo ≤ a) (hb : a < bound) (hv : v ≠ dflt a) :
    sparseWfFrom dflt bound lo (sparseInsert a v m) = true := by
  induction m generalizing lo with
  | nil => simp [sparseInsert, sparseWfFrom, hlo, hb, hv]
  | cons e m ih =>
    obtain ⟨k, x⟩ := e
    simp only [sparseWfFrom, Bool.and_eq_true, decide_eq_true_eq] at hm
    obtain ⟨⟨⟨h1, h2⟩, h3⟩, h4⟩ := hm
    unfold sparseInsert
    split
    · next h =>
      simp only [sparseWfFrom, Bool.and_eq_true, decide_eq_true_eq]
      exact ⟨⟨⟨hlo, hb⟩, hv⟩, ⟨⟨by omega, h2⟩, h3⟩, h4⟩
    · split
      · next h =>
        subst h
        simp only [sparseWfFrom, Bool.and_eq_true, decide_eq_true_eq]
        exact ⟨⟨⟨hlo, hb⟩, hv⟩, h4⟩
      · simp only [sparseWfFrom, Bool.and_eq_true, decide_eq_true_eq]
        exact ⟨⟨⟨h1, h2⟩, h3⟩, ih h4 (by omega)⟩

theorem sparseWfFrom_erase {m : List (Nat × BitVec w)} {lo : Nat} (a : Nat)
    (hm : sparseWfFrom dflt bound lo m = true) : sparseWfFrom dflt bound lo (sparseErase a m) = true := by
  induction m generalizing lo with
  | nil => rfl
  | cons e m ih =>
    obtain ⟨k, x⟩ := e
    simp only [sparseWfFrom, Bool.and_eq_true, decide_eq_true_eq] at hm
    obtain ⟨⟨⟨h1, h2⟩, h3⟩, h4⟩ := hm
    unfold sparseErase
    split
    · exact sparseWfFrom_mono (by omega) h4
    · simp only [sparseWfFrom, Bool.and_eq_true, decide_eq_true_eq]
      exact ⟨⟨⟨h1, h2⟩, h3⟩, ih h4⟩

/-- A write keeps the canonical form. -/
theorem sparseWfFrom_write {m : List (Nat × BitVec w)} {lo a : Nat} (v : BitVec w)
    (hm : sparseWfFrom dflt bound lo m = true) (hlo : lo ≤ a) (hb : a < bound) :
    sparseWfFrom dflt bound lo (sparseWrite dflt m a v) = true := by
  unfold sparseWrite
  split
  · exact sparseWfFrom_erase a hm
  · next h => exact sparseWfFrom_insert hm hlo hb h

/-- Two canonical stores that read alike are the same list. -/
theorem sparse_ext {m n : List (Nat × BitVec w)} {lo : Nat} (hm : sparseWfFrom dflt bound lo m = true)
    (hn : sparseWfFrom dflt bound lo n = true) (h : ∀ a, sparseRead dflt m a = sparseRead dflt n a) : m = n := by
  induction m generalizing n lo with
  | nil =>
    cases n with
    | nil => rfl
    | cons e n =>
      obtain ⟨k, x⟩ := e
      simp only [sparseWfFrom, Bool.and_eq_true, decide_eq_true_eq] at hn
      have := h k
      rw [sparseRead_nil, sparseRead_cons, if_pos rfl] at this
      exact absurd this.symm hn.1.2
  | cons e m ih =>
    obtain ⟨k, x⟩ := e
    have hm' := hm
    simp only [sparseWfFrom, Bool.and_eq_true, decide_eq_true_eq] at hm
    obtain ⟨⟨⟨h1, h2⟩, h3⟩, h4⟩ := hm
    cases n with
    | nil =>
      have := h k
      rw [sparseRead_nil, sparseRead_cons, if_pos rfl] at this
      exact absurd this h3
    | cons f n =>
      obtain ⟨l, y⟩ := f
      have hn' := hn
      simp only [sparseWfFrom, Bool.and_eq_true, decide_eq_true_eq] at hn
      obtain ⟨⟨⟨g1, g2⟩, g3⟩, g4⟩ := hn
      have hk := h k
      have hl := h l
      simp only [sparseRead_cons, if_true] at hk hl
      have hkl : k = l := by
        by_contra hne
        rcases Nat.lt_or_gt_of_ne hne with hlt | hgt
        · rw [if_neg hne, sparseRead_below g4 (by omega)] at hk; exact h3 hk
        · rw [if_neg (fun e => hne e.symm), sparseRead_below h4 (by omega)] at hl; exact g3 hl.symm
      subst hkl
      rw [if_pos rfl] at hk
      subst hk
      have : m = n := by
        refine ih h4 g4 fun a => ?_
        by_cases ha : a = k
        · rw [ha, sparseRead_below h4 (by omega), sparseRead_below g4 (by omega)]
        · simpa only [sparseRead_cons, if_neg ha] using h a
      rw [this]

end Sparse

/-! ### Byte memories -/

@[simp] theorem Memory.read_nil (a : Addr) : Memory.read [] a = 0 := rfl

@[simp] theorem Memory.wf_nil : Memory.wf [] = true := rfl

/-- Reading a byte after writing one. -/
theorem Memory.read_write {m : Memory} (hm : Memory.wf m = true) (a b : Addr) (v : Byte) :
    Memory.read (Memory.write m a v) b = if b = a then v else Memory.read m b := by
  unfold Memory.read Memory.write
  rw [sparseRead_write hm]
  by_cases h : b = a
  · subst h; rw [if_pos rfl, if_pos rfl]
  · rw [if_neg h, if_neg (fun e => h (BitVec.eq_of_toNat_eq e))]

/-- A write keeps a memory canonical. -/
theorem Memory.wf_write {m : Memory} (hm : Memory.wf m = true) (a : Addr) (v : Byte) :
    Memory.wf (Memory.write m a v) = true :=
  sparseWfFrom_write v hm (Nat.zero_le _) a.isLt

/-- Two canonical memories that read alike are the same list. -/
theorem Memory.ext {m n : Memory} (hm : Memory.wf m = true) (hn : Memory.wf n = true)
    (h : ∀ a : Addr, Memory.read m a = Memory.read n a) : m = n := by
  have big : ∀ {k : Memory}, Memory.wf k = true → ∀ a, 2 ^ 64 ≤ a → sparseRead unwrittenByte k a = 0 := by
    intro k hk a ha
    have gen : ∀ (l : Memory) (lo : Nat), sparseWfFrom unwrittenByte (2 ^ 64) lo l = true →
        sparseRead unwrittenByte l a = 0 := by
      intro l
      induction l with
      | nil => intro _ _; rfl
      | cons e l ih =>
        intro lo hl
        simp only [sparseWfFrom, Bool.and_eq_true, decide_eq_true_eq] at hl
        rw [sparseRead_cons, if_neg (by omega)]
        exact ih _ hl.2
    exact gen k 0 hk
  refine sparse_ext hm hn fun a => ?_
  by_cases ha : a < 2 ^ 64
  · have := h (BitVec.ofNat 64 a)
    unfold Memory.read at this
    rwa [BitVec.toNat_ofNat, Nat.mod_eq_of_lt ha] at this
  · rw [big hm a (by omega), big hn a (by omega)]

end Sys2Proof.Machine
end

