-- ==== Sys2Proof/Laws/Models.lean ====
section
/-! SUPPORT. The laws of the cells: reading after writing, the kept canonical form, `Adapt`, the initializer. -/

namespace Sys2Proof.Machine

open Sys2Proof.Config (Params)
open Sys2Proof.Safety

variable {P : Params} {s : State}

@[simp] theorem Cells.wf_nil : Cells.wf P [] = true := rfl

/-- Writing cell `j` changes the cells' store and nothing else. -/
theorem setCell_eq (j : Nat) (v : Prob) :
    setCell P s j v = { s with cells := sparseWrite (initCell P) s.cells j v } := rfl

/-- Reading a cell after writing one. -/
theorem cellAt_setCell (h : Cells.wf P s.cells = true) (j : Nat) (v : Prob) (i : Nat) :
    cellAt P (setCell P s j v) i = if i = j then v else cellAt P s i := sparseRead_write h j v i

/-- Writing a cell of CTX keeps the store canonical. -/
theorem Cells.wf_setCell (h : Cells.wf P s.cells = true) {j : Nat} (hj : j < Config.numCells) (v : Prob) :
    Cells.wf P (setCell P s j v).cells = true := sparseWfFrom_write v h (Nat.zero_le _) hj

/-- A cell reads by the store alone. -/
theorem cellAt_congr {t : State} (h : t.cells = s.cells) (j : Nat) : cellAt P t j = cellAt P s j := by
  unfold cellAt; rw [h]

theorem clamp_bounds {lo hi : Nat} (h : lo ≤ hi) (v : Nat) : lo ≤ clamp v lo hi ∧ clamp v lo hi ≤ hi := by
  unfold clamp; omega

/-- The number that `Adapt` answers, for a well-formed record. -/
theorem adapt_toNat (hP : P.Wf) (p : Prob) (bit : Bool) :
    (adapt P p bit).toNat =
      clamp (if bit then p.toNat - (p.toNat >>> P.rateShift)
        else p.toNat + ((Config.probOne - p.toNat) >>> P.rateShift)) P.pMin P.pMax := by
  have h := clamp_bounds hP.2.1 (if bit then p.toNat - (p.toNat >>> P.rateShift)
        else p.toNat + ((Config.probOne - p.toNat) >>> P.rateShift))
  have h3 := hP.2.2.1
  simp only [Config.probOne] at h3
  unfold adapt
  rw [BitVec.toNat_ofNat, Nat.mod_eq_of_lt (by omega)]

/-- `Adapt` answers a value in [P_MIN, P_MAX]. -/
theorem adapt_inRange (hP : P.Wf) (p : Prob) (bit : Bool) : P.InRange (adapt P p bit) := by
  unfold Params.InRange
  rw [adapt_toNat hP]
  exact clamp_bounds hP.2.1 _

/-- The initializer value of every cell is in [P_MIN, P_MAX]. -/
theorem initCell_inRange (hP : P.Wf) (j : Nat) : P.InRange (initCell P j) := by
  obtain ⟨-, -, -, -, hb, hn, ht, -⟩ := hP
  have nib : ∀ k (h : k < 17), P.InRange P.nibInit[k] := fun k h => hn ⟨k, h⟩
  have tb : ∀ k (h : k < 9), P.InRange P.tbInit[k] := fun k h => ht ⟨k, h⟩
  unfold initCell
  repeat' split
  all_goals first
    | exact hb
    | exact nib _ _
    | exact tb _ _

/-- After INIT every cell reads its initializer value. -/
theorem cellAt_of_cells_nil (h : s.cells = []) (j : Nat) : cellAt P s j = initCell P j := by
  unfold cellAt; rw [h]; rfl

/-- The default record is well-formed. -/
theorem params_wf : Config.params.Wf := by decide

/-- The default record has the numbers that the rules write. -/
theorem params_asWritten : Config.params.AsWritten :=
  ⟨rfl, rfl, rfl, rfl, rfl, rfl, rfl, rfl, rfl, rfl, rfl, rfl, rfl, rfl, rfl⟩

section AsWritten

variable (h : P.AsWritten)
include h

theorem refillBytes_asWritten : P.refillBytes = 4 := by rw [Params.refillBytes, h.refillBits]

theorem headerWord_asWritten : P.headerWord = 8 := by rw [Params.headerWord, h.headerBytes]

theorem renormTop_asWritten : P.renormTop = 2 ^ 63 := by
  rw [Params.renormTop, h.renormLow, h.refillBits]; norm_num

theorem maxLen_asWritten : P.maxLen = 54 := by rw [Params.maxLen, h.longBase3]

end AsWritten

end Sys2Proof.Machine
end

