-- ==== Sys2Proof/Laws/Reader.lean ====
section
/-! SUPPORT. What the reader and the tree decoders can do: one lemma per operation, for both ways it can end. -/

namespace Sys2Proof.Machine

open Sys2Proof.Config (Params)
open Sys2Proof.Safety

/-! ### Results -/

@[simp] theorem Res.ok_bind {α β : Type} (v : α) (s : State) (k : α → State → Res β) :
    (Res.ok v s).bind k = k v s := rfl

@[simp] theorem Res.raised_bind {α β : Type} (c : Cause) (s : State) (k : α → State → Res β) :
    (Res.raised c s : Res α).bind k = .raised c s := rfl

theorem Res.bind_eq_ok {α β : Type} {r : Res α} {k : α → State → Res β} {v : β} {t : State} :
    r.bind k = .ok v t ↔ ∃ a s, r = .ok a s ∧ k a s = .ok v t := by
  cases r <;> simp

theorem Res.bind_eq_raised {α β : Type} {r : Res α} {k : α → State → Res β} {c : Cause} {t : State} :
    r.bind k = .raised c t ↔ r = .raised c t ∨ ∃ a s, r = .ok a s ∧ k a s = .raised c t := by
  cases r <;> simp

/-- A result ends with a value and a state that satisfy `Q`, or is a raise that satisfies `E`. -/
def Res.Post {α : Type} (r : Res α) (Q : α → State → Prop) (E : Cause → State → Prop) : Prop :=
  match r with
  | .ok v s => Q v s
  | .raised c s => E c s

theorem Res.Post.bind {α β : Type} {r : Res α} {k : α → State → Res β} {Q : β → State → Prop}
    {E : Cause → State → Prop} (h : r.Post (fun a s => (k a s).Post Q E) E) : (r.bind k).Post Q E := by
  cases r <;> exact h

theorem Res.Post.mono {α : Type} {r : Res α} {Q Q' : α → State → Prop} {E E' : Cause → State → Prop}
    (h : r.Post Q E) (hQ : ∀ v s, Q v s → Q' v s) (hE : ∀ c s, E c s → E' c s) : r.Post Q' E' := by
  cases r with
  | ok v s => exact hQ _ _ h
  | raised c s => exact hE _ _ h

theorem Res.Post.of_ok {α : Type} {r : Res α} {Q : α → State → Prop} {E : Cause → State → Prop} {v : α}
    {t : State} (h : r.Post Q E) (hr : r = .ok v t) : Q v t := by subst hr; exact h

theorem Res.Post.of_raised {α : Type} {r : Res α} {Q : α → State → Prop} {E : Cause → State → Prop}
    {c : Cause} {t : State} (h : r.Post Q E) (hr : r = .raised c t) : E c t := by subst hr; exact h

/-! ### What the symbols of an operation do to the state -/

/-- From `s` to `t` some symbols were decoded: only the accumulators, CUR and cells differ; the cells' store
stays canonical and in range; cells outside `T` read as before; CUR moved by whole refills, not past
LIM. -/
structure ReaderStep (P : Params) (T : Nat → Prop) (s t : State) : Prop where
  frame : ReaderFrame s t
  wf : Cells.wf P s.cells = true → Cells.wf P t.cells = true
  range : P.Wf → Cells.wf P s.cells = true → CellsInRange P s → CellsInRange P t
  kept : Cells.wf P s.cells = true → ∀ j, ¬T j → cellAt P t j = cellAt P s j
  cursor : s.cur ≤ s.lim → s.cur ≤ t.cur ∧ t.cur ≤ s.lim ∧ P.refillBytes ∣ (t.cur - s.cur).toNat

variable {P : Params} {T : Nat → Prop} {s t u : State}

theorem ReaderFrame.refl (s : State) : ReaderFrame s s := rfl

theorem ReaderFrame.trans (h : ReaderFrame s t) (g : ReaderFrame t u) : ReaderFrame s u := by
  unfold ReaderFrame at *; rw [g, h]

theorem ReaderStep.refl (P : Params) (T : Nat → Prop) (s : State) : ReaderStep P T s s where
  frame := rfl
  wf h := h
  range _ _ h := h
  kept _ _ _ := rfl
  cursor h := ⟨BitVec.le_refl _, h, by simp⟩

theorem ReaderStep.lim_eq (h : ReaderStep P T s t) : t.lim = s.lim := by rw [h.frame]

theorem ReaderStep.trans (h : ReaderStep P T s t) (g : ReaderStep P T t u) : ReaderStep P T s u where
  frame := ReaderFrame.trans h.frame g.frame
  wf hs := g.wf (h.wf hs)
  range hP hs hr := g.range hP (h.wf hs) (h.range hP hs hr)
  kept hs j hj := (g.kept (h.wf hs) j hj).trans (h.kept hs j hj)
  cursor hs := by
    obtain ⟨h1, h2, h3⟩ := h.cursor hs
    obtain ⟨g1, g2, g3⟩ := g.cursor (h.lim_eq ▸ h2)
    rw [h.lim_eq] at g2
    have e : (u.cur - s.cur).toNat = (t.cur - s.cur).toNat + (u.cur - t.cur).toNat := by bv_omega
    exact ⟨BitVec.le_trans h1 g1, g2, e ▸ Nat.dvd_add h3 g3⟩

theorem ReaderStep.weaken {T' : Nat → Prop} (h : ReaderStep P T s t) (hT : ∀ j, T j → T' j) :
    ReaderStep P T' s t :=
  { h with kept := fun hs j hj => h.kept hs j fun hT' => hj (hT j hT') }

/-- Adapting one cell of CTX. -/
theorem ReaderStep.setCell {j : Nat} (hj : j < Config.numCells) (hT : T j) (p : Prob) (b : Bool) :
    ReaderStep P T s (setCell P s j (adapt P p b)) where
  frame := rfl
  wf h := Cells.wf_setCell h hj _
  range hP h hr i hi := by
    rw [cellAt_setCell h]
    split
    · exact adapt_inRange hP _ _
    · exact hr i hi
  kept h i hi := by
    rw [cellAt_setCell h, if_neg (by rintro rfl; exact hi hT)]
  cursor h := ⟨BitVec.le_refl _, h, by simp [Machine.setCell]⟩

/-! ### Renorm -/

/-- What `Renorm(x)` can do (40_bitreader.md R122). -/
theorem renorm_cases (x : Nat) (s : State) :
    (P.renormLow ≤ x ∧ renorm P x s = .ok () (s.setAcc s.accB (BitVec.ofNat 64 x))) ∨
    (x < P.renormLow ∧ P.refillBytes ≤ (bytesRemaining s).toNat ∧
      renorm P x s = .ok () ((s.setCur (s.cur + BitVec.ofNat 64 P.refillBytes)).setAcc s.accB
        (BitVec.ofNat 64 ((x <<< P.refillBits) ||| srcWord P s s.cur P.refillBytes)))) ∨
    (x < P.renormLow ∧ (bytesRemaining s).toNat < P.refillBytes ∧ renorm P x s = .raised .truncated s) := by
  unfold renorm
  split
  · split
    · next h1 h2 => exact .inr (.inr ⟨h1, h2, rfl⟩)
    · next h1 h2 => exact .inr (.inl ⟨h1, by omega, rfl⟩)
  · next h => exact .inl ⟨by omega, rfl⟩

theorem supply_mono {k l : Nat} (h : Supply P k s) (hl : l ≤ k) : Supply P l s :=
  ⟨h.1, (Nat.mul_le_mul_left _ hl).trans h.2⟩

theorem ReaderStep.renorm_ok (a b : Acc) : ReaderStep P T s (s.setAcc a b) where
  frame := rfl
  wf h := h
  range _ _ h := h
  kept _ _ _ := rfl
  cursor h := ⟨BitVec.le_refl _, h, by simp⟩

theorem ReaderStep.refill (a b : Acc) (h4 : P.refillBytes ≤ (bytesRemaining s).toNat) :
    ReaderStep P T s ((s.setCur (s.cur + BitVec.ofNat 64 P.refillBytes)).setAcc a b) where
  frame := rfl
  wf h := h
  range _ _ h := h
  kept _ _ _ := rfl
  cursor h := by
    simp only [State.setAcc_cur, State.setCur_cur]
    unfold bytesRemaining at h4
    have e : (s.cur + BitVec.ofNat 64 P.refillBytes - s.cur).toNat = P.refillBytes := by bv_omega
    exact ⟨by bv_omega, by bv_omega, e.symm ▸ Nat.dvd_refl _⟩

/-- What a symbol decoder that starts in `s` and performs at most `k` primitives can do: answer a value that
satisfies `Q` after a `ReaderStep`, or raise `Truncated` after one, which it does not with bytes left for `k`
refills. Each primitive takes at most one. -/
def Reads {α : Type} (P : Params) (T : Nat → Prop) (k : Nat) (s : State) (r : Res α) (Q : α → Prop) : Prop :=
  r.Post (fun v t => Q v ∧ ReaderStep P T s t ∧ ∀ n, Supply P (k + n) s → Supply P n t)
    (fun c t => c = .truncated ∧ ReaderStep P T s t ∧ ¬Supply P k s)

theorem Reads.pure {α : Type} {Q : α → Prop} {v : α} (h : Q v) : Reads P T 0 s (.ok v s) Q :=
  ⟨h, ReaderStep.refl _ _ _, fun _ h => by simpa using h⟩

theorem Reads.mono {α : Type} {k l : Nat} {T' : Nat → Prop} {r : Res α} {Q Q' : α → Prop} (h : Reads P T k s r Q)
    (hl : k ≤ l) (hT : ∀ j, T j → T' j) (hQ : ∀ v, Q v → Q' v) : Reads P T' l s r Q' :=
  Res.Post.mono h (fun v _ g => ⟨hQ v g.1, g.2.1.weaken hT, fun n hn => g.2.2 n (supply_mono hn (by omega))⟩)
    (fun _ _ g => ⟨g.1, g.2.1.weaken hT, fun hs => g.2.2 (supply_mono hs hl)⟩)

/-- One decoder after another. -/
theorem Reads.bind {α β : Type} {k l : Nat} {r : Res α} {f : α → State → Res β} {Q : α → Prop} {Q' : β → Prop}
    (h : Reads P T k s r Q) (hf : ∀ v t, Q v → ReaderStep P T s t → Reads P T l t (f v t) Q') :
    Reads P T (k + l) s (r.bind f) Q' := by
  apply Res.Post.bind
  refine Res.Post.mono h (fun v t g => ?_) (fun _ _ g => ⟨g.1, g.2.1, fun hs => g.2.2 (supply_mono hs (by omega))⟩)
  refine Res.Post.mono (hf v t g.1 g.2.1) (fun _ _ w => ⟨w.1, g.2.1.trans w.2.1, fun n hn => ?_⟩)
    (fun _ _ w => ⟨w.1, g.2.1.trans w.2.1, fun hs => w.2.2 (g.2.2 l hs)⟩)
  exact w.2.2 n (g.2.2 (l + n) (supply_mono hn (by omega)))

/-- A last computation that touches no state. -/
theorem Reads.map {α β : Type} {k : Nat} {r : Res α} {f : α → β} {Q : α → Prop} {Q' : β → Prop}
    (h : Reads P T k s r Q) (hf : ∀ v, Q v → Q' (f v)) : Reads P T k s (r.bind fun v t => .ok (f v) t) Q' :=
  Reads.bind (l := 0) h fun v _ hv _ => Reads.pure (hf v hv)

/-- With bytes for `k` primitives a decoder of at most `k` answers. -/
theorem Reads.supplied {α : Type} {k n : Nat} {r : Res α} {Q : α → Prop} (h : Reads P T k s r Q)
    (hs : Supply P (k + n) s) : ∃ v t, r = .ok v t ∧ Q v ∧ ReaderStep P T s t ∧ Supply P n t := by
  cases r with
  | ok v t => exact ⟨v, t, rfl, h.1, h.2.1, h.2.2 n hs⟩
  | raised c t => exact absurd (supply_mono hs (by omega)) h.2.2

theorem Reads.of_ok {α : Type} {k : Nat} {r : Res α} {Q : α → Prop} {v : α} (h : Reads P T k s r Q)
    (hr : r = .ok v t) : Q v ∧ ReaderStep P T s t := by subst hr; exact ⟨h.1, h.2.1⟩

theorem Reads.of_raised {α : Type} {k : Nat} {r : Res α} {Q : α → Prop} {c : Cause} (h : Reads P T k s r Q)
    (hr : r = .raised c t) : c = .truncated ∧ ReaderStep P T s t := by subst hr; exact ⟨h.1, h.2.1⟩

theorem renorm_reads (T : Nat → Prop) (x : Nat) (s : State) : Reads P T 1 s (renorm P x s) fun _ => True := by
  rcases renorm_cases (P := P) x s with ⟨-, h⟩ | ⟨-, h4, h⟩ | ⟨-, h4, h⟩ <;> rw [h]
  · refine ⟨trivial, ReaderStep.renorm_ok _ _, fun n hn => ?_⟩
    exact supply_mono (k := 1 + n) hn (by omega)
  · refine ⟨trivial, ReaderStep.refill _ _ h4, fun n hn => ?_⟩
    have h1 := hn.1
    have h2 := hn.2
    rw [Nat.mul_add, Nat.mul_one] at h2
    unfold Supply bytesRemaining at *
    simp only [State.setAcc_cur, State.setAcc_lim, State.setCur_cur, State.setCur_lim]
    generalize P.refillBytes * n = m at *
    constructor <;> bv_omega
  · exact ⟨rfl, ReaderStep.refl _ _ _, fun hs => by have := hs.2; rw [Nat.mul_one] at this; omega⟩

/-! ### DecodeBit and ReadBits -/

/-- The bit of a decision, with the numbers of 40_bitreader.md R123. -/
theorem bitOf_eq (x p : Nat) : bitOf x p = decide (p ≤ x % 2 ^ 15) := rfl

/-- The rest of a decision, with the numbers of 40_bitreader.md R123. -/
theorem bitRest_eq (x p : Nat) :
    bitRest x p = if p ≤ x % 2 ^ 15 then (0x8000 - p) * (x / 2 ^ 15) + (x % 2 ^ 15 - p)
      else p * (x / 2 ^ 15) + x % 2 ^ 15 := by
  unfold bitRest Config.probOne Config.probBits
  simp only [bitOf_eq, Nat.shiftRight_eq_div_pow, decide_eq_true_eq]

/-- What `DecodeBit` on a cell of CTX can do (40_bitreader.md R123). -/
theorem decodeBit_reads {j : Nat} (hj : j < Config.numCells) (hT : T j) (s : State) :
    Reads P T 1 s (decodeBit P j s) fun _ => True := by
  have first := ReaderStep.setCell (P := P) (s := s) hj hT (cellAt P s j)
    (bitOf s.accA.toNat (cellAt P s j).toNat)
  apply Res.Post.bind
  exact Res.Post.mono (renorm_reads T _ _) (fun _ _ h => ⟨trivial, first.trans h.2.1, fun n hn => h.2.2 n hn⟩)
    (fun _ _ h => ⟨h.1, first.trans h.2.1, fun hs => h.2.2 hs⟩)

/-- The bit `DecodeBit` answers depends only on ACC_A and the cell. -/
theorem decodeBit_val {j : Nat} {b : Bool} (h : decodeBit P j s = .ok b t) :
    b = bitOf s.accA.toNat (cellAt P s j).toNat := by
  unfold decodeBit at h
  obtain ⟨_, _, -, h⟩ := Res.bind_eq_ok.mp h
  cases h; rfl

/-- What `ReadBits(n)` can do (40_bitreader.md R124). -/
theorem readBits_reads (T : Nat → Prop) (n : Nat) (s : State) :
    Reads P T 1 s (readBits P n s) fun v => v < 2 ^ n := by
  unfold readBits
  exact Reads.map (renorm_reads T _ s) fun _ _ => Nat.mod_lt _ (Nat.two_pow_pos n)

/-! ### Tree decode -/

/-- The decisions of a tree at `base`: its nodes 1 to `n - 1`. -/
def InTree (base n j : Nat) : Prop := base < j ∧ j < base + n

theorem decodeTreeFrom_reads {base n : Nat} (hb : base + n ≤ Config.numCells) (hT : ∀ j, InTree base n j → T j)
    (depth node : Nat) (h0 : 0 < node) (hn : (node + 1) * 2 ^ depth ≤ 2 * n) (s : State) :
    Reads P T depth s (decodeTreeFrom P base depth node s)
      fun v => node * 2 ^ depth ≤ v ∧ v < (node + 1) * 2 ^ depth := by
  induction depth generalizing node s with
  | zero => exact Reads.pure ⟨by simp, by simp⟩
  | succ d ih =>
    have hp : 0 < 2 ^ d := Nat.two_pow_pos d
    rw [Nat.pow_succ] at hn
    have hnode : node < n := by nlinarith
    refine Reads.mono (k := 1 + d) (Q := fun v => node * 2 ^ (d + 1) ≤ v ∧ v < (node + 1) * 2 ^ (d + 1))
      (Reads.bind (decodeBit_reads (j := base + node) (T := T) (by omega) (hT _ ⟨by omega, by omega⟩) s)
        fun b t _ _ => ?_) (by omega) (fun _ h => h) (fun _ h => h)
    have hbit : b.toNat ≤ 1 := Bool.toNat_le b
    refine Reads.mono (ih (2 * node + b.toNat) (by omega) (by nlinarith) t) le_rfl (fun _ h => h) ?_
    rintro v ⟨h1, h2⟩
    rw [Nat.pow_succ]
    constructor <;> nlinarith

/-- What `DecodeTree(slots, depth)` can do (41_models.md R143): the symbol is below 2^depth, and only decisions of
the tree are adapted. -/
theorem decodeTree_reads {base depth : Nat} (hb : base + 2 ^ depth ≤ Config.numCells)
    (hT : ∀ j, InTree base (2 ^ depth) j → T j) (s : State) :
    Reads P T depth s (decodeTree P base depth s) fun v => v < 2 ^ depth := by
  unfold decodeTree
  exact Reads.map (decodeTreeFrom_reads hb hT depth 1 (by omega) (by omega) s) fun v h => by omega

/-- What `DecodeNibble` can do (41_models.md R144). -/
theorem decodeNibble_reads {base : Nat} (hb : base + 16 ≤ Config.numCells) (hT : ∀ j, InTree base 16 j → T j)
    (s : State) : Reads P T 4 s (decodeNibble P base s) fun v => v < 16 :=
  decodeTree_reads (depth := 4) hb hT s

/-- What `Decode3` can do (41_models.md R145). -/
theorem decode3_reads {base : Nat} (hb : base + 8 ≤ Config.numCells) (hT : ∀ j, InTree base 8 j → T j)
    (s : State) : Reads P T 3 s (decode3 P base s) fun v => v < 8 :=
  decodeTree_reads (depth := 3) hb hT s

/-! ### ReaderInit -/

/-- What `ReaderInit()` can do (40_bitreader.md R121). -/
theorem readerInit_cases (s : State) :
    (P.headerBytes ≤ (s.argSrcEnd - s.argSrc).toNat ∧
      readerInit P s = .ok () (((s.setReader s.argSrc s.argSrcEnd).setAcc
        (BitVec.ofNat 64 (srcWord P s s.argSrc P.headerWord))
        (BitVec.ofNat 64 (srcWord P s (s.argSrc + BitVec.ofNat 64 P.headerWord) P.headerWord))).setCur
          (s.argSrc + BitVec.ofNat 64 P.headerBytes))) ∨
    ((s.argSrcEnd - s.argSrc).toNat < P.headerBytes ∧
      readerInit P s = .raised .truncated (s.setReader s.argSrc s.argSrcEnd)) := by
  unfold readerInit
  by_cases h : (s.argSrcEnd - s.argSrc).toNat < P.headerBytes
  · exact .inr ⟨h, if_pos h⟩
  · exact .inl ⟨by omega, if_neg h⟩

end Sys2Proof.Machine
end

