-- ==== Sys2Proof/Laws/Operands.lean ====
section
/-! SUPPORT. What the operand decoders can do, and the cells each may adapt. -/

namespace Sys2Proof.Machine

open Sys2Proof.Config (Params)
open Sys2Proof.Safety

variable {P : Params} {T : Nat → Prop} {s t : State}

/-! ### The cells of an operand -/

/-- The decisions of a length. -/
def LenCell (j : Nat) : Prop :=
  InTree medLenBase 8 j ∨ InTree (longLenBase 0) 16 j ∨ InTree (longLenBase 1) 16 j ∨ InTree (longLenBase 2) 16 j

/-- The decisions of a near distance. -/
def NearCell (k j : Nat) : Prop := InTree (nearFirstBase k) 16 j ∨ InTree (nearLowBase k) 4 j

/-- The decisions of a far distance. -/
def FarCell (j : Nat) : Prop :=
  InTree farHiBase 16 j ∨ ∃ h, h < 16 ∧ (InTree (farLoBase h) 16 j ∨ InTree (farRefBase h) (2 ^ min h 4) j)

/-- The decisions of a literal byte. -/
def LitCell (c j : Nat) : Prop :=
  InTree (litUpperBase c) 16 j ∨ InTree (litLowerBase c) 16 j ∨ InTree (litNomatchBase c) 16 j

theorem lenCell_consulted {j : Nat} (h : LenCell j) : Consulted j := by
  unfold LenCell InTree medLenBase longLenBase at h
  rcases h with h | h | h | h
  · exact ⟨.medLen ⟨j - 1272, by omega⟩, by simp [onPath]; omega, by simp [cellIndex, medLenBase]; omega⟩
  · exact ⟨.longLen 0 ⟨j - 1281, by omega⟩, by simp [onPath]; omega, by simp [cellIndex, longLenBase]; omega⟩
  · exact ⟨.longLen 1 ⟨j - 1298, by omega⟩, by simp [onPath]; omega, by simp [cellIndex, longLenBase]; omega⟩
  · exact ⟨.longLen 2 ⟨j - 1315, by omega⟩, by simp [onPath]; omega, by simp [cellIndex, longLenBase]; omega⟩

theorem nearCell_consulted {k j : Nat} (hk : k < 2) (h : NearCell k j) : Consulted j := by
  unfold NearCell InTree nearFirstBase nearLowBase at h
  rcases h with h | h
  · exact ⟨.nearFirst ⟨k, hk⟩ ⟨j - (1332 + 21 * k), by omega⟩, by simp [onPath]; omega,
      by simp [cellIndex, nearFirstBase]; omega⟩
  · exact ⟨.nearLow ⟨k, hk⟩ ⟨j - (1332 + 21 * k + 17), by omega⟩, by simp [onPath]; omega,
      by simp [cellIndex, nearLowBase]; omega⟩

theorem farCell_consulted {j : Nat} (h : FarCell j) : Consulted j := by
  unfold FarCell InTree farHiBase farLoBase farRefBase at h
  rcases h with h | ⟨k, hk, h | h⟩
  · exact ⟨.farHi ⟨j - 1374, by omega⟩, by simp [onPath]; omega, by simp [cellIndex, farHiBase]; omega⟩
  · exact ⟨.farLo ⟨k, hk⟩ ⟨j - (1391 + 17 * k), by omega⟩, by simp [onPath]; omega,
      by simp [cellIndex, farLoBase]; omega⟩
  · have : 2 ^ min k 4 ≤ 2 ^ 4 := Nat.pow_le_pow_right (by omega) (by omega)
    exact ⟨.farRef ⟨k, hk⟩ ⟨j - (1663 + 16 * k), by omega⟩, by simp only [onPath, decide_eq_true_eq]; omega,
      by simp [cellIndex, farRefBase]; omega⟩

theorem litCell_consulted {c j : Nat} (hc : c < 8) (h : LitCell c j) : Consulted j := by
  unfold LitCell InTree litUpperBase litLowerBase litNomatchBase at h
  rcases h with h | h | h
  · exact ⟨.litUpper ⟨c, hc⟩ ⟨j - (1919 + 51 * c), by omega⟩, by simp [onPath]; omega,
      by simp [cellIndex, litUpperBase]; omega⟩
  · exact ⟨.litLower ⟨c, hc⟩ ⟨j - (1919 + 51 * c + 17), by omega⟩, by simp [onPath]; omega,
      by simp [cellIndex, litLowerBase]; omega⟩
  · exact ⟨.litNomatch ⟨c, hc⟩ ⟨j - (1919 + 51 * c + 34), by omega⟩, by simp [onPath]; omega,
      by simp [cellIndex, litNomatchBase]; omega⟩

theorem typeCell_consulted {d : DecState} {j : Nat} (h : InTree (typeBase d) 16 j) : Consulted j := by
  unfold InTree typeBase at h
  exact ⟨.typeSlot d ⟨j - (96 + 17 * d.val), by omega⟩, by simp [onPath]; omega,
    by simp [cellIndex, typeBase]; omega⟩

theorem slotCell_consulted {d : DecState} {j : Nat} (h : InTree (repSlotBase d) 8 j) : Consulted j := by
  unfold InTree repSlotBase at h
  exact ⟨.repSlot d ⟨j - (300 + 9 * d.val), by omega⟩, by simp [onPath]; omega,
    by simp [cellIndex, repSlotBase]; omega⟩

theorem shortLenCell_consulted {d : DecState} {k j : Nat} (hk : k < 8) (h : InTree (shortLenBase d k) 8 j) :
    Consulted j := by
  unfold InTree shortLenBase at h
  exact ⟨.shortLen d ⟨k, hk⟩ ⟨j - (408 + 9 * (8 * d.val + k)), by omega⟩, by simp [onPath]; omega,
    by simp [cellIndex, shortLenBase]; omega⟩

theorem isLitCell_consulted (d : DecState) {q : Nat} (hq : q < 8) : Consulted (isLitCell d q) :=
  ⟨.isLit d ⟨q, hq⟩, rfl, rfl⟩

/-! ### Length and distance -/

/-- The length of symbols that can be decoded (30_encoding.md R96). -/
theorem lenValue_bounds (hw : P.AsWritten) {y : LenSymbols} (hy : y.valid = true) :
    2 ≤ lenValue P y ∧ lenValue P y ≤ 54 := by
  cases y <;> simp only [LenSymbols.valid, decide_eq_true_eq] at hy <;>
    simp only [lenValue, hw.minLen, hw.longBase1, hw.longBase2, hw.longBase3] <;> omega

/-- What `DecodeLen` can do (43_match.md R172): its answer is the value of symbols that can be decoded. -/
theorem decodeLen_symbols (s : State) :
    Reads P LenCell 15 s (decodeLen P s) fun n => ∃ y : LenSymbols, y.valid = true ∧ n = lenValue P y := by
  let Q := fun n => ∃ y : LenSymbols, y.valid = true ∧ n = lenValue P y
  have last : ∀ {k : Nat} (t : State) (y : LenSymbols), y.valid = true →
      Reads P LenCell k t (.ok (lenValue P y) t) Q :=
    fun t y hy => Reads.mono (Reads.pure (Q := Q) ⟨y, hy, rfl⟩) (Nat.zero_le _) (fun _ h => h) (fun _ h => h)
  unfold decodeLen
  refine Reads.bind (k := 3) (l := 12) (decode3_reads (by decide) (fun _ h => .inl h) s) fun m t hm _ => ?_
  split
  · next h => exact last t (.medium m) (decide_eq_true h)
  refine Reads.bind (k := 4) (l := 8) (decodeNibble_reads (by decide) (fun _ h => .inr (.inl h)) t) fun n1 t hn _ => ?_
  split
  · next h => exact last t (.long1 n1) (decide_eq_true h)
  refine Reads.bind (k := 4) (l := 4) (decodeNibble_reads (by decide) (fun _ h => .inr (.inr (.inl h))) t)
    fun n2 t hn _ => ?_
  split
  · next h => exact last t (.long2 n2) (decide_eq_true h)
  exact Reads.map (decodeNibble_reads (by decide) (fun _ h => .inr (.inr (.inr h))) t)
    fun n3 hn => ⟨.long3 n3, decide_eq_true (by omega), rfl⟩

/-- The lengths that `DecodeLen` can answer (43_match.md R172). -/
theorem decodeLen_reads (hw : P.AsWritten) (s : State) :
    Reads P LenCell 15 s (decodeLen P s) fun n => 2 ≤ n ∧ n ≤ 54 :=
  (decodeLen_symbols s).mono le_rfl (fun _ h => h) (by rintro _ ⟨y, hy, rfl⟩; exact lenValue_bounds hw hy)

/-- The far distance of symbols in range (30_encoding.md R97). -/
theorem farValue_bounds {hi lo r : Nat} (hh : hi < 16) (hl : lo < 16) (hr : r < 2 ^ hi) :
    1 ≤ farValue hi lo r ∧ farValue hi lo r ≤ 1048560 := by
  unfold farValue
  rw [Nat.shiftLeft_eq]
  have h2 : 2 ^ hi ≤ 2 ^ 15 := Nat.pow_le_pow_right (by omega) (by omega)
  have h1 : 0 < 2 ^ hi := Nat.two_pow_pos hi
  have h3 : (16 + lo) * 2 ^ hi ≤ 31 * 2 ^ hi := Nat.mul_le_mul_right _ (by omega)
  have h4 : 16 * 2 ^ hi ≤ (16 + lo) * 2 ^ hi := Nat.mul_le_mul_right _ (by omega)
  omega

theorem shiftLeft4_or {a b : Nat} (hb : b < 16) : (a <<< 4) ||| b = 16 * a + b := by
  rw [Nat.shiftLeft_eq, Nat.mul_comm, show (2 : Nat) ^ 4 * a = 2 ^ 4 * a from rfl,
    ← Nat.two_pow_add_eq_or_of_lt (i := 4) (by omega)]

/-- What the refinement of a far distance can do (43_match.md R174). -/
theorem decodeFarRest_reads (hw : P.AsWritten) {hi : Nat} (hh : hi < 16) (s : State) :
    Reads P FarCell 5 s (decodeFarRest P hi s) fun r => r < 2 ^ hi := by
  have tree : ∀ j, InTree (farRefBase hi) (2 ^ min hi 4) j → FarCell j := fun j h => .inr ⟨hi, hh, .inr h⟩
  unfold decodeFarRest
  rw [hw.farTreeBits]
  split
  · next h => subst h; exact Reads.mono (Reads.pure (Q := fun r => r < 2 ^ 0) (by simp)) (by omega) (fun _ h => h) (fun _ h => h)
  · split
    · next h =>
      have hb : farRefBase hi + 2 ^ hi ≤ Config.numCells := by
        have : 2 ^ hi ≤ 2 ^ 4 := Nat.pow_le_pow_right (by omega) h
        unfold farRefBase Config.numCells; omega
      exact Reads.mono (decodeTree_reads hb (fun j hj => tree j (by rwa [Nat.min_eq_left h])) s) (by omega)
        (fun _ h => h) (fun _ h => h)
    · next h =>
      refine Reads.bind (k := 1) (l := 4) (readBits_reads _ _ s) fun rh t hrh _ => ?_
      refine Reads.map (decodeTree_reads (by unfold farRefBase Config.numCells; omega)
        (fun j hj => tree j (by rwa [Nat.min_eq_right (by omega)])) t) fun rl hrl => ?_
      rw [shiftLeft4_or (by omega)]
      obtain ⟨e, rfl⟩ : ∃ e, hi = e + 4 := ⟨hi - 4, by omega⟩
      rw [Nat.add_sub_cancel] at hrh
      rw [Nat.pow_add]; omega

/-- What `DecodeFar` can do (43_match.md R174). -/
theorem decodeFar_reads (hw : P.AsWritten) (s : State) :
    Reads P FarCell 13 s (decodeFar P s) fun d => 1 ≤ d.toNat ∧ d.toNat ≤ 1048560 := by
  unfold decodeFar
  refine Reads.bind (k := 4) (l := 9) (decodeNibble_reads (by decide) (fun _ h => .inl h) s) fun hi t hh _ => ?_
  refine Reads.bind (k := 4) (l := 5) (decodeNibble_reads (by unfold farLoBase Config.numCells; omega)
    (fun _ h => .inr ⟨hi, hh, .inl h⟩) t) fun lo t hl _ => ?_
  refine Reads.map (decodeFarRest_reads hw hh t) fun r hr => ?_
  have h := farValue_bounds hh hl hr
  rw [BitVec.toNat_ofNat, Nat.mod_eq_of_lt (by omega)]
  exact h

/-- The near delta of a 6-bit symbol is not 0 and at most 32 either way (30_encoding.md R98). -/
theorem nearDelta_bounds {v : Nat} (hv : v < 64) :
    nearDelta v ≠ 0 ∧ -32 ≤ nearDelta v ∧ nearDelta v ≤ 32 := by
  unfold nearDelta
  simp only [Nat.shiftRight_eq_div_pow]
  split <;> omega

/-- What `DecodeNear(k)` can do where the history has an entry `k` (43_match.md R173): the six bits, then the
distance or `InvalidDistance`. -/
theorem decodeNear_post (hw : P.AsWritten) {k : Nat} (hk : k < 2) (hlen : k < s.histLen.toNat) :
    (decodeNear P k s).Post
      (fun d t => IsNear (histAt s k) d ∧ ReaderStep P (NearCell k) s t ∧ ∀ n, Supply P (6 + n) s → Supply P n t)
      (fun c t => ReaderStep P (NearCell k) s t ∧
        (c = .truncated ∧ ¬Supply P 6 s ∨
          c = .invalidDistance ∧ ((histAt s k).toNat ≤ 32 ∨ 2 ^ 32 ≤ (histAt s k).toNat + 32))) := by
  unfold decodeNear
  rw [if_neg (by omega), hw.nearLowBits, hw.distW]
  have h1 : Reads P (NearCell k) 4 s (decodeNibble P (nearFirstBase k) s) fun v => v < 16 :=
    decodeNibble_reads (by unfold nearFirstBase Config.numCells; omega) (fun _ h => .inl h) s
  apply Res.Post.bind
  refine Res.Post.mono h1 (fun e t g => ?_) (fun c t g => ⟨g.2.1, .inl ⟨g.1, fun h => g.2.2 (supply_mono h (by omega))⟩⟩)
  obtain ⟨he, hst, hsup⟩ := g
  have h2 : Reads P (NearCell k) 2 t (decodeTree P (nearLowBase k) 2 t) fun v => v < 2 ^ 2 :=
    decodeTree_reads (by unfold nearLowBase Config.numCells; omega) (fun _ h => .inr h) t
  apply Res.Post.bind
  refine Res.Post.mono h2 (fun lw u g => ?_)
    (fun c u g => ⟨hst.trans g.2.1, .inl ⟨g.1, fun h => g.2.2 (hsup 2 h)⟩⟩)
  obtain ⟨hl, hstu, hsupu⟩ := g
  have step := hst.trans hstu
  have hd := nearDelta_bounds (v := 2 ^ 2 * e + lw) (by omega)
  have hh : histAt u k = histAt s k := by unfold histAt; rw [step.frame]
  simp only
  rw [hh]
  unfold nearSum
  have hlt := (histAt s k).isLt
  split
  · next h => exact ⟨step, .inr ⟨rfl, by omega⟩⟩
  · next h =>
    refine ⟨?_, step, fun n hn => hsupu n (hsup (2 + n) (supply_mono hn (by omega)))⟩
    obtain ⟨m, hm⟩ : ∃ m : Nat, ((histAt s k).toNat : Int) + nearDelta (2 ^ 2 * e + lw) = m :=
      ⟨(((histAt s k).toNat : Int) + nearDelta (2 ^ 2 * e + lw)).toNat, by omega⟩
    rw [hm]
    have hb : (BitVec.ofInt 32 (m : Int)).toNat = m := by
      rw [BitVec.toNat_ofInt]; omega
    have ne : ∀ d : Dist, d.toNat ≠ m → BitVec.ofInt 32 (m : Int) ≠ d := fun d hd e => hd (by rw [← e, hb])
    refine ⟨ne _ (by omega), ne _ ?_, by omega, by omega⟩
    change 0 ≠ m; omega

/-! ### The literal byte -/

/-- What `LitPlain` can do (42_literal.md R162): only `nomatch` decisions are adapted. -/
theorem litPlain_reads {c : Nat} (hc : c < 8) (s : State) :
    Reads P (InTree (litNomatchBase c) 16) 8 s (litPlain P c s) fun _ => True := by
  unfold litPlain
  have nib := fun u => decodeNibble_reads (P := P) (T := InTree (litNomatchBase c) 16) (base := litNomatchBase c)
    (by unfold litNomatchBase Config.numCells; omega) (fun _ h => h) u
  exact Reads.bind (k := 4) (l := 4) (nib s) fun hi t _ _ => Reads.map (nib t) fun _ _ => trivial

theorem litMatchedBits_reads {base plain : Nat} (pm : BitVec 4) (hb : base + 16 ≤ Config.numCells)
    (hp : plain + 16 ≤ Config.numCells) (hT : ∀ j, InTree base 16 j ∨ InTree plain 16 j → T j)
    (n node : Nat) (matched : Bool) (h0 : 0 < node) (hn : (node + 1) * 2 ^ n ≤ 32) (s : State) :
    Reads P T n s (litMatchedBits P base plain pm n node matched s) fun _ => True := by
  induction n generalizing node matched s with
  | zero => exact Reads.pure trivial
  | succ d ih =>
    have h2 : 0 < 2 ^ d := Nat.two_pow_pos d
    rw [Nat.pow_succ] at hn
    have hnode : node < 16 := by nlinarith
    have next : ∀ (b m : Bool) (t : State),
        Reads P T d t (litMatchedBits P base plain pm d (2 * node + b.toNat) m t) fun _ => True := by
      intro b m t
      have hbit : b.toNat ≤ 1 := Bool.toNat_le b
      exact ih (2 * node + b.toNat) m (by omega) (by nlinarith) t
    cases matched with
    | true =>
      exact Reads.mono (k := 1 + d) (Reads.bind (decodeBit_reads (j := base + node) (T := T) (by omega)
        (hT _ (.inl ⟨by omega, by omega⟩)) s) fun e t _ _ => next _ _ t) (by omega) (fun _ h => h) (fun _ h => h)
    | false =>
      exact Reads.mono (k := 1 + d) (Reads.bind (decodeBit_reads (j := plain + node) (T := T) (by omega)
        (hT _ (.inr ⟨by omega, by omega⟩)) s) fun e t _ _ => next _ _ t) (by omega) (fun _ h => h) (fun _ h => h)

/-- What `LitMatched` can do (42_literal.md R163): only decisions of the one LiteralModel are adapted. -/
theorem litMatched_reads {c : Nat} (hc : c < 8) (m : Byte) (s : State) :
    Reads P (LitCell c) 8 s (litMatched P c m s) fun _ => True := by
  unfold litMatched
  refine Reads.bind (k := 4) (l := 4) (litMatchedBits_reads _ (by unfold litUpperBase Config.numCells; omega)
    (by unfold litNomatchBase Config.numCells; omega) (fun j h => ?_) 4 1 true (by omega) (by omega) s)
    fun hi t _ _ => ?_
  · rcases h with h | h
    · exact .inl h
    · exact .inr (.inr h)
  · refine Reads.map (litMatchedBits_reads _ (by unfold litLowerBase Config.numCells; omega)
      (by unfold litNomatchBase Config.numCells; omega) (fun j h => .inr h) 4 1 hi.2 (by omega) (by omega) t)
      fun _ _ => trivial

/-- The LiteralModel, with the numbers of 42_literal.md R160. -/
theorem litContext_eq (hw : P.AsWritten) (s : State) : litContext P s = (prevByte s).toNat / 32 := by
  rw [litContext, hw.litCtxBits, Nat.shiftRight_eq_div_pow]

theorem litContext_lt (hw : P.AsWritten) (s : State) : litContext P s < 8 := by
  have := (prevByte s).isLt
  rw [litContext_eq hw]; omega

/-- What decoding the byte of a LIT can do (42_literal.md R160). -/
theorem litByte_reads (hw : P.AsWritten) (s : State) :
    Reads P (LitCell (litContext P s)) 8 s (litByte P s) fun _ => True := by
  unfold litByte
  split
  · exact litMatched_reads (litContext_lt hw s) _ s
  · exact Reads.mono (litPlain_reads (litContext_lt hw s) s) le_rfl (fun _ h => .inr (.inr h)) (fun _ h => h)

/-! ### Selector and slot -/

/-- The decisions of a selector. -/
def SelectorCell (P : Params) (s : State) (j : Nat) : Prop :=
  j = isLitCell s.dstate (posIndex P s) ∨ InTree (typeBase s.dstate) 16 j

/-- The positional index, with the numbers of 44_quantum_loop.md R203. -/
theorem posIndex_eq (hw : P.AsWritten) (s : State) : posIndex P s = windowSize s % 8 := by
  rw [posIndex, hw.posBits, show 2 ^ 3 = 8 from rfl]

theorem posIndex_lt (hw : P.AsWritten) (s : State) : posIndex P s < 8 := by
  rw [posIndex_eq hw]; exact Nat.mod_lt _ (by omega)

theorem isLitCell_lt (hw : P.AsWritten) (s : State) : isLitCell s.dstate (posIndex P s) < Config.numCells := by
  have := posIndex_lt hw s
  unfold isLitCell Config.numCells; omega

theorem typeBase_le (s : State) : typeBase s.dstate + 16 ≤ Config.numCells := by
  unfold typeBase Config.numCells; omega

theorem repSlot_reads (s : State) :
    Reads P (InTree (repSlotBase s.dstate) 8) 3 s (decode3 P (repSlotBase s.dstate) s) fun v => v < 8 :=
  decode3_reads (by unfold repSlotBase Config.numCells; omega) (fun _ h => h) s

theorem shortLen_reads {k : Nat} (d : DecState) (hk : k < 8) (s : State) :
    Reads P (InTree (shortLenBase d k) 8) 3 s (decode3 P (shortLenBase d k) s) fun v => v < 8 :=
  decode3_reads (by unfold shortLenBase Config.numCells; omega) (fun _ h => h) s

end Sys2Proof.Machine
end

