-- ==== Sys2Proof/Laws/Match.lean ====
section
/-! SUPPORT. The history, the window copy and the tail of every match: what each can do. -/

namespace Sys2Proof.Machine

open Sys2Proof.Config (Params)
open Sys2Proof.Safety

variable {P : Params} {T : Nat → Prop} {s t u : State}

/-! ### HistInsert -/

theorem histAt_congr (h : t.hist = s.hist) (i : Nat) : histAt t i = histAt s i := by unfold histAt; rw [h]

theorem histAt_ge (s : State) {i : Nat} (h : 8 ≤ i) : histAt s i = 0 := by
  unfold histAt; rw [Vector.getElem?_eq_none h]; rfl

theorem histAt_histShift (s : State) (n : Nat) (d : Dist) (m : BitVec 4) {i : Nat} (h : i < 8) :
    histAt (s.setHist (histShift s n d) m) i =
      if i = 0 then d else if i ≤ n then histAt s (i - 1) else histAt s i := by
  unfold histAt histShift
  simp only [State.setHist_hist]
  rw [Vector.getElem?_eq_getElem h, Vector.getElem_ofFn]
  rfl

/-- `histFind` answers a position of `d` among the valid entries, if there is one. -/
theorem histFind_some {d : Dist} {j : Nat} (h : histFind s d = some j) :
    j < 8 ∧ j < s.histLen.toNat ∧ histAt s j = d := by
  unfold histFind at h
  have h1 := List.find?_some h
  have h2 := List.mem_of_find?_eq_some h
  simp only [Bool.and_eq_true, decide_eq_true_eq] at h1
  exact ⟨List.mem_range.mp h2, h1⟩

theorem histFind_none {d : Dist} (h : histFind s d = none) {j : Nat} (h8 : j < 8) (hj : j < s.histLen.toNat) :
    histAt s j ≠ d := by
  unfold histFind at h
  rw [List.find?_eq_none] at h
  have := h j (List.mem_range.mpr h8)
  simp only [Bool.and_eq_true, decide_eq_true_eq, not_and] at this
  exact this hj

/-- What `HistInsert(d)` does (43_match.md R176): `d` comes first, the entries before position `n` move down by one,
the others stay; `n` is where `d` was, or the end of the list. -/
theorem histInsert_cases (d : Dist) (s : State) :
    ∃ n : Nat, ∃ m : BitVec 4, n < 8 ∧ histInsert d s = s.setHist (histShift s n d) m ∧
      ((n < s.histLen.toNat ∧ histAt s n = d ∧ m = s.histLen) ∨
        ((∀ j, j < 8 → j < s.histLen.toNat → histAt s j ≠ d) ∧ n = min s.histLen.toNat 7 ∧
          m.toNat = min (s.histLen.toNat + 1) 8)) := by
  unfold histInsert
  cases h : histFind s d with
  | some j =>
    have := histFind_some h
    exact ⟨j, s.histLen, this.1, rfl, .inl ⟨this.2.1, this.2.2, rfl⟩⟩
  | none =>
    refine ⟨min s.histLen.toNat 7, BitVec.ofNat 4 (min (s.histLen.toNat + 1) 8), by omega, rfl, .inr ⟨?_, rfl, ?_⟩⟩
    · exact fun j h8 hj => histFind_none h h8 hj
    · rw [BitVec.toNat_ofNat]; omega

/-- `HistInsert` keeps the history invariant and leaves a history that is not empty (43_match.md R178). -/
theorem histInsert_ok {d : Dist} (hd : d ≠ 0) (h : HistoryOk s) :
    HistoryOk (histInsert d s) ∧ 1 ≤ (histInsert d s).histLen.toNat := by
  obtain ⟨n, m, hn, he, hc⟩ := histInsert_cases d s
  have at' : ∀ i, i < 8 → histAt (histInsert d s) i =
      if i = 0 then d else if i ≤ n then histAt s (i - 1) else histAt s i := by
    intro i hi; rw [he]; exact histAt_histShift s n d m hi
  have hlen : (histInsert d s).histLen = m := by rw [he]; rfl
  rw [hlen]
  have h8 := h.length_le
  have hm : m.toNat ≤ 8 ∧ 1 ≤ m.toNat ∧ n < m.toNat ∧ s.histLen.toNat ≤ m.toNat := by
    rcases hc with ⟨h1, -, rfl⟩ | ⟨-, h2, h3⟩ <;> omega
  -- an entry that moved or stayed is an old one, other than `d`
  have old : ∀ i, 0 < i → i < m.toNat → ∃ k, k < s.histLen.toNat ∧ histAt (histInsert d s) i = histAt s k ∧
      histAt s k ≠ d ∧ ((i ≤ n ∧ k = i - 1) ∨ (n < i ∧ k = i)) := by
    intro i h0 hi
    rw [at' i (by omega), if_neg (by omega)]
    rcases hc with ⟨h1, h2, rfl⟩ | ⟨h1, h2, h3⟩
    · by_cases hin : i ≤ n
      · rw [if_pos hin]
        refine ⟨i - 1, by omega, rfl, ?_, .inl ⟨hin, rfl⟩⟩
        rw [← h2]; exact h.distinct _ _ (by omega) h1
      · rw [if_neg hin]
        refine ⟨i, hi, rfl, ?_, .inr ⟨by omega, rfl⟩⟩
        rw [← h2]; exact (h.distinct _ _ (by omega) hi).symm
    · rw [if_pos (by omega)]
      exact ⟨i - 1, by omega, rfl, h1 _ (by omega) (by omega), .inl ⟨by omega, rfl⟩⟩
  refine ⟨⟨by rw [hlen]; omega, ?_, ?_, ?_⟩, by omega⟩
  · intro i hi
    rw [hlen] at hi
    by_cases h0 : i = 0
    · rw [at' i (by omega), if_pos h0]; exact hd
    · obtain ⟨k, hk, he', -⟩ := old i (by omega) hi
      rw [he']; exact h.nonzero k hk
  · intro i j hij hj
    rw [hlen] at hj
    obtain ⟨k, hk, hjk, hkd, hpos⟩ := old j (by omega) hj
    rw [hjk]
    by_cases h0 : i = 0
    · rw [at' i (by omega), if_pos h0]; exact hkd.symm
    · obtain ⟨l, hl, hil, -, hpos'⟩ := old i (by omega) (by omega)
      rw [hil]; exact h.distinct _ _ (by omega) hk
  · intro i hi
    rw [hlen] at hi
    by_cases hi8 : i < 8
    · rw [at' i hi8, if_neg (by omega), if_neg (by omega)]
      exact h.unused i (by omega)
    · exact histAt_ge _ (by omega)

/-- `HistInsert` writes HIST and HIST_LEN only. -/
theorem histInsert_frame (d : Dist) (s : State) :
    histInsert d s = { s with hist := (histInsert d s).hist, histLen := (histInsert d s).histLen } := by
  obtain ⟨n, m, -, he, -⟩ := histInsert_cases d s
  rw [he]; rfl

/-- `HistInsert` depends on HIST and HIST_LEN only. -/
theorem histInsert_congr (h : t.hist = s.hist) (hl : t.histLen = s.histLen) (d : Dist) :
    (histInsert d t).hist = (histInsert d s).hist ∧ (histInsert d t).histLen = (histInsert d s).histLen := by
  have ha : ∀ i, histAt t i = histAt s i := histAt_congr h
  have hf : histFind t d = histFind s d := by unfold histFind; simp only [ha, hl]
  have hs : ∀ n, histShift t n d = histShift s n d := fun n => by unfold histShift; simp only [ha]
  unfold histInsert
  rw [hf]
  cases histFind s d with
  | some j => exact ⟨hs j, hl⟩
  | none => simp only [State.setHist_hist, State.setHist_histLen, hs, hl, and_self]

/-! ### The window copy -/

theorem dstByte_congr (h : t.dst = s.dst) (a : Addr) : dstByte t a = dstByte s a := by unfold dstByte; rw [h]

/-- Storing one output byte: it is there, no other byte changes, the form is kept. -/
theorem putByte_dst (hw : Memory.wf s.dst = true) (v : Byte) (a : Addr) :
    dstByte (putByte v s) a = if a = s.wp then v else dstByte s a := Memory.read_write hw s.wp a v

theorem putByte_wf (hw : Memory.wf s.dst = true) (v : Byte) : Memory.wf (putByte v s).dst = true :=
  Memory.wf_write hw s.wp v

theorem putByte_wp (v : Byte) (s : State) : (putByte v s).wp = s.wp + 1 := rfl

theorem putByte_frame (v : Byte) (s : State) :
    putByte v s = { s with dst := (putByte v s).dst, wp := (putByte v s).wp } := rfl

theorem copy_succ (len : Nat) (d : Dist) (s : State) :
    copy (len + 1) d s = copy len d (putByte (dstByte s (behind s d)) s) := rfl

/-- `Copy` writes DST and WP only. -/
theorem copy_frame (len : Nat) (d : Dist) (s : State) :
    copy len d s = { s with dst := (copy len d s).dst, wp := (copy len d s).wp } := by
  induction len generalizing s with
  | zero => rfl
  | succ n ih => rw [copy_succ]; exact ih _

/-- `Copy` advances WP by its length. -/
theorem copy_wp (len : Nat) (d : Dist) (s : State) : (copy len d s).wp = s.wp + BitVec.ofNat 64 len := by
  induction len generalizing s with
  | zero => simp [copy]
  | succ n ih => rw [copy_succ, ih, putByte_wp]; bv_omega

theorem copy_wf (hw : Memory.wf s.dst = true) (len : Nat) (d : Dist) : Memory.wf (copy len d s).dst = true := by
  induction len generalizing s with
  | zero => exact hw
  | succ n ih => exact ih (putByte_wf hw _)

/-- `Copy` writes no byte outside the `len` bytes from WP. -/
theorem copy_kept (hw : Memory.wf s.dst = true) (len : Nat) (d : Dist) : DstKeptOutside s.wp len s (copy len d s) := by
  induction len generalizing s with
  | zero => exact fun _ _ => rfl
  | succ n ih =>
    intro a ha
    rw [copy_succ, ih (putByte_wf hw _) a, putByte_dst hw, if_neg]
    · simpa using ha 0 (by omega)
    · intro i hi
      rw [putByte_wp]
      have := ha (i + 1) (by omega)
      intro e; apply this; rw [e]; bv_omega

/-- After `Copy` each of the new bytes equals the byte `d` before it (43_match.md R177). -/
theorem copy_byte (hw : Memory.wf s.dst = true) {len : Nat} {d : Dist} (hl : len + d.toNat ≤ 2 ^ 64) (hd : d ≠ 0)
    {i : Nat}
    (hi : i < len) :
    dstByte (copy len d s) (s.wp + BitVec.ofNat 64 i) =
      dstByte (copy len d s) (s.wp + BitVec.ofNat 64 i - d.setWidth 64) := by
  have hd0 : d.toNat ≠ 0 := fun h => hd (BitVec.eq_of_toNat_eq h)
  have hdlt := d.isLt
  have hdw : (d.setWidth 64).toNat = d.toNat := by rw [BitVec.toNat_setWidth]; omega
  induction len generalizing s i with
  | zero => omega
  | succ n ih =>
    rw [copy_succ]
    have hw' := putByte_wf (s := s) hw (dstByte s (behind s d))
    by_cases h0 : i = 0
    · subst h0
      have kept := copy_kept (s := putByte (dstByte s (behind s d)) s) hw' n d
      rw [kept, kept, putByte_dst hw, putByte_dst hw, if_pos (by simp), if_neg]
      · unfold behind; congr 1; bv_omega
      · intro e; have := congrArg BitVec.toNat e; bv_omega
      · intro k hk e; rw [putByte_wp] at e; have := congrArg BitVec.toNat e; bv_omega
      · intro k hk e; rw [putByte_wp] at e; have := congrArg BitVec.toNat e; bv_omega
    · have := ih (s := putByte (dstByte s (behind s d)) s) hw' (by omega) (i := i - 1) (by omega)
      rw [putByte_wp, show s.wp + 1 + BitVec.ofNat 64 (i - 1) = s.wp + BitVec.ofNat 64 i by bv_omega] at this
      exact this

/-! ### MatchFinish -/

/-- What `MatchFinish` can do (43_match.md R175). -/
theorem matchFinish_cases (next : Vector DecState 12) (len : Nat) (d : Dist) (s : State) :
    ((d = 0 ∨ windowSize s < d.toNat) ∧ matchFinish next len d s = .raised .invalidDistance s) ∨
    (d ≠ 0 ∧ d.toNat ≤ windowSize s ∧ roomLeft s < len ∧ matchFinish next len d s = .raised .outputOverrun s) ∨
    (d ≠ 0 ∧ d.toNat ≤ windowSize s ∧ len ≤ roomLeft s ∧
      matchFinish next len d s = .ok () ((histInsert d (copy len d s)).setDstate next[s.dstate])) := by
  unfold matchFinish
  by_cases h : d = 0 ∨ windowSize s < d.toNat
  · exact .inl ⟨h, if_pos h⟩
  · rw [if_neg h]
    rw [not_or, Nat.not_lt] at h
    by_cases h2 : roomLeft s < len
    · exact .inr (.inl ⟨h.1, h.2, h2, if_pos h2⟩)
    · exact .inr (.inr ⟨h.1, h.2, by omega, if_neg h2⟩)

/-- The writes of a match whose checks passed in a state `u` that differs from `s` in the reader and the cells
only. -/
theorem matchDone_of {next : Vector DecState 12} {len : Nat} {d : Dist} (hw : Memory.wf s.dst = true)
    (hl : len ≤ 54) (hd : d ≠ 0) (h : ReaderFrame s u) :
    MatchDone next len d s ((histInsert d (copy len d u)).setDstate next[u.dstate]) := by
  have cf := copy_frame len d u
  have hf := histInsert_frame d (copy len d u)
  have ewp : u.wp = s.wp := by rw [h]
  have edst : u.dst = s.dst := by rw [h]
  have ed : ∀ a, dstByte ((histInsert d (copy len d u)).setDstate next[u.dstate]) a = dstByte (copy len d u) a :=
    dstByte_congr (by rw [State.setDstate_dst, hf])
  have hwu : Memory.wf u.dst = true := by rw [edst]; exact hw
  have hdlt := d.isLt
  refine ⟨?_, ?_, fun i hi => ?_, fun a ha => ?_, ?_, ?_⟩
  · unfold OperationFrame; rw [hf, cf, h]; rfl
  · rw [State.setDstate_wp, hf, ← ewp]; exact copy_wp len d u
  · rw [ed, ed, ← ewp]; exact copy_byte hwu (by omega) hd hi
  · rw [ed, copy_kept hwu len d a (by rw [ewp]; exact ha)]; exact dstByte_congr edst a
  · rw [State.setDstate_hist, State.setDstate_histLen]
    exact histInsert_congr (by rw [cf, h]) (by rw [cf, h]) d
  · rw [State.setDstate_dstate, h]

end Sys2Proof.Machine
end

