-- ==== Sys2Proof/Laws/Operation.lean ====
section
/-! SUPPORT. What a stream operation can do as a whole, and what fetching its selector can do. -/

namespace Sys2Proof.Machine

open Sys2Proof.Config (Params)
open Sys2Proof.Safety

variable {P : Params} {T : Nat → Prop} {s t u : State}

/-- The history is read from HIST and HIST_LEN alone. -/
theorem HistoryOk.congr (h : t.hist = s.hist) (hl : t.histLen = s.histLen) (hs : HistoryOk s) : HistoryOk t :=
  ⟨by rw [hl]; exact hs.length_le, fun i hi => by rw [histAt_congr h]; exact hs.nonzero i (by rwa [hl] at hi),
    fun i j hij hj => by rw [histAt_congr h, histAt_congr h]; exact hs.distinct i j hij (by rwa [hl] at hj),
    fun i hi => by rw [histAt_congr h]; exact hs.unused i (by rwa [hl] at hi)⟩

theorem ReaderStep.historyOk (h : ReaderStep P T s t) (hs : HistoryOk s) : HistoryOk t :=
  HistoryOk.congr (by rw [h.frame]) (by rw [h.frame]) hs

/-- From `s` to `t` one operation ran to its end: it wrote between 1 and 54 bytes at WP, within the room left; the
reader and the cells of `T` moved as in `ReaderStep`; the history and DSTATE stay well-formed; nothing else
changed. -/
structure OpStep (P : Params) (T : Nat → Prop) (s t : State) : Prop where
  frame : OperationFrame s t
  written : ∃ n, 1 ≤ n ∧ n ≤ 54 ∧ n ≤ roomLeft s ∧ t.wp = s.wp + BitVec.ofNat 64 n ∧
    (Memory.wf s.dst = true → DstKeptOutside s.wp n s t)
  dst_wf : Memory.wf s.dst = true → Memory.wf t.dst = true
  wf : Cells.wf P s.cells = true → Cells.wf P t.cells = true
  range : P.Wf → Cells.wf P s.cells = true → CellsInRange P s → CellsInRange P t
  kept : Cells.wf P s.cells = true → ∀ j, ¬T j → cellAt P t j = cellAt P s j
  cursor : s.cur ≤ s.lim → s.cur ≤ t.cur ∧ t.cur ≤ s.lim ∧ P.refillBytes ∣ (t.cur - s.cur).toNat
  history : HistoryOk s → HistoryOk t
  match_state : P.Wf → HistoryOk s → P.litStateLimit ≤ t.dstate.val → 1 ≤ t.histLen.toNat

theorem OpStep.weaken {T' : Nat → Prop} (h : OpStep P T s t) (hT : ∀ j, T j → T' j) : OpStep P T' s t :=
  { h with kept := fun hs j hj => h.kept hs j fun hT' => hj (hT j hT') }

/-- An operation after some symbols is an operation. -/
theorem OpStep.after (h : ReaderStep P T s t) (g : OpStep P T t u) : OpStep P T s u where
  frame := by
    have h1 := h.frame
    have h2 := g.frame
    unfold OperationFrame at *
    unfold ReaderFrame at h1
    rw [h2, h1]
  written := by
    obtain ⟨n, h1, h2, h3, h4, h5⟩ := g.written
    have e : t.wp = s.wp := by rw [h.frame]
    have e' : roomLeft t = roomLeft s := by unfold roomLeft; rw [h.frame]
    have ed : t.dst = s.dst := by rw [h.frame]
    refine ⟨n, h1, h2, e' ▸ h3, e ▸ h4, fun hw a ha => ?_⟩
    rw [h5 (by rw [ed]; exact hw) a (by rw [e]; exact ha), dstByte_congr ed]
  dst_wf hw := g.dst_wf (by rw [show t.dst = s.dst by rw [h.frame]]; exact hw)
  wf hs := g.wf (h.wf hs)
  range hP hs hr := g.range hP (h.wf hs) (h.range hP hs hr)
  kept hs j hj := (g.kept (h.wf hs) j hj).trans (h.kept hs j hj)
  cursor hs := by
    obtain ⟨h1, h2, h3⟩ := h.cursor hs
    obtain ⟨g1, g2, g3⟩ := g.cursor (h.lim_eq ▸ h2)
    rw [h.lim_eq] at g2
    have e : (u.cur - s.cur).toNat = (t.cur - s.cur).toNat + (u.cur - t.cur).toNat := by bv_omega
    exact ⟨BitVec.le_trans h1 g1, g2, e ▸ Nat.dvd_add h3 g3⟩
  history hs := g.history (h.historyOk hs)
  match_state hP hs := g.match_state hP (h.historyOk hs)

/-- How an operation that did not end well ended: after some symbols only, with a cause that a stream can
have. -/
def OpRaise (P : Params) (T : Nat → Prop) (s : State) (c : Cause) (t : State) : Prop :=
  ReaderStep P T s t ∧ (c = .truncated ∨ c = .invalidDistance ∨ c = .outputOverrun ∨ c = .modelCorruption)

/-- Everything a stream operation can do. -/
def Operates (P : Params) (T : Nat → Prop) (s : State) (r : Res Unit) : Prop :=
  r.Post (fun _ t => OpStep P T s t) (OpRaise P T s)

theorem Operates.weaken {T' : Nat → Prop} {r : Res Unit} (h : Operates P T s r) (hT : ∀ j, T j → T' j) :
    Operates P T' s r :=
  Res.Post.mono h (fun _ _ g => g.weaken hT) (fun _ _ g => ⟨g.1.weaken hT, g.2⟩)

theorem Operates.after {r : Res Unit} (h : ReaderStep P T s t) (g : Operates P T t r) : Operates P T s r :=
  Res.Post.mono g (fun _ _ w => OpStep.after h w) (fun _ _ w => ⟨h.trans w.1, w.2⟩)

/-- A symbol, then the rest of the operation. -/
theorem Operates.bind {α : Type} {k : Nat} {r : Res α} {f : α → State → Res Unit} {Q : α → Prop}
    (h : Reads P T k s r Q) (hf : ∀ v t, Q v → ReaderStep P T s t → Operates P T t (f v t)) :
    Operates P T s (r.bind f) := by
  apply Res.Post.bind
  exact Res.Post.mono h (fun v t g => Operates.after g.2.1 (hf v t g.1 g.2.1)) (fun _ _ g => ⟨g.2.1, .inl g.1⟩)

/-! ### The tail of a match, and the five matches -/

/-- What `MatchFinish` can do as part of an operation (43_match.md R175). -/
theorem matchFinish_operates {next : Vector DecState 12} {len : Nat} (h1 : 1 ≤ len) (h54 : len ≤ 54) (d : Dist)
    (s : State) : Operates P T s (matchFinish next len d s) := by
  rcases matchFinish_cases next len d s with ⟨-, h⟩ | ⟨-, -, -, h⟩ | ⟨hd, hw, hl, h⟩ <;> rw [h]
  · exact ⟨ReaderStep.refl _ _ _, .inr (.inl rfl)⟩
  · exact ⟨ReaderStep.refl _ _ _, .inr (.inr (.inl rfl))⟩
  · have cf := copy_frame len d s
    have hf := histInsert_frame d (copy len d s)
    have ch : HistoryOk s → HistoryOk (copy len d s) := HistoryOk.congr (by rw [cf]) (by rw [cf])
    have ec : (histInsert d (copy len d s)).cells = s.cells := by rw [hf, cf]
    refine
      { frame := ?_, written := ⟨len, h1, h54, hl, ?_, fun hw' a ha => ?_⟩, dst_wf := fun hw' => ?_
        wf := fun hs => ?_, range := fun _ _ hr j hj => ?_, kept := fun _ j _ => cellAt_congr ec j
        cursor := fun hs => ?_
        history := fun hs => HistoryOk.congr (s := histInsert d (copy len d s)) rfl rfl
          (histInsert_ok hd (ch hs)).1
        match_state := fun _ hs _ => (histInsert_ok hd (ch hs)).2 }
    · unfold OperationFrame; rw [hf, cf]; rfl
    · rw [State.setDstate_wp, hf]; exact copy_wp len d s
    · rw [← copy_kept hw' len d a ha]; exact dstByte_congr (by rw [State.setDstate_dst, hf]) a
    · rw [State.setDstate_dst, hf]; exact copy_wf hw' len d
    · rw [State.setDstate_cells, ec]; exact hs
    · unfold cellAt; rw [State.setDstate_cells, ec]; exact hr j hj
    · rw [State.setDstate_cur, hf, cf]; exact ⟨BitVec.le_refl _, hs, by simp⟩

/-- The decisions of MATCH_FAR's operands. -/
def MatchFarCell (j : Nat) : Prop := LenCell j ∨ FarCell j

/-- What MATCH_FAR can do (43_match.md R180). -/
theorem matchFar_operates (hw : P.AsWritten) (s : State) : Operates P MatchFarCell s (matchFar P s) := by
  unfold matchFar
  refine Operates.bind ((decodeLen_reads hw s).mono le_rfl (fun _ h => .inl h) (fun _ h => h)) fun len t hl _ => ?_
  refine Operates.bind ((decodeFar_reads hw t).mono le_rfl (fun _ h => .inr h) (fun _ h => h)) fun d u _ _ => ?_
  exact matchFinish_operates (by omega) hl.2 d u

/-- What MATCH_NEAR0 and MATCH_NEAR1 can do (43_match.md R181, R182). -/
theorem matchNear_operates (hw : P.AsWritten) {k : Nat} (hk : k < 2) (s : State) :
    Operates P (fun j => LenCell j ∨ NearCell k j) s (matchNear P k s) := by
  unfold matchNear
  refine Operates.bind ((decodeLen_reads hw s).mono le_rfl (fun _ h => .inl h) (fun _ h => h)) fun len t hl _ => ?_
  apply Res.Post.bind
  by_cases hlen : k < t.histLen.toNat
  · refine Res.Post.mono (decodeNear_post hw hk hlen) (fun d u g => ?_) (fun c u g => ?_)
    · exact Operates.after (g.2.1.weaken fun _ h => .inr h) (matchFinish_operates (by omega) hl.2 d u)
    · refine ⟨g.1.weaken fun _ h => .inr h, ?_⟩
      rcases g.2 with h | h
      · exact .inl h.1
      · exact .inr (.inl h.1)
  · have : decodeNear P k t = .raised .invalidDistance t := if_pos (by omega)
    rw [this]
    exact ⟨ReaderStep.refl _ _ _, .inr (.inl rfl)⟩

/-- What decoding SLOT can do (43_match.md R183): a slot that holds a distance, or `InvalidDistance`. -/
theorem decodeSlot_post (s : State) :
    (decodeSlot P s).Post
      (fun v t => v < 8 ∧ v < s.histLen.toNat ∧ ReaderStep P (InTree (repSlotBase s.dstate) 8) s t ∧
        ∀ n, Supply P (3 + n) s → Supply P n t)
      (fun c t => ReaderStep P (InTree (repSlotBase s.dstate) 8) s t ∧
        (c = .truncated ∧ ¬Supply P 3 s ∨ c = .invalidDistance ∧ s.histLen.toNat < 8)) := by
  unfold decodeSlot
  apply Res.Post.bind
  refine Res.Post.mono (repSlot_reads s) (fun v t g => ?_) (fun c t g => ⟨g.2.1, .inl ⟨g.1, g.2.2⟩⟩)
  have e : t.histLen = s.histLen := by rw [g.2.1.frame]
  rw [e]
  split
  · next h => exact ⟨g.2.1, .inr ⟨rfl, by have := g.1; omega⟩⟩
  · next h => exact ⟨g.1, by omega, g.2.1, g.2.2⟩

/-- What REP can do (43_match.md R183). -/
theorem repMatch_operates (hw : P.AsWritten) (s : State) :
    Operates P (fun j => InTree (repSlotBase s.dstate) 8 j ∨ LenCell j) s (repMatch P s) := by
  unfold repMatch
  apply Res.Post.bind
  refine Res.Post.mono (decodeSlot_post s) (fun v t g => ?_) (fun c t g => ?_)
  · refine Operates.after (g.2.2.1.weaken fun _ h => .inl h) ?_
    refine Operates.bind ((decodeLen_reads hw t).mono le_rfl (fun _ h => .inr h) (fun _ h => h)) fun len u hl _ => ?_
    exact matchFinish_operates (by omega) hl.2 _ u
  · refine ⟨g.1.weaken fun _ h => .inl h, ?_⟩
    rcases g.2 with h | h
    · exact .inl h.1
    · exact .inr (.inl h.1)

/-- The decisions of SHORTREP's operands. -/
def ShortRepCell (d : DecState) (j : Nat) : Prop :=
  InTree (repSlotBase d) 8 j ∨ ∃ k, k < 8 ∧ InTree (shortLenBase d k) 8 j

/-- What SHORTREP can do (43_match.md R184). -/
theorem shortRepMatch_operates (hw : P.AsWritten) (s : State) : Operates P (ShortRepCell s.dstate) s (shortRepMatch P s) := by
  unfold shortRepMatch
  apply Res.Post.bind
  refine Res.Post.mono (decodeSlot_post s) (fun v t g => ?_) (fun c t g => ?_)
  · refine Operates.after (g.2.2.1.weaken fun _ h => .inl h) ?_
    have e : t.dstate = s.dstate := by rw [g.2.2.1.frame]
    have := (shortLen_reads (P := P) t.dstate g.1 t).mono le_rfl
      (T' := ShortRepCell s.dstate) (fun _ h => .inr ⟨v, g.1, by rw [e] at h; exact h⟩) (fun _ h => h)
    refine Operates.bind this fun len u hl _ => ?_
    exact matchFinish_operates (by rw [hw.shortBase]; omega) (by rw [hw.shortBase]; omega) _ u
  · refine ⟨g.1.weaken fun _ h => .inl h, ?_⟩
    rcases g.2 with h | h
    · exact .inl h.1
    · exact .inr (.inl h.1)

/-! ### LIT -/

theorem roomLeft_pos (h : s.wp < s.argDstEnd) : 1 ≤ roomLeft s := by unfold roomLeft; bv_omega

/-- The end of a LIT: the byte at WP, WP and DSTATE. -/
theorem litEnd_step (hroom : 1 ≤ roomLeft s) (byte : Byte) (d : DecState) :
    OpStep P T s ((putByte byte s).setDstate P.nextLit[d]) where
  frame := rfl
  written := ⟨1, le_rfl, by omega, hroom, rfl, fun hw a ha => by
    change dstByte (putByte byte s) a = _
    rw [putByte_dst hw, if_neg (by simpa using ha 0 (by omega))]⟩
  dst_wf hw := putByte_wf hw byte
  wf h := h
  range _ _ h := h
  kept _ _ _ := rfl
  cursor h := ⟨BitVec.le_refl _, h, by simp [putByte, setDstByte]⟩
  history h := HistoryOk.congr (s := s) rfl rfl h
  match_state hP _ h := absurd h (by
    have := hP.2.2.2.2.2.2.2.1 d
    change ¬P.litStateLimit ≤ (P.nextLit[d]).val
    omega)

/-- What LIT can do with room for its byte (42_literal.md R160). -/
theorem literal_operates (hw : P.AsWritten) (hroom : 1 ≤ roomLeft s) :
    Operates P (LitCell (litContext P s)) s (literal P s) := by
  unfold literal
  refine Operates.bind (litByte_reads hw s) fun byte t _ hst => ?_
  have e : roomLeft t = roomLeft s := by unfold roomLeft; rw [hst.frame]
  exact litEnd_step (by rw [e]; exact hroom) byte s.dstate

/-! ### The selector -/

/-- What fetching a selector can do (44_quantum_loop.md R203). -/
theorem fetchSelector_reads (hw : P.AsWritten) (s : State) :
    Reads P (SelectorCell P s) 5 s (fetchSelector P s) fun sel =>
      sel = 0b10000 ∨ ∃ n, n < 16 ∧ sel = BitVec.ofNat 5 n := by
  unfold fetchSelector
  refine Reads.bind (k := 1) (l := 4) (decodeBit_reads (isLitCell_lt hw s) (.inl rfl) s) fun l t _ _ => ?_
  split
  · exact (Reads.pure (.inl rfl)).mono (by omega) (fun _ h => h) (fun _ h => h)
  · exact Reads.map (decodeNibble_reads (typeBase_le s) (fun _ h => .inr h) t) fun n hn => .inr ⟨n, hn, rfl⟩

theorem selectorCell_consulted (hw : P.AsWritten) {j : Nat} (h : SelectorCell P s j) : Consulted j := by
  rcases h with h | h
  · rw [h]; exact isLitCell_consulted _ (posIndex_lt hw s)
  · exact typeCell_consulted h

theorem matchFarCell_consulted {j : Nat} (h : MatchFarCell j) : Consulted j :=
  h.elim lenCell_consulted farCell_consulted

theorem shortRepCell_consulted {d : DecState} {j : Nat} (h : ShortRepCell d j) : Consulted j := by
  rcases h with h | ⟨k, hk, h⟩
  · exact slotCell_consulted h
  · exact shortLenCell_consulted hk h

/-- What one operation with its selector can do (44_quantum_loop.md R203). -/
theorem quantumStep_operates (hw : P.AsWritten) (hroom : 1 ≤ roomLeft s) : Operates P Consulted s (quantumStep P s) := by
  unfold quantumStep
  refine Operates.bind (decodeBit_reads (isLitCell_lt hw s) (isLitCell_consulted _ (posIndex_lt hw s)) s)
    fun l t _ hst => ?_
  have e : roomLeft t = roomLeft s := by unfold roomLeft; rw [hst.frame]
  split
  · exact (literal_operates hw (by rw [e]; exact hroom)).weaken fun _ h => litCell_consulted (litContext_lt hw t) h
  · refine Operates.bind (decodeNibble_reads (typeBase_le s) (fun _ h => typeCell_consulted h) t) fun n u _ _ => ?_
    repeat' split
    · exact (matchFar_operates hw u).weaken fun _ => matchFarCell_consulted
    · exact (matchNear_operates hw (by omega) u).weaken fun _ h =>
        h.elim lenCell_consulted (nearCell_consulted (by omega))
    · exact (matchNear_operates hw (by omega) u).weaken fun _ h =>
        h.elim lenCell_consulted (nearCell_consulted (by omega))
    · exact (repMatch_operates hw u).weaken fun _ h => h.elim slotCell_consulted lenCell_consulted
    · exact (shortRepMatch_operates hw u).weaken fun _ => shortRepCell_consulted
    · exact ⟨ReaderStep.refl _ _ _, .inr (.inr (.inr rfl))⟩

/-! ### The step's view of an operation -/

/-- Running the operation that a selector word names is one iteration of the loop: the machine's fetch and exec
agree with the pseudocode's `Step()` (44_quantum_loop.md R203). -/
theorem exec_fetched (s : State) :
    (match fetchSelector Config.params s with
      | .ok sel t => exec (decodeSelector Config.params sel) t
      | .raised c t => .next (faultEntry c t)) = settle (quantumStep Config.params s) := by
  unfold fetchSelector quantumStep
  rcases hb : decodeBit Config.params (isLitCell s.dstate (posIndex Config.params s)) s with ⟨l, t⟩ | ⟨c, t⟩
  · simp only [hb, Res.ok_bind]
    cases l with
    | true => rfl
    | false =>
      simp only [Bool.false_eq_true, if_false]
      have hr := decodeNibble_reads (P := Config.params) (typeBase_le s) (fun _ h => h) t
      rcases hn : decodeNibble Config.params (typeBase s.dstate) t with ⟨n, u⟩ | ⟨c, u⟩
      · have hlt : n < 16 := (hr.of_ok hn).1
        simp only [Res.ok_bind]
        interval_cases n <;> rfl
      · rfl
  · simp only [hb]; rfl

end Sys2Proof.Machine
end

