-- ==== Sys2Proof/Laws/PerInstr.lean ====
section
/-! SUPPORT. The family EncodingSpace: the encoding space of every instruction, one lemma per constructor. -/

namespace Sys2Proof.Laws

/-- An instruction is encoded as a command word exactly where it is a host command (30_encoding.md R92), and as a
selector word exactly where it is a stream operation (R93); its word decodes to an instruction of the same space. -/
def EncodingSpace.Statement (i : Instr) : Prop :=
  (i.isCommand = true ↔ ∃ v, encode i = .command v) ∧ (i.isCommand = false ↔ ∃ sel, encode i = .selector sel) ∧
  (decode (encode i)).isCommand = i.isCommand

theorem decodeCommand_isCommand (v : BitVec 64) : (decodeCommand v).isCommand = true := by
  unfold decodeCommand
  simp only
  split
  · rfl
  · split <;> rfl

theorem EncodingSpace.init : EncodingSpace.Statement .init :=
  ⟨⟨fun _ => ⟨_, rfl⟩, fun _ => rfl⟩, ⟨nofun, nofun⟩, rfl⟩

theorem EncodingSpace.decode : EncodingSpace.Statement .decode :=
  ⟨⟨fun _ => ⟨_, rfl⟩, fun _ => rfl⟩, ⟨nofun, nofun⟩, rfl⟩

theorem EncodingSpace.cmdReserved (code : BitVec 32) : EncodingSpace.Statement (.cmdReserved code) :=
  ⟨⟨fun _ => ⟨_, rfl⟩, fun _ => rfl⟩, ⟨nofun, nofun⟩, decodeCommand_isCommand _⟩

theorem EncodingSpace.lit : EncodingSpace.Statement .lit :=
  ⟨⟨nofun, nofun⟩, ⟨fun _ => ⟨_, rfl⟩, fun _ => rfl⟩, rfl⟩

theorem EncodingSpace.matchFar : EncodingSpace.Statement .matchFar :=
  ⟨⟨nofun, nofun⟩, ⟨fun _ => ⟨_, rfl⟩, fun _ => rfl⟩, rfl⟩

theorem EncodingSpace.matchNear0 : EncodingSpace.Statement .matchNear0 :=
  ⟨⟨nofun, nofun⟩, ⟨fun _ => ⟨_, rfl⟩, fun _ => rfl⟩, rfl⟩

theorem EncodingSpace.matchNear1 : EncodingSpace.Statement .matchNear1 :=
  ⟨⟨nofun, nofun⟩, ⟨fun _ => ⟨_, rfl⟩, fun _ => rfl⟩, rfl⟩

theorem EncodingSpace.rep : EncodingSpace.Statement .rep :=
  ⟨⟨nofun, nofun⟩, ⟨fun _ => ⟨_, rfl⟩, fun _ => rfl⟩, rfl⟩

theorem EncodingSpace.shortrep : EncodingSpace.Statement .shortrep :=
  ⟨⟨nofun, nofun⟩, ⟨fun _ => ⟨_, rfl⟩, fun _ => rfl⟩, rfl⟩

theorem EncodingSpace.typeReserved5 : EncodingSpace.Statement .typeReserved5 :=
  ⟨⟨nofun, nofun⟩, ⟨fun _ => ⟨_, rfl⟩, fun _ => rfl⟩, rfl⟩

theorem EncodingSpace.typeReserved6to7 (low : BitVec 1) : EncodingSpace.Statement (.typeReserved6to7 low) :=
  ⟨⟨nofun, nofun⟩, ⟨fun _ => ⟨_, rfl⟩, fun _ => rfl⟩, by revert low; decide⟩

theorem EncodingSpace.typeReserved8to15 (low : BitVec 3) : EncodingSpace.Statement (.typeReserved8to15 low) :=
  ⟨⟨nofun, nofun⟩, ⟨fun _ => ⟨_, rfl⟩, fun _ => rfl⟩, by revert low; decide⟩

end Sys2Proof.Laws
end

