-- ==== Sys2Proof/Laws/Step.lean ====
section
/-! SUPPORT. What a step can be: the one case analysis of `step`, and what each command can do. -/

namespace Sys2Proof.Machine

open Sys2Proof.Config (Params)
open Sys2Proof.Safety

variable {P : Params} {s t u : State}

/-! ### Meanings -/

theorem settle_next (r : Res Unit) : ∃ t, settle r = .next t := by
  cases r with
  | ok v s => exact ⟨s, rfl⟩
  | raised c s => exact ⟨faultEntry c s, rfl⟩

/-- Every meaning gives a next state. -/
theorem exec_next (i : Instr) (s : State) : ∃ t, exec i s = .next t := by
  cases i with
  | init => exact settle_next (.ok () (initCommand s))
  | decode => exact settle_next (startDecode Config.params s)
  | cmdReserved _ => exact settle_next (.raised .badArguments s)
  | lit => exact settle_next (literal Config.params s)
  | matchFar => exact settle_next (matchFar Config.params s)
  | matchNear0 => exact settle_next (matchNear Config.params 0 s)
  | matchNear1 => exact settle_next (matchNear Config.params 1 s)
  | rep => exact settle_next (repMatch Config.params s)
  | shortrep => exact settle_next (shortRepMatch Config.params s)
  | typeReserved5 => exact settle_next (reservedType s)
  | typeReserved6to7 _ => exact settle_next (reservedType s)
  | typeReserved8to15 _ => exact settle_next (reservedType s)

/-- The checks passed (44_quantum_loop.md R201). -/
def ArgsOk (s : State) : Prop :=
  s.ctxValid = true ∧ s.argDstStart ≤ s.argDst ∧ s.argDst ≤ s.argDstEnd ∧ s.argSrc ≤ s.argSrcEnd

/-- What `CheckArgs()` can do. -/
theorem checkArgs_cases (s : State) :
    (ArgsOk s ∧ checkArgs s = .ok () s) ∨
    (¬ArgsOk s ∧ (checkArgs s = .raised .notInitialised s ∨ checkArgs s = .raised .badArguments s)) := by
  unfold checkArgs ArgsOk
  by_cases h1 : s.ctxValid = false
  · rw [if_pos h1]; exact .inr ⟨(by rintro ⟨h, -⟩; rw [h1] at h; cases h), .inl rfl⟩
  · rw [if_neg h1]
    by_cases h2 : s.argDstStart ≤ s.argDst ∧ s.argDst ≤ s.argDstEnd
    · rw [if_neg (not_not.mpr h2)]
      by_cases h3 : s.argSrc ≤ s.argSrcEnd
      · rw [if_neg (not_not.mpr h3)]; exact .inl ⟨⟨by simpa using h1, h2.1, h2.2, h3⟩, rfl⟩
      · rw [if_pos h3]; exact .inr ⟨fun h => h3 h.2.2.2, .inr rfl⟩
    · rw [if_pos h2]; exact .inr ⟨fun h => h2 ⟨h.2.1, h.2.2.1⟩, .inr rfl⟩

/-- What accepting a DECODE can do, up to its loop (44_quantum_loop.md R200 to R202). -/
theorem startDecode_cases (P : Params) (s : State) :
    (¬ArgsOk s ∧ (startDecode P s = .raised .notInitialised (acceptCommand s) ∨
      startDecode P s = .raised .badArguments (acceptCommand s))) ∨
    (ArgsOk s ∧ s.argDst = s.argDstEnd ∧ startDecode P s =
      .ok () (completeDecode (((acceptCommand s).setWp s.argDst).setReader s.argSrc s.argSrcEnd))) ∨
    (ArgsOk s ∧ s.argDst < s.argDstEnd ∧
      startDecode P s = readerInit P ((acceptCommand s).setWp s.argDst)) := by
  unfold startDecode
  rcases checkArgs_cases (acceptCommand s) with ⟨h, e⟩ | ⟨h, e⟩
  · rw [e]
    by_cases h2 : s.argDst = s.argDstEnd
    · exact .inr (.inl ⟨h, h2, if_pos h2⟩)
    · refine .inr (.inr ⟨h, ?_, if_neg h2⟩)
      have h3 : s.argDst ≤ s.argDstEnd := h.2.2.1
      bv_omega
  · refine .inl ⟨h, ?_⟩
    rcases e with e | e
    · exact .inl (by rw [e]; rfl)
    · exact .inr (by rw [e]; rfl)

/-! ### Host events -/

theorem cmd_of_ite {c : Prop} [Decidable c] {r : Reg} {x : Option Reg} (hr : r ≠ .cmd)
    (h : (if c then some r else x) = some .cmd) : x = some .cmd := by
  split at h
  · exact absurd (Option.some.inj h) hr
  · exact h

/-- The one register that is CMD (10_state.md R28). -/
theorem regAt_cmd (offset : BitVec 64) (size : AccessSize) :
    regAt offset size = some .cmd ↔ offset = 0 ∧ size = .b64 := by
  constructor
  · intro h
    cases size with
    | b64 =>
      by_cases h0 : offset = 0
      · exact ⟨h0, rfl⟩
      · unfold regAt at h
        exfalso
        dsimp only at h
        rw [if_neg h0] at h
        iterate 11 replace h := cmd_of_ite (by decide) h
        split at h
        · exact Reg.noConfusion (Option.some.inj h)
        · cases cmd_of_ite (by decide) h
    | b16 =>
      revert h
      unfold regAt
      simp only
      split <;> simp
    | b8 => cases h
    | b32 => cases h
  · rintro ⟨rfl, rfl⟩; rfl

theorem acceptsCommand_iff (offset : BitVec 64) (size : AccessSize) (s : State) :
    acceptsCommand offset size s = true ↔ (offset = 0 ∧ size = .b64) ∧ s.phase = .idle := by
  unfold acceptsCommand State.busy
  rw [Bool.and_eq_true, decide_eq_true_eq, regAt_cmd]
  cases s.phase <;> simp

/-- A due event is the first of the script, and comes off it. -/
theorem dueEvent_some {a : HostAction} (h : dueEvent s = some (a, t)) :
    ∃ e rest, s.script = e :: rest ∧ e.action = a ∧ t = s.setScript rest ∧
      (s.phase = .busy → e.timing = .afterMoves 0) := by
  unfold dueEvent at h
  rcases hs : s.script with _ | ⟨⟨tm, act⟩, rest⟩
  · rw [hs] at h; cases h
  · rw [hs] at h
    cases hp : s.phase with
    | idle =>
      rw [hp] at h
      simp only [Option.some.injEq, Prod.mk.injEq] at h
      exact ⟨_, _, rfl, h.1, h.2.symm, fun h => nomatch h⟩
    | busy =>
      rw [hp] at h
      rcases tm with _ | (_ | n)
      · simp at h
      · simp only [Option.some.injEq, Prod.mk.injEq] at h
        exact ⟨_, _, rfl, h.1, h.2.symm, fun _ => rfl⟩
      · simp at h

/-- When IDLE the first event of the script is due. -/
theorem dueEvent_idle {e : HostEvent} {rest : List HostEvent} (hp : s.phase = .idle) (hs : s.script = e :: rest) :
    dueEvent s = some (e.action, s.setScript rest) := by
  unfold dueEvent; rw [hs, hp]

/-- No event will land inside the command: none is due, and waiting does not change that. -/
theorem dueEvent_none (hp : s.phase = .busy) (h : NoEventInside s) :
    dueEvent s = none ∧ tickEvents s.script = s.script := by
  unfold NoEventInside at h
  unfold dueEvent
  rcases hs : s.script with _ | ⟨⟨tm, act⟩, rest⟩
  · exact ⟨rfl, rfl⟩
  · rw [hs] at h
    simp only at h
    subst h
    rw [hp]
    exact ⟨rfl, rfl⟩

/-! ### The step -/

/-- A move of the decode loop is one iteration of the pseudocode, or its end (44_quantum_loop.md R200, R203). -/
theorem step_loop (h : LoopTurn s) :
    step s =
      if s.wp < s.argDstEnd then settle (quantumStep Config.params (s.setScript (tickEvents s.script)))
      else .next (completeDecode (s.setScript (tickEvents s.script))) := by
  have e : nextMove s = loopMove Config.params (s.setScript (tickEvents s.script)) := by
    unfold nextMove; rw [h.2]; simp only; rw [h.1]
  unfold step
  rw [e]
  by_cases hw : s.wp < s.argDstEnd
  · rw [if_pos hw, ← exec_fetched, show loopMove Config.params (s.setScript (tickEvents s.script)) = _ from if_pos hw]
    rcases fetchSelector Config.params (s.setScript (tickEvents s.script)) with ⟨sel, u⟩ | ⟨c, u⟩ <;> rfl
  · rw [if_neg hw, show loopMove Config.params (s.setScript (tickEvents s.script)) = _ from if_neg hw]

/-- A due event: an accepted command runs, any other action is the host's. -/
theorem step_event {a : HostAction} (h : dueEvent s = some (a, t)) :
    (∃ v, a = .regWrite 0 .b64 v ∧ s.phase = .idle ∧ step s = exec (decode (.command v)) t) ∨
    ((∀ v, a = .regWrite 0 .b64 v → s.phase = .busy) ∧ step s = hostAction a t) := by
  obtain ⟨e, rest, -, -, rfl, -⟩ := dueEvent_some h
  have hst : step s = match hostMove a (s.setScript rest) with
      | .instr i s' => exec i s'
      | .settled o => o := by
    simp only [step, nextMove, h] <;> rfl
  cases a with
  | regWrite offset size v =>
    by_cases hc : acceptsCommand offset size (s.setScript rest) = true
    · obtain ⟨⟨rfl, rfl⟩, hp⟩ := (acceptsCommand_iff _ _ _).mp hc
      exact .inl ⟨v, rfl, hp, by rw [hst]; simp only [hostMove, hc, if_true]; rfl⟩
    · refine .inr ⟨fun w hw => ?_, ?_⟩
      · cases hw
        rw [acceptsCommand_iff] at hc
        cases hp : s.phase with
        | idle => exact absurd ⟨⟨rfl, rfl⟩, hp⟩ hc
        | busy => rfl
      · rw [hst]; simp only [hostMove, hc, Bool.false_eq_true, if_false]
  | regRead => exact .inr ⟨(fun _ h => nomatch h), by rw [hst]; rfl⟩
  | srcRead => exact .inr ⟨(fun _ h => nomatch h), by rw [hst]; rfl⟩
  | srcWrite => exact .inr ⟨(fun _ h => nomatch h), by rw [hst]; rfl⟩
  | dstWrite => exact .inr ⟨(fun _ h => nomatch h), by rw [hst]; rfl⟩
  | dstRead => exact .inr ⟨(fun _ h => nomatch h), by rw [hst]; rfl⟩
  | hwReset => exact .inr ⟨(fun _ h => nomatch h), by rw [hst]; rfl⟩

/-- An IDLE block with no pending event stays as it is (70_reset_and_hazards.md R280). -/
theorem step_idle (hp : s.phase = .idle) (h : dueEvent s = none) : step s = .next s := by
  unfold step nextMove; rw [h]; simp only; rw [hp]

/-- What a step can be. -/
theorem step_cases (s : State) :
    (s.phase = .idle ∧ dueEvent s = none ∧ step s = .next s) ∨ LoopTurn s ∨
      ∃ a t, dueEvent s = some (a, t) := by
  rcases h : dueEvent s with _ | ⟨a, t⟩
  · cases hp : s.phase with
    | idle => exact .inl ⟨rfl, rfl, step_idle hp h⟩
    | busy => exact .inr (.inl ⟨hp, h⟩)
  · exact .inr (.inr ⟨a, t, rfl⟩)

/-! ### What a step that answers has done -/

/-- How a step reaches its next state: an IDLE block waits; one operation of the loop runs to its end, or raises and
faults; the loop completes; or a host event is served, as an accepted command or as an access. -/
theorem step_outcome (h : step s = .next t) :
    (s.phase = .idle ∧ t = s) ∨
    (LoopTurn s ∧ s.wp < s.argDstEnd ∧ ∃ l, OpStep Config.params Consulted (s.setScript l) t) ∨
    (LoopTurn s ∧ s.wp < s.argDstEnd ∧ ∃ l c u,
      OpRaise Config.params Consulted (s.setScript l) c u ∧ t = faultEntry c u) ∨
    (LoopTurn s ∧ ¬s.wp < s.argDstEnd ∧ ∃ l, t = completeDecode (s.setScript l)) ∨
    ∃ e rest, s.script = e :: rest ∧
      ((∃ v, e.action = .regWrite 0 .b64 v ∧ s.phase = .idle ∧
        exec (decode (.command v)) (s.setScript rest) = .next t) ∨
      ((∀ v, e.action = .regWrite 0 .b64 v → s.phase = .busy) ∧ dueEvent s = some (e.action, s.setScript rest) ∧
        hostAction e.action (s.setScript rest) = .next t)) := by
  rcases step_cases s with ⟨hp, -, e⟩ | hl | ⟨a, t', hd⟩
  · rw [e] at h; cases h; exact .inl ⟨hp, rfl⟩
  · rw [step_loop hl] at h
    by_cases hw : s.wp < s.argDstEnd
    · rw [if_pos hw] at h
      have op := quantumStep_operates params_asWritten (s := s.setScript (tickEvents s.script)) (roomLeft_pos hw)
      rcases hq : quantumStep Config.params (s.setScript (tickEvents s.script)) with ⟨⟨⟩, u⟩ | ⟨c, u⟩
      · rw [hq] at h op; cases h
        exact .inr (.inl ⟨hl, hw, _, op⟩)
      · rw [hq] at h op; cases h
        exact .inr (.inr (.inl ⟨hl, hw, _, _, _, op, rfl⟩))
    · rw [if_neg hw] at h; cases h
      exact .inr (.inr (.inr (.inl ⟨hl, hw, _, rfl⟩)))
  · obtain ⟨e, rest, hs, ha, rfl, -⟩ := dueEvent_some hd
    refine .inr (.inr (.inr (.inr ⟨e, rest, hs, ?_⟩)))
    rw [ha]
    rcases step_event hd with ⟨v, h1, h2, h3⟩ | ⟨h1, h2⟩
    · exact .inl ⟨v, h1, h2, h3 ▸ h⟩
    · exact .inr ⟨h1, hd, h2 ▸ h⟩

/-- What an accepted command can do (30_encoding.md R92). -/
theorem command_outcome {v : BitVec 64} (h : exec (decode (.command v)) s = .next t) :
    (decode (.command v) = .init ∧ t = initCommand s) ∨
    (decode (.command v) = .decode ∧ settle (startDecode Config.params s) = .next t) ∨
    ∃ c, decode (.command v) = .cmdReserved c ∧ t = faultEntry .badArguments s := by
  have hd : decode (.command v) = decodeCommand v := rfl
  unfold decodeCommand at hd
  simp only at hd
  split at hd
  · rw [hd] at h ⊢; cases h; exact .inl ⟨rfl, rfl⟩
  · split at hd
    · rw [hd] at h ⊢; exact .inr (.inl ⟨rfl, h⟩)
    · rw [hd] at h ⊢; cases h; exact .inr (.inr ⟨_, rfl, rfl⟩)

/-- What accepting a DECODE can lead to (44_quantum_loop.md R200 to R202, 40_bitreader.md R121). -/
theorem decode_outcome (h : settle (startDecode Config.params s) = .next t) :
    (∃ c, (c = .notInitialised ∨ c = .badArguments) ∧ t = faultEntry c (acceptCommand s)) ∨
    (ArgsOk s ∧ s.argDst = s.argDstEnd ∧
      t = completeDecode (((acceptCommand s).setWp s.argDst).setReader s.argSrc s.argSrcEnd)) ∨
    (ArgsOk s ∧ s.argDst < s.argDstEnd ∧ (s.argSrcEnd - s.argSrc).toNat < 16 ∧
      t = faultEntry .truncated (((acceptCommand s).setWp s.argDst).setReader s.argSrc s.argSrcEnd)) ∨
    (ArgsOk s ∧ s.argDst < s.argDstEnd ∧ 16 ≤ (s.argSrcEnd - s.argSrc).toNat ∧ ∃ a b,
      t = ((((acceptCommand s).setWp s.argDst).setReader s.argSrc s.argSrcEnd).setAcc a b).setCur (s.argSrc + 16)) := by
  rcases startDecode_cases Config.params s with ⟨-, e | e⟩ | ⟨h1, h2, e⟩ | ⟨h1, h2, e⟩
  · rw [e] at h; cases h; exact .inl ⟨_, .inl rfl, rfl⟩
  · rw [e] at h; cases h; exact .inl ⟨_, .inr rfl, rfl⟩
  · rw [e] at h; cases h; exact .inr (.inl ⟨h1, h2, rfl⟩)
  · rcases readerInit_cases (P := Config.params) ((acceptCommand s).setWp s.argDst) with ⟨g, e'⟩ | ⟨g, e'⟩
    · rw [e, e'] at h; cases h; exact .inr (.inr (.inr ⟨h1, h2, g, _, _, rfl⟩))
    · rw [e, e'] at h; cases h; exact .inr (.inr (.inl ⟨h1, h2, g, rfl⟩))

/-- A write to the block changes ARG registers only, and nothing while BUSY is 1 (10_state.md R28, R33). -/
theorem writeReg_frame (offset : BitVec 64) (size : AccessSize) (v : BitVec 64) (s : State) :
    (∃ a b c d e, writeReg offset size v s =
      { s with argDst := a, argDstEnd := b, argDstStart := c, argSrc := d, argSrcEnd := e }) ∧
    (s.phase = .busy → writeReg offset size v s = s) := by
  unfold writeReg
  split
  · exact ⟨⟨_, _, _, _, _, rfl⟩, fun _ => rfl⟩
  · next hb =>
    refine ⟨?_, fun hp => absurd (by unfold State.busy; rw [hp]; rfl) hb⟩
    split <;> exact ⟨_, _, _, _, _, rfl⟩

/-- A read of the block changes the model's own registers only (45_laws.md R223). -/
theorem readReg_frame (offset : BitVec 64) (size : AccessSize) (s : State) :
    ∃ v n, readReg offset size s = { s with readData := v, freeReads := n } := by
  unfold readReg; split
  · exact ⟨_, _, rfl⟩
  · split <;> exact ⟨_, _, rfl⟩

/-- What a host action can do where it does not stop the machine. -/
theorem hostAction_outcome {a : HostAction} (h : hostAction a s = .next t) :
    (∃ offset size v, a = .regWrite offset size v ∧ t = writeReg offset size v s) ∨
    (∃ offset size, a = .regRead offset size ∧ t = readReg offset size s) ∨
    (∃ addr v, a = .srcWrite addr v ∧ t = s.setSrc (Memory.write s.src addr v)) ∨
    (∃ addr, a = .srcRead addr ∧ t = s.setReadData ((srcByte s addr).setWidth 64)) ∨
    (∃ addr v, a = .dstWrite addr v ∧ t = setDstByte s addr v) ∨
    (∃ addr, a = .dstRead addr ∧ t = s.setReadData ((dstByte s addr).setWidth 64)) ∨
    (a = .hwReset ∧ t = hardReset s) := by
  unfold hostAction at h
  cases a <;> simp only at h
  · cases h; exact .inl ⟨_, _, _, rfl, rfl⟩
  · cases h; exact .inr (.inl ⟨_, _, rfl, rfl⟩)
  · split at h <;> cases h; exact .inr (.inr (.inl ⟨_, _, rfl, rfl⟩))
  · split at h <;> cases h; exact .inr (.inr (.inr (.inl ⟨_, rfl, rfl⟩)))
  · split at h <;> cases h; exact .inr (.inr (.inr (.inr (.inl ⟨_, _, rfl, rfl⟩))))
  · split at h <;> cases h; exact .inr (.inr (.inr (.inr (.inr (.inl ⟨_, rfl, rfl⟩)))))
  · cases h; exact .inr (.inr (.inr (.inr (.inr (.inr ⟨rfl, rfl⟩)))))

/-- The bytes that a reset lets through are the first of the operation's. -/
theorem partialWrites_dst (after : State) (hw : Memory.wf s.dst = true) (n : Nat) :
    Memory.wf (partialWrites s after n) = true ∧ ∀ a, (∀ k, k < n → a ≠ s.wp + BitVec.ofNat 64 k) →
      Memory.read (partialWrites s after n) a = dstByte s a := by
  induction n with
  | zero => exact ⟨hw, fun _ _ => rfl⟩
  | succ n ih =>
    refine ⟨Memory.wf_write ih.1 _ _, fun a ha => ?_⟩
    unfold partialWrites
    rw [Memory.read_write ih.1, if_neg (ha n (by omega))]
    exact ih.2 a fun k hk => ha k (by omega)

end Sys2Proof.Machine
end

