-- ==== Sys2Proof/Tests/Slice0.lean ====
section
/-! SUPPORT. The tests: ill-formed terms, words written out from the opcode table, one small case per instruction and
primitive (the numbers are those of spec/95_test_vectors.md, or computed by hand from the rule named), and for every
obligation with hypotheses a concrete case that meets them, clause by clause. -/

namespace Sys2Proof.Tests

open Sys2Proof.Machine Sys2Proof.Safety

/-! ### Helpers -/

/-- The state an outcome leads to, or the reset state where the machine stops. -/
def after : Host.Outcome State Fault Refusal → State
  | .next t => t
  | .fault _ | .refused _ => State.reset

/-- The outcome is a next state. -/
def goesOn : Host.Outcome State Fault Refusal → Bool
  | .next _ => true
  | .fault _ | .refused _ => false

theorem exists_next {o : Host.Outcome State Fault Refusal} (h : goesOn o = true) : ∃ t, o = .next t := by
  cases o with
  | next t => exact ⟨t, rfl⟩
  | fault f => cases h
  | refused r => cases h

/-- The answer of a procedure, where it ends well. -/
def answer {α : Type} : Res α → Option α
  | .ok v _ => some v
  | .raised _ _ => none

/-- The cause of a procedure that raises. -/
def causeOf {α : Type} : Res α → Option Cause
  | .ok _ _ => none
  | .raised c _ => some c

/-- A DECODE in progress over an untouched context: an empty history, ten bytes written, 100 to go, 184 source bytes
(zeros) left. The accumulators make every decision on an untouched cell a 0. -/
def quiet : State :=
  { initCommand State.reset with
    accA := 0x4000000000000000, accB := 0x4000000000000000, cur := 16, lim := 200, argSrcEnd := 200
    wp := 10, argDstEnd := 110, phase := .busy, done := false
    dst := [(5, 0x55), (6, 0x66), (7, 0x77), (8, 0x88), (9, 0x99)] }

/-- `quiet` with two distances in the history, after a match. -/
def quiet2 : State := { quiet with hist := #v[2, 3, 0, 0, 0, 0, 0, 0], histLen := 2, dstate := 7 }

/-- `quiet` with a full history, after a match. -/
def quiet8 : State := { quiet with hist := #v[3, 4, 5, 6, 7, 8, 9, 10], histLen := 8, dstate := 11 }

/-- `s` with no source byte left and both accumulators at `x`. -/
def starved (x : Acc) (s : State) : State := { s with accA := x, accB := x, cur := s.lim }

/-- `s` with one byte of room. -/
def tight (s : State) : State := { s with argDstEnd := s.wp + 1 }

/-- `s` with nothing in the window. -/
def empty (s : State) : State := { s with argDstStart := s.wp }

/-- The start of program P2 of spec/95_test_vectors.md, its header read. -/
def programP2 : State :=
  { initCommand State.reset with
    accA := 0x000042108590C800, accB := 0x00001F07C20E3200, cur := 16, lim := 16, argSrcEnd := 16
    argDstEnd := 11, phase := .busy, done := false }

/-- The decisions 1, `n` times, on untouched cells. -/
def ones (n : Nat) : List Prim := List.replicate n (.bit 0x4000 true)

/-- The decision 0 on an untouched cell. -/
def zero : List Prim := [.bit 0x4000 false]

/-- The four decisions of a nibble on untouched cells. -/
def nibble (n : Nat) : List Prim := [3, 2, 1, 0].map fun i => .bit 0x4000 (n.testBit i)

/-- `s` with accumulators from which the primitives of `l` are decoded. -/
def fed (l : List Prim) (s : State) : State :=
  let e := encodePrims Config.params l
  { s with accA := BitVec.ofNat 64 e.xa, accB := BitVec.ofNat 64 e.xb }

/-- `fed` with no source byte left: the next decision on an untouched cell after those of `l` raises. -/
def spent (l : List Prim) (s : State) : State := { fed l s with cur := s.lim }

/-! ### Well-formedness: an ill-formed term for each check -/

theorem test_params_wf_refuses_equal_code_points :
    ¬({ Config.params with tRep := 0 } : Config.Params).Wf ∧ ¬({ Config.params with tShortrep := 2 } : Config.Params).Wf := by
  decide

theorem test_wellFormed_refuses_init_code : (Instr.cmdReserved 1).wellFormed = false := by decide
theorem test_wellFormed_refuses_decode_code : (Instr.cmdReserved 2).wellFormed = false := by decide
theorem test_wellFormed_accepts_reserved_codes :
    (Instr.cmdReserved 0).wellFormed = true ∧ (Instr.cmdReserved 3).wellFormed = true := by decide
theorem test_decodeTableWord_refuses_other_widths :
    decodeTableWord 16 1 = none ∧ decodeTableWord 8 0b100000 = none ∧ decodeTableWord 32 (2 ^ 32) = none := by decide

/-! ### Decoding: words written out from 30_encoding.md R92 and R93 -/

theorem test_decode_init : decode (.command 0x0000000000000001) = .init := by decide
theorem test_decode_decode : decode (.command 0x0000000000000002) = .decode := by decide
theorem test_decode_ignores_high_half : decode (.command 0xDEADBEEF00000002) = .decode := by decide
theorem test_decode_cmdReserved : decode (.command 0x0000000000000003) = .cmdReserved 3 := by decide
theorem test_decode_lit : decode (.selector 0b10000) = .lit ∧ decode (.selector 0b10101) = .lit := by decide
theorem test_decode_matchFar : decode (.selector 0b00000) = .matchFar := by decide
theorem test_decode_matchNear0 : decode (.selector 0b00001) = .matchNear0 := by decide
theorem test_decode_matchNear1 : decode (.selector 0b00010) = .matchNear1 := by decide
theorem test_decode_rep : decode (.selector 0b00011) = .rep := by decide
theorem test_decode_shortrep : decode (.selector 0b00100) = .shortrep := by decide
theorem test_decode_typeReserved5 : decode (.selector 0b00101) = .typeReserved5 := by decide
theorem test_decode_typeReserved6to7 :
    decode (.selector 0b00110) = .typeReserved6to7 0 ∧ decode (.selector 0b00111) = .typeReserved6to7 1 := by decide
theorem test_decode_typeReserved8to15 :
    decode (.selector 0b01000) = .typeReserved8to15 0 ∧ decode (.selector 0b01101) = .typeReserved8to15 5 ∧
    decode (.selector 0b01111) = .typeReserved8to15 7 := by decide

/-! ### Primitives and helpers: spec/95_test_vectors.md -/

/-- V2, rows 4 and 12: the bit, the value handed to `Renorm`, the adapted cell. -/
theorem test_decodeBit :
    bitOf 0x000042108590C800 0x4000 = true ∧ bitRest 0x000042108590C800 0x4000 = 0x0000210842C84800 ∧
    bitOf 0x123456789ABCDEF0 0x2345 = true ∧ bitRest 0x123456789ABCDEF0 0x2345 = 0x0D30369D0369C70E ∧
    adapt Config.params 0x2345 true = 0x222B := by decide

/-- V3, row 2: 11 bits of 0x123456789ABCDEF0. -/
theorem test_readBits :
    let s := { quiet with accA := 0x123456789ABCDEF0 }
    readBits Config.params 11 s = .ok 0x6F0 { s with accA := s.accB, accB := 0x0002468ACF13579B } := by decide

/-- V4, the fourth row: the refill word 12 34 56 78 after 0x40000000. -/
theorem test_renorm :
    let s := { quiet with accB := 7, src := [(16, 0x12), (17, 0x34), (18, 0x56), (19, 0x78)] }
    renorm Config.params 0x40000000 s =
      .ok () { s with accA := 7, accB := 0x4000000012345678, cur := 20 } := by decide

/-- V10's rule, 43_match.md R176: a distance in the history moves to the front, a new one pushes the eighth out. -/
theorem test_histInsert :
    (histInsert 5 quiet8).hist = #v[5, 3, 4, 6, 7, 8, 9, 10] ∧ (histInsert 5 quiet8).histLen = 8 ∧
    (histInsert 1 quiet8).hist = #v[1, 3, 4, 5, 6, 7, 8, 9] ∧ (histInsert 9 quiet2).histLen = 3 := by decide

/-- 43_match.md R177: at distance 2 the last two bytes repeat. -/
theorem test_copy_overlaps :
    let t := copy 5 2 quiet
    (dstByte t 10, dstByte t 11, dstByte t 12, dstByte t 13, dstByte t 14) = (0x88, 0x99, 0x88, 0x99, 0x88) ∧
    t.wp = 15 := by decide

/-- 30_encoding.md R96: the greatest length of each of its four rows. -/
theorem test_decodeLen : [ones 2 ++ zero, ones 6 ++ zero, ones 10 ++ zero, ones 15].map
    (fun l => answer (decodeLen Config.params (fed l quiet))) = [some 8, some 23, some 38, some 54] := by decide

/-- 43_match.md R174's examples: 16, 17, 48, 4097 with RH = 1 and RL = 0, 5004 with RH = 9 and RL = 11. -/
theorem test_decodeFar : [nibble 0 ++ nibble 15, nibble 1 ++ nibble 0 ++ zero, nibble 1 ++ nibble 15 ++ ones 1,
      nibble 8 ++ nibble 0 ++ [.raw 4 1] ++ nibble 0, nibble 8 ++ nibble 3 ++ [.raw 4 9] ++ nibble 11].map
    (fun l => answer (decodeFar Config.params (fed l quiet))) =
    [some 16, some 17, some 48, some 4097, some 5004] := by decide

/-- 42_literal.md R163's example: m = 0x61, byte 0x78, by the decisions 0, 0, 0, 1 and the bits 1, 0, 0, 0. -/
theorem test_litMatched :
    let r := litMatched Config.params 0 0x61 (fed (nibble 1 ++ nibble 8) quiet)
    answer r = some 0x78 ∧
    ([1, 2, 5, 11].map fun n => cellAt Config.params r.state (1919 + n)) = [0x4200, 0x4200, 0x4200, 0x3E00] ∧
    ([1, 3, 6, 12].map fun n => cellAt Config.params r.state (1953 + n)) = [0x3E00, 0x4200, 0x4200, 0x4200] := by decide

/-- 42_literal.md R162: the upper nibble is decoded first. -/
theorem test_litPlain :
    answer (litPlain Config.params 0 (fed (nibble 4 ++ [.bit 0x4200 true] ++ [.bit 0x4000 false, .bit 0x4000 false,
      .bit 0x4000 false]) quiet)) = some 0x48 := by decide

/-! ### Instructions, one step each -/

/-- 41_models.md R147, from a state after a fault. -/
theorem test_init :
    let t := after (exec .init (faultEntry .truncated quiet8))
    t.dstate = 0 ∧ t.histLen = 0 ∧ statusWord t = 0b1010 ∧ t.err = 0 ∧ t.wp = 10 := by decide

/-- V4, first row: the 16 header bytes of program P2. -/
theorem test_decode_reads_the_header :
    let s := { initCommand State.reset with
      argDstEnd := 11, argSrcEnd := 16
      src := [(2, 0x42), (3, 0x10), (4, 0x85), (5, 0x90), (6, 0xc8), (10, 0x1f), (11, 0x07), (12, 0xc2), (13, 0x0e),
        (14, 0x32)] }
    let t := after (exec .decode s)
    t.accA = 0x000042108590C800 ∧ t.accB = 0x00001F07C20E3200 ∧ t.cur = 16 ∧ t.phase = .busy := by decide

/-- 60_exceptions.md R238: DECODE without a valid context is NotInitialised. -/
theorem test_decode_without_init :
    let t := after (exec .decode { State.reset with argDstEnd := 4 })
    t.err = 5 ∧ t.result = 0xFFFFFFFFFFFFFFFB ∧ statusWord t = 0b0100 := by decide

/-- 60_exceptions.md R235: command code 3. -/
theorem test_cmdReserved :
    let t := after (exec (.cmdReserved 3) (initCommand State.reset))
    t.err = 6 ∧ t.result = 0xFFFFFFFFFFFFFFFA ∧ statusWord t = 0b0100 := by decide

/-- Program P2, its first operation: LIT 0x41. -/
theorem test_lit :
    let t := after (step programP2)
    dstByte t 0 = 0x41 ∧ t.wp = 1 ∧ t.dstate = 0 ∧ cellAt Config.params t 0 = 0x3E00 ∧
    cellAt Config.params t 1954 = 0x43F0 := by decide

/-- Program P2, its second operation: MATCH_FAR of length 10 at distance 1. -/
theorem test_matchFar :
    let t := after (step (after (step programP2)))
    dstByte t 1 = 0x41 ∧ dstByte t 10 = 0x41 ∧ dstByte t 11 = 0 ∧ t.wp = 11 ∧ t.dstate = 7 ∧ histAt t 0 = 1 := by decide

/-- 43_match.md R181: symbols 0 give length 2 and delta 1, so distance 3; NEXT_NEW[7] is 10. -/
theorem test_matchNear0 :
    let t := after (exec .matchNear0 quiet2)
    dstByte t 10 = 0x77 ∧ dstByte t 11 = 0x88 ∧ t.wp = 12 ∧ t.dstate = 10 ∧ t.hist = #v[3, 2, 0, 0, 0, 0, 0, 0] := by
  decide

/-- 43_match.md R182: the same symbols against HIST[1] = 3 give distance 4, a new one. -/
theorem test_matchNear1 :
    let t := after (exec .matchNear1 quiet2)
    dstByte t 10 = 0x66 ∧ dstByte t 11 = 0x77 ∧ t.hist = #v[4, 2, 3, 0, 0, 0, 0, 0] ∧ t.histLen = 3 := by decide

/-- 43_match.md R183: slot 0, length 2; NEXT_REP[7] is 11. -/
theorem test_rep :
    let t := after (exec .rep quiet2)
    dstByte t 10 = 0x88 ∧ dstByte t 11 = 0x99 ∧ t.dstate = 11 ∧ t.hist = quiet2.hist ∧ t.wp = 12 := by decide

/-- 43_match.md R183: an empty slot. -/
theorem test_rep_empty_slot : (after (exec .rep quiet)).err = 2 ∧ (after (exec .rep quiet)).wp = 10 := by decide

/-- 43_match.md R184: slot 0, length 1; NEXT_SHORTREP[0] is 9. -/
theorem test_shortrep :
    let t := after (exec .shortrep { quiet2 with dstate := 0 })
    dstByte t 10 = 0x88 ∧ dstByte t 11 = 0 ∧ t.wp = 11 ∧ t.dstate = 9 := by decide

/-- 60_exceptions.md R234. -/
theorem test_typeReserved5 : (after (exec .typeReserved5 quiet)).err = 4 := by decide
theorem test_typeReserved6to7 : (after (exec (.typeReserved6to7 1) quiet)).err = 4 := by decide
theorem test_typeReserved8to15 : (after (exec (.typeReserved8to15 7) quiet)).err = 4 := by decide

/-! ### States that meet the invariant -/

theorem historyOk_of_small {s : State} (h : s.histLen.toNat ≤ 8 ∧ (∀ i, i < 8 →
    (i < s.histLen.toNat → histAt s i ≠ 0) ∧ (s.histLen.toNat ≤ i → histAt s i = 0)) ∧
    ∀ j, j < 8 → ∀ i, i < j → j < s.histLen.toNat → histAt s i ≠ histAt s j) : HistoryOk s where
  length_le := h.1
  nonzero i hi := (h.2.1 i (by have := h.1; omega)).1 hi
  distinct i j hij hj := h.2.2 j (by have := h.1; omega) i hij hj
  unused i hi := by
    by_cases h8 : i < 8
    · exact (h.2.1 i h8).2 hi
    · exact histAt_ge s (by omega)

theorem historyOk_quiet : HistoryOk quiet := historyOk_of_small (by decide)
theorem historyOk_quiet2 : HistoryOk quiet2 := historyOk_of_small (by decide)
theorem historyOk_quiet8 : HistoryOk quiet8 := historyOk_of_small (by decide)

theorem cellsInRange_of_nil {s : State} (h : s.cells = []) : CellsInRange Config.params s := fun j _ => by
  rw [cellAt_of_cells_nil h]; exact initCell_inRange params_wf j

/-- A DECODE in progress with a full history meets the invariant. -/
theorem inv_quiet8 : Inv quiet8 where
  src_wf := by decide
  dst_wf := by decide
  cells_wf := by decide
  cells := cellsInRange_of_nil rfl
  history := historyOk_quiet8
  match_state _ := by decide
  status := ⟨by decide, by decide, by decide, by decide, by decide, by decide, by decide⟩
  cursors _ := ⟨by decide, by decide, by decide, by decide, by decide⟩
  window _ := ⟨by decide, by decide, by decide⟩

/-- Only the host's script differs. -/
theorem inv_setScript {s : State} (h : Inv s) (l : List HostEvent) : Inv (s.setScript l) :=
  ⟨h.src_wf, h.dst_wf, h.cells_wf, h.cells, HistoryOk.congr (s := s) rfl rfl h.history, h.match_state,
    ⟨h.status.1, h.status.2, h.status.3, h.status.4, h.status.5, h.status.6, h.status.7⟩,
    fun p => ⟨(h.cursors p).1, (h.cursors p).2, (h.cursors p).3, (h.cursors p).4, (h.cursors p).5⟩,
    fun p => ⟨(h.window p).1, (h.window p).2, (h.window p).3⟩⟩

/-! ### Witnesses: what the hypotheses of each obligation ask for, met

The accumulator value `0x4000000000000000` makes every decision on an untouched cell a 0; `starved 0x80000000` lets no
primitive complete, and `starved 0x100000000` one on each accumulator. -/

theorem eq_ok {α : Type} {r : Res α} {v : α} (h : answer r = some v) : r = .ok v r.state := by
  cases r with
  | ok a s => cases h; rfl
  | raised c s => cases h

theorem eq_raised {α : Type} {r : Res α} {c : Cause} (h : causeOf r = some c) : r = .raised c r.state := by
  cases r with
  | ok a s => cases h
  | raised a s => cases h; rfl

theorem witness_DecodeInvertsEncode :
    (Instr.cmdReserved 0).wellFormed = true ∧ (Instr.cmdReserved 0xFFFFFFFF).wellFormed = true ∧
    (Instr.typeReserved8to15 7).wellFormed = true ∧ Config.params.Wf ∧
    ({ Config.params with tFar := 15, tShortrep := 0 } : Config.Params).Wf := by decide

theorem witness_LengthCodeIsBijective : Config.params.AsWritten ∧
    (2 ≤ 2 ∧ 2 ≤ 54) ∧ (2 ≤ 54 ∧ 54 ≤ 54) ∧ (LenSymbols.medium 6).valid = true ∧ (LenSymbols.long3 15).valid = true :=
  ⟨params_asWritten, by decide⟩

theorem witness_FarCodeIsBijective :
    (1 ≤ 1 ∧ 1 ≤ 1048560) ∧ (1 ≤ 1048560 ∧ 1048560 ≤ 1048560) ∧ (0 < 16 ∧ 0 < 16 ∧ 0 < 2 ^ 0) ∧
    (15 < 16 ∧ 15 < 16 ∧ 32767 < 2 ^ 15) := by decide

theorem witness_NearCodeIsBijective :
    63 < 64 ∧ ((-32 : Int) ≠ 0 ∧ (-32 : Int) ≤ -32 ∧ (-32 : Int) ≤ 32) ∧ ((32 : Int) ≠ 0 ∧ (-32 : Int) ≤ 32) := by decide

/-- Two planned primitives: a 0 on the first cell, and five raw bits. -/
def plan : List Plan := [.bit 0 false, .raw 5 19]

/-- A state whose source is exactly the stream of `plan`. -/
def planned : State :=
  let stream := encodeStream Config.params (planPrims Config.params plan State.reset)
  { State.reset with argSrcEnd := BitVec.ofNat 64 stream.length, src := storeBytes [] 0 stream }

theorem witness_EncodedStreamIsReadBack :
    Config.params.Wf ∧ Config.params.AsWritten ∧ Cells.wf Config.params planned.cells = true ∧
    CellsInRange Config.params planned ∧ (∀ p ∈ plan, p.ok Config.params) ∧
    let stream := encodeStream Config.params (planPrims Config.params plan planned)
    planned.argSrc.toNat + stream.length < 2 ^ 64 ∧
    planned.argSrcEnd = planned.argSrc + BitVec.ofNat 64 stream.length ∧
    srcBytes planned planned.argSrc stream.length = stream := by
  refine ⟨params_wf, params_asWritten, by decide, cellsInRange_of_nil rfl, ?_, by decide⟩
  intro p hp
  simp only [plan, List.mem_cons, List.not_mem_nil, or_false] at hp
  rcases hp with rfl | rfl <;> simp [Plan.ok, Config.numCells, Config.params]

theorem witness_PlacedInstructionIsFetched :
    Memory.wf quiet8.src = true ∧ Cells.wf Config.params quiet8.cells = true ∧ CellsInRange Config.params quiet8 :=
  ⟨by decide, by decide, cellsInRange_of_nil rfl⟩

theorem witness_CellNumberingIsExact : 0 < 2327 ∧ 2326 < 2327 := by decide

theorem witness_AdaptMovesTowardTheBit :
    Config.params.Wf ∧ Config.params.InRange 1 ∧ Config.params.InRange 0x7FFF ∧
    (0x1F ≤ (0x1F : Prob).toNat ∧ (0x7FE1 : Prob).toNat ≤ 0x7FE1) := by decide

theorem witness_RenormRefillsBelowTwoToThe31 :
    Config.params.AsWritten ∧ Config.params.renormLow ≤ 2 ^ 31 ∧ (2 ^ 31 - 1 < Config.params.renormLow ∧
      Config.params.refillBytes ≤ (bytesRemaining { quiet with cur := 196 }).toNat) ∧
    (2 ^ 31 - 1 < Config.params.renormLow ∧
      (bytesRemaining { quiet with cur := 197 }).toNat < Config.params.refillBytes) :=
  ⟨params_asWritten, by decide⟩

theorem witness_ReaderInitLoadsTheHeader :
    Config.params.AsWritten ∧
    Config.params.headerBytes ≤ (({ quiet with argSrcEnd := 16 } : State).argSrcEnd - quiet.argSrc).toNat ∧
    (({ quiet with argSrcEnd := 15 } : State).argSrcEnd - quiet.argSrc).toNat < Config.params.headerBytes :=
  ⟨params_asWritten, by decide⟩

theorem witness_DecodeBitComparesAndAdapts :
    Config.params.Wf ∧ Cells.wf Config.params quiet.cells = true ∧ CellsInRange Config.params quiet ∧ 2326 < 2327 ∧
    (let x2 := bitRest quiet.accA.toNat (cellAt Config.params quiet 2326).toNat
      let s' := setCell Config.params quiet 2326 0x4200
      renorm Config.params x2 s' = .ok () (renorm Config.params x2 s').state) ∧
    let s := starved 0x80000000 quiet
    let x2 := bitRest s.accA.toNat (cellAt Config.params s 2326).toNat
    let s' := setCell Config.params s 2326 0x4200
    renorm Config.params x2 s' = .raised .truncated (renorm Config.params x2 s').state :=
  ⟨params_wf, by decide, cellsInRange_of_nil rfl, by decide, by decide, by decide⟩

theorem witness_ReadBitsTakesTheLowBits :
    (1 ≤ 1 ∧ 16 ≤ Config.params.rawMax) ∧
    (let r := renorm Config.params (quiet.accA.toNat / 2 ^ 16) quiet; r = .ok () r.state) ∧
    let s := starved 0x80000000 quiet
    let r := renorm Config.params (s.accA.toNat / 2 ^ 1) s
    r = .raised .truncated r.state := by decide

theorem witness_AccumulatorsStayNormal : Config.params.AsWritten ∧ 16 ≤ Config.params.rawMax ∧
    (1 ≤ 0x7FFF ∧ 0x7FFF ≤ 0x7FFF ∧ 2 ^ 64 - 1 < 2 ^ 64) ∧
    (1 ≤ (cellAt Config.params quiet 0).toNat ∧ (cellAt Config.params quiet 0).toNat ≤ 0x7FFF) ∧
    (2 ^ 31 ≤ quiet.accA.toNat ∧ quiet.accA.toNat < 2 ^ 63 ∧ 2 ^ 31 ≤ quiet.accB.toNat ∧ quiet.accB.toNat < 2 ^ 63) ∧
    decodeBit Config.params 0 quiet = .ok false (decodeBit Config.params 0 quiet).state ∧
    readBits Config.params 16 quiet = .ok 0 (readBits Config.params 16 quiet).state := ⟨params_asWritten, by decide⟩

theorem witness_TreeDecodeAdaptsOnePath :
    Cells.wf Config.params quiet.cells = true ∧ 2311 + 2 ^ 4 ≤ 2327 ∧ 2325 + 2 ^ 1 ≤ 2327 ∧
    decodeTree Config.params 2311 4 quiet = .ok 0 (decodeTree Config.params 2311 4 quiet).state ∧
    (let r := decodeTree Config.params 2325 1 (starved 0x80000000 quiet); r = .raised .truncated r.state) := by decide

theorem witness_LengthAndFarDistanceInRange : Config.params.AsWritten ∧
    Cells.wf Config.params quiet.cells = true ∧
    decodeLen Config.params quiet = .ok 2 (decodeLen Config.params quiet).state ∧
    decodeFar Config.params quiet = .ok 1 (decodeFar Config.params quiet).state ∧
    (let r := decodeLen Config.params (starved 0x80000000 quiet); r = .raised .truncated r.state) ∧
    let r := decodeFar Config.params (starved 0x80000000 quiet)
    r = .raised .truncated r.state := ⟨params_asWritten, by decide⟩

/-- The answers of the four length symbols, each decoded after the one before. -/
def lenSymbolsOf (s : State) : List (Option Nat) :=
  let r0 := decodeTree Config.params 1272 3 s
  let r1 := decodeTree Config.params 1281 4 r0.state
  let r2 := decodeTree Config.params 1298 4 r1.state
  let r3 := decodeTree Config.params 1315 4 r2.state
  [answer r0, answer r1, answer r2, answer r3]

/-- The last symbol of each row of 30_encoding.md R96 at its greatest, and a raise of each symbol. -/
theorem witness_LengthIsAssembledFromItsSymbols : Config.params.AsWritten ∧
    ((lenSymbolsOf (fed (ones 2 ++ zero) quiet)).take 1 = [some 6] ∧
      (lenSymbolsOf (fed (ones 6 ++ zero) quiet)).take 2 = [some 7, some 14] ∧
      (lenSymbolsOf (fed (ones 10 ++ zero) quiet)).take 3 = [some 7, some 15, some 14] ∧
      lenSymbolsOf (fed (ones 15) quiet) = [some 7, some 15, some 15, some 15]) ∧
    (lenSymbolsOf (spent [] quiet)).take 1 = [none] ∧ (lenSymbolsOf (spent (ones 3) quiet)).take 2 = [some 7, none] ∧
    (lenSymbolsOf (spent (ones 7) quiet)).take 3 = [some 7, some 15, none] ∧
    lenSymbolsOf (spent (ones 11) quiet) = [some 7, some 15, some 15, none] :=
  ⟨params_asWritten, by decide⟩

/-- The answers of HI, LO and the symbols of R, each decoded after the one before: the tree for HI up to 4, else the
raw bits and the tree. -/
def farSymbolsOf (s : State) : List (Option Nat) :=
  let r0 := decodeTree Config.params 1374 4 s
  let hi := (answer r0).getD 0
  let r1 := decodeTree Config.params (1391 + 17 * hi) 4 r0.state
  let r2 := readBits Config.params (hi - 4) r1.state
  [answer r0, answer r1] ++
    if hi ≤ 4 then [answer (decodeTree Config.params (1663 + 16 * hi) hi r1.state)]
    else [answer r2, answer (decodeTree Config.params (1663 + 16 * hi) 4 r2.state)]

/-- HI at the boundaries of its three cases, and a raise of each symbol. -/
theorem witness_FarDistanceIsAssembledFromItsSymbols : Config.params.AsWritten ∧
    ((farSymbolsOf (fed (nibble 0 ++ nibble 15) quiet)).take 2 = [some 0, some 15] ∧
      farSymbolsOf (fed (nibble 1 ++ nibble 15 ++ ones 1) quiet) = [some 1, some 15, some 1] ∧
      farSymbolsOf (fed (nibble 4 ++ nibble 0 ++ ones 4) quiet) = [some 4, some 0, some 15] ∧
      farSymbolsOf (fed (nibble 5 ++ nibble 0 ++ [.raw 1 1] ++ nibble 2) quiet) = [some 5, some 0, some 1, some 2] ∧
      farSymbolsOf (fed (ones 8 ++ [.raw 11 2047] ++ ones 4) quiet) = [some 15, some 15, some 2047, some 15]) ∧
    (farSymbolsOf (spent [] quiet)).take 1 = [none] ∧ (farSymbolsOf (spent (nibble 1) quiet)).take 2 = [some 1, none] ∧
    farSymbolsOf (spent (nibble 1 ++ nibble 2) quiet) = [some 1, some 2, none] ∧
    (farSymbolsOf (spent (nibble 5 ++ nibble 2) quiet)).take 3 = [some 5, some 2, none] ∧
    farSymbolsOf (spent (nibble 5 ++ nibble 2 ++ [.raw 1 1]) quiet) = [some 5, some 2, some 1, none] :=
  ⟨params_asWritten, by decide⟩

theorem witness_NearDistanceIsASmallDelta : Config.params.AsWritten ∧
    (quiet.histLen.toNat ≤ 0 ∧ ({ quiet2 with histLen := 1 } : State).histLen.toNat ≤ 1) ∧ 1 < quiet2.histLen.toNat ∧
    let t := (decodeTree Config.params (1332 + 21 * 1) 4 quiet2).state
    decodeTree Config.params (1332 + 21 * 1) 4 quiet2 = .ok 0 t ∧
    decodeTree Config.params (1332 + 21 * 1 + 17) 2 t =
      .ok 0 (decodeTree Config.params (1332 + 21 * 1 + 17) 2 t).state ∧
    (0 < ((histAt quiet2 1).toNat : Int) + 1 ∧ ((histAt quiet2 1).toNat : Int) + 1 < 2 ^ 32) :=
  ⟨params_asWritten, by decide⟩

/-- The other branch: HIST[0] = 1 and V = 1, so the sum is 0; and HIST[0] = 2^32 - 1 with V = 0. -/
theorem witness_NearDistanceIsASmallDelta_refused :
    (let s := { quiet2 with hist := #v[1, 3, 0, 0, 0, 0, 0, 0], accB := 0x4000000000010000 }
      let t := (decodeTree Config.params 1332 4 s).state
      decodeTree Config.params 1332 4 s = .ok 0 t ∧
      decodeTree Config.params 1349 2 t = .ok 1 (decodeTree Config.params 1349 2 t).state ∧
      ((histAt s 0).toNat : Int) + -1 ≤ 0) ∧
    let s := { quiet2 with hist := #v[0xFFFFFFFF, 3, 0, 0, 0, 0, 0, 0] }
    let t := (decodeTree Config.params 1332 4 s).state
    decodeTree Config.params 1332 4 s = .ok 0 t ∧
    decodeTree Config.params 1349 2 t = .ok 0 (decodeTree Config.params 1349 2 t).state ∧
    2 ^ 32 ≤ ((histAt s 0).toNat : Int) + 1 := by decide

/-- `s` with no source byte left, able to complete two primitives on ACC_A and one on ACC_B. -/
def nearlyStarved (s : State) : State := { s with accA := 0x200000000, accB := 0x100000000, cur := s.lim }

theorem witness_LiteralByteUsesOneModel :
    Cells.wf Config.params quiet.cells = true ∧ 7 < 8 ∧ answer (litPlain Config.params 7 quiet) = some 0 ∧
    answer (litMatched Config.params 7 0x62 quiet) = some 0x62 ∧
    let s := { quiet with accA := 0x4000000000004000 }
    answer (litMatched Config.params 7 0x62 s) = some 0x80 ∧
    (0x80 : Byte).extractLsb' 4 4 ≠ (0x62 : Byte).extractLsb' 4 4 := by decide

/-- A plain literal of the last LiteralModel, a raise of each of its nibbles, and a matched literal. -/
theorem witness_LiteralByteIsAssembledFromItsBits :
    7 < 8 ∧ (let r := decodeTree Config.params 2310 4 quiet; answer r = some 0 ∧
      answer (decodeTree Config.params 2310 4 r.state) = some 0) ∧
    causeOf (decodeTree Config.params 2310 4 (spent [] quiet)) = some .truncated ∧
    (let r := decodeTree Config.params 2310 4 (spent (nibble 9) quiet); answer r = some 9 ∧
      causeOf (decodeTree Config.params 2310 4 r.state) = some .truncated) ∧
    answer (litMatched Config.params 7 0x61 (fed (nibble 1 ++ nibble 8) quiet)) = some 0x78 := by decide

theorem witness_HistInsertMovesToFront :
    HistoryOk quiet8 ∧ (7 < quiet8.histLen.toNat ∧ histAt quiet8 7 = 10) ∧
    (∀ j, j < quiet8.histLen.toNat → histAt quiet8 j ≠ 1) :=
  ⟨historyOk_quiet8, by decide, by decide⟩

theorem witness_HistoryStaysWellFormed :
    (∃ t, exec .init quiet8 = .next t) ∧ HistoryOk quiet8 ∧ ∃ t, step quiet8 = .next t :=
  ⟨exec_next _ _, historyOk_quiet8, exists_next (by decide)⟩

theorem witness_CopyRepeatsTheWindow :
    Memory.wf quiet.dst = true ∧ quiet.argDstStart ≤ quiet.wp ∧ quiet.wp ≤ quiet.argDstEnd ∧ 1 ≤ 1 ∧
    FitsWindow 1 10 quiet ∧ FitsWindow 100 1 quiet :=
  ⟨by decide, by decide, by decide, by decide, ⟨by decide, by decide, by decide⟩, ⟨by decide, by decide, by decide⟩⟩

theorem witness_MatchFinishChecksThenWrites :
    Memory.wf quiet.dst = true ∧ (1 ≤ 1 ∧ 54 ≤ 54) ∧ windowSize quiet < (11 : Dist).toNat ∧
    ((10 : Dist) ≠ 0 ∧ (10 : Dist).toNat ≤ windowSize (tight quiet) ∧ roomLeft (tight quiet) < 2) ∧
    FitsWindow 54 10 quiet := ⟨by decide, by decide, by decide, by decide, ⟨by decide, by decide, by decide⟩⟩

theorem witness_TransitionTables : (7 : DecState) ≤ 7 ∧ (7 : DecState) ≤ 11 := by decide

/-- A plain literal, a matched one, a raise, and bytes for exactly 8 primitives. -/
theorem witness_LitWritesOneByte :
    (Memory.wf quiet.dst = true ∧ Cells.wf Config.params quiet.cells = true) ∧
    answer (litPlain Config.params 4 quiet) = some 0 ∧
    (7 ≤ quiet8.dstate.val ∧ 1 ≤ quiet8.histLen.toNat ∧ (histAt quiet8 0).toNat ≤ 10 ∧
      answer (litMatched Config.params 4 (dstByte quiet8 7) quiet8) = some 0x77) ∧
    causeOf (litPlain Config.params 4 (starved 0x80000000 quiet)) = some .truncated ∧
    Supply Config.params 8 { quiet with cur := 168 } := ⟨by decide, by decide, by decide, by decide, ⟨by decide, by decide⟩⟩

theorem witness_MatchFarCopiesFromAFarDistance :
    (Memory.wf quiet.dst = true ∧ Cells.wf Config.params quiet.cells = true) ∧
    causeOf (decodeLen Config.params (starved 0x80000000 quiet)) = some .truncated ∧
    (let r := decodeLen Config.params (nearlyStarved quiet); answer r = some 2 ∧
      causeOf (decodeFar Config.params r.state) = some .truncated) ∧
    (∀ s ∈ [quiet, empty quiet, tight quiet], let r := decodeLen Config.params s; answer r = some 2 ∧
      answer (decodeFar Config.params r.state) = some 1) ∧
    windowSize (empty quiet) < (1 : Dist).toNat ∧
    ((1 : Dist).toNat ≤ windowSize (tight quiet) ∧ roomLeft (tight quiet) < 2) ∧ FitsWindow 2 1 quiet ∧
    let s := { quiet with wp := 1048560, argDstEnd := 1048614, cur := 88 }
    Supply Config.params 28 s ∧ 1048560 ≤ windowSize s ∧ 54 ≤ roomLeft s :=
  ⟨by decide, by decide, by decide, by decide, by decide, by decide, ⟨by decide, by decide, by decide⟩,
    ⟨by decide, by decide⟩, by decide, by decide⟩

/-- Both instructions, `k` being 0 and 1. -/
theorem witness_MatchNearCopiesFromANearDistance : ∀ k, k < 2 →
    (Memory.wf quiet2.dst = true ∧ Cells.wf Config.params quiet2.cells = true) ∧
    causeOf (decodeLen Config.params (starved 0x80000000 quiet2)) = some .truncated ∧
    (let r := decodeLen Config.params (nearlyStarved quiet2); answer r = some 2 ∧
      causeOf (decodeNear Config.params k r.state) = some .truncated) ∧
    ({ quiet2 with histLen := BitVec.ofNat 4 k } : State).histLen.toNat ≤ k ∧
    (∀ s ∈ [quiet2, empty quiet2, tight quiet2], let r := decodeLen Config.params s; answer r = some 2 ∧
      answer (decodeNear Config.params k r.state) = some (BitVec.ofNat 32 (3 + k))) ∧
    windowSize (empty quiet2) < 3 + k ∧ (3 + k ≤ windowSize (tight quiet2) ∧ roomLeft (tight quiet2) < 2) ∧
    (BitVec.ofNat 32 (3 + k) ≠ 0 ∧ (BitVec.ofNat 32 (3 + k)).toNat ≤ windowSize quiet2 ∧ 2 ≤ roomLeft quiet2) ∧
    let s := { quiet2 with hist := #v[33, 33, 0, 0, 0, 0, 0, 0], wp := 65, argDstEnd := 119, cur := 116 }
    (s.cur ≤ s.lim ∧ 4 * 21 ≤ (bytesRemaining s).toNat) ∧ k < s.histLen.toNat ∧ 33 ≤ (histAt s k).toNat ∧
    (histAt s k).toNat + 32 < 2 ^ 32 ∧ (histAt s k).toNat + 32 ≤ windowSize s ∧ 54 ≤ roomLeft s := by decide

theorem witness_RepReusesASlot :
    (Memory.wf quiet2.dst = true ∧ Cells.wf Config.params quiet2.cells = true) ∧
    causeOf (decode3 Config.params 363 (starved 0x80000000 quiet2)) = some .truncated ∧
    (answer (decode3 Config.params 300 quiet) = some 0 ∧ quiet.histLen.toNat ≤ 0) ∧
    (let r := decode3 Config.params 363 (nearlyStarved quiet2); answer r = some 0 ∧ 0 < quiet2.histLen.toNat ∧
      causeOf (decodeLen Config.params r.state) = some .truncated) ∧
    (∀ s ∈ [quiet2, empty quiet2, tight quiet2], let r := decode3 Config.params 363 s; answer r = some 0 ∧
      answer (decodeLen Config.params r.state) = some 2) ∧
    windowSize (empty quiet2) < (histAt quiet2 0).toNat ∧
    (histAt quiet2 0 ≠ 0 ∧ (histAt quiet2 0).toNat ≤ windowSize (tight quiet2) ∧ roomLeft (tight quiet2) < 2) ∧
    FitsWindow 2 (histAt quiet2 0) quiet2 ∧
    let s := { quiet8 with argDstEnd := 64, cur := 128 }
    Supply Config.params 18 s ∧ s.histLen = 8 ∧ (∀ i, i < 8 → histAt s i ≠ 0 ∧ (histAt s i).toNat ≤ windowSize s) ∧ 54 ≤ roomLeft s :=
  ⟨by decide, by decide, by decide, by decide, by decide, by decide, by decide, ⟨by decide, by decide, by decide⟩,
    ⟨by decide, by decide⟩, by decide, by decide, by decide⟩

theorem witness_ShortRepCopiesOneToEight :
    (Memory.wf quiet2.dst = true ∧ Cells.wf Config.params quiet2.cells = true) ∧
    causeOf (decode3 Config.params 363 (starved 0x80000000 quiet2)) = some .truncated ∧
    (answer (decode3 Config.params 300 quiet) = some 0 ∧ quiet.histLen.toNat ≤ 0) ∧
    (let r := decode3 Config.params 363 (nearlyStarved quiet2); answer r = some 0 ∧ 0 < quiet2.histLen.toNat ∧
      causeOf (decode3 Config.params (408 + 9 * (8 * 7 + 0)) r.state) = some .truncated) ∧
    (∀ s ∈ [quiet2, empty quiet2, { quiet2 with argDstEnd := 10 }],
      let r := decode3 Config.params 363 s; answer r = some 0 ∧
      answer (decode3 Config.params (408 + 9 * (8 * 7 + 0)) r.state) = some 0) ∧
    windowSize (empty quiet2) < (histAt quiet2 0).toNat ∧
    (histAt quiet2 0 ≠ 0 ∧ (histAt quiet2 0).toNat ≤ windowSize quiet2 ∧
      roomLeft { quiet2 with argDstEnd := 10 } < 1 + 0) ∧
    FitsWindow (1 + 0) (histAt quiet2 0) quiet2 ∧
    let s := { quiet8 with argDstEnd := 18, cur := 176 }
    Supply Config.params 6 s ∧ s.histLen = 8 ∧ (∀ i, i < 8 → histAt s i ≠ 0 ∧ (histAt s i).toNat ≤ windowSize s) ∧ 8 ≤ roomLeft s :=
  ⟨by decide, by decide, by decide, by decide, by decide, by decide, by decide, ⟨by decide, by decide, by decide⟩,
    ⟨by decide, by decide⟩, by decide, by decide, by decide⟩

theorem witness_MatchIsWholeOrUntouched :
    Memory.wf quiet8.dst = true ∧ (.rep = Instr.matchFar ∨ .rep = Instr.matchNear0 ∨ .rep = Instr.matchNear1 ∨
      .rep = Instr.rep ∨ .rep = Instr.shortrep) := by decide

theorem witness_ReservedTypesRaiseModelCorruption :
    (∃ low, Instr.typeReserved6to7 1 = .typeReserved6to7 low) ∧ ∃ low, Instr.typeReserved8to15 7 = .typeReserved8to15 low :=
  ⟨⟨1, rfl⟩, ⟨7, rfl⟩⟩

/-- The cell of state 11 at position 10 modulo 8 is 90; the type model of state 11 starts at 283. -/
theorem witness_SelectorIsIsLitThenType : Config.params.AsWritten ∧
    Cells.wf Config.params quiet8.cells = true ∧
    causeOf (decodeBit Config.params 90 (starved 0x80000000 quiet8)) = some .truncated ∧
    answer (decodeBit Config.params 90 { quiet8 with accA := 0x4000000000004000 }) = some true ∧
    (let r := decodeBit Config.params 90 quiet8; answer r = some false ∧
      answer (decodeTree Config.params 283 4 r.state) = some 0) ∧
    (let r := decodeBit Config.params 90 (starved 0x100000000 quiet8); answer r = some false ∧
      causeOf (decodeTree Config.params 283 4 r.state) = some .truncated) ∧
    answer (fetchSelector Config.params quiet8) = some 0 := ⟨params_asWritten, by decide⟩

/-- In state 11 at position 2, each code point and the smallest reserved one; a raise of the bit and of the nibble; a
1; and a record with other code points. -/
theorem witness_TypeCodePointsPickTheOperation :
    Config.params.Wf ∧ ({ Config.params with tFar := 15, tShortrep := 0 } : Config.Params).Wf ∧
    (∀ n, n ≤ 5 → let r := decodeBit Config.params 90 (fed (zero ++ nibble n) quiet8); answer r = some false ∧
      answer (decodeTree Config.params 283 4 r.state) = some n) ∧
    (∀ code ∈ Config.params.codePoints, 5 ≠ code.toNat) ∧
    causeOf (decodeBit Config.params 90 (spent [] quiet8)) = some .truncated ∧
    (let r := decodeBit Config.params 90 (spent zero quiet8); answer r = some false ∧
      causeOf (decodeTree Config.params 283 4 r.state) = some .truncated) ∧
    answer (decodeBit Config.params 90 (fed (ones 1) quiet8)) = some true := by decide

theorem witness_InitResetsTheContext : 0 < 2327 ∧ 2326 < 2327 := by decide

/-- A context made valid by INIT. -/
def ready : State := initCommand State.reset

theorem witness_DecodeChecksItsArguments :
    State.reset.ctxValid = false ∧ ready.ctxValid = true ∧
    (let s := { ready with argDstStart := 1 }; ¬(s.argDstStart ≤ s.argDst ∧ s.argDst ≤ s.argDstEnd)) ∧
    (let s := { ready with argDst := 1 }; ¬(s.argDstStart ≤ s.argDst ∧ s.argDst ≤ s.argDstEnd)) ∧
    let s := { ready with argSrc := 1 }
    s.ctxValid = true ∧ s.argDstStart ≤ s.argDst ∧ s.argDst ≤ s.argDstEnd ∧ ¬s.argSrc ≤ s.argSrcEnd := by decide

theorem witness_DecodeStartsTheReader :
    let s := fun e : Addr => { ready with argDstEnd := 1, argSrcEnd := e }
    ((s 16).ctxValid = true ∧ (s 16).argDstStart ≤ (s 16).argDst ∧ (s 16).argDst < (s 16).argDstEnd ∧
      (s 16).argSrc ≤ (s 16).argSrcEnd ∧ 16 ≤ ((s 16).argSrcEnd - (s 16).argSrc).toNat) ∧
    (s 15).argSrc ≤ (s 15).argSrcEnd ∧ ((s 15).argSrcEnd - (s 15).argSrc).toNat < 16 := by decide

theorem witness_ZeroLengthQuantumCompletes :
    ready.ctxValid = true ∧ ready.argDstStart ≤ ready.argDst ∧ ready.argDst = ready.argDstEnd ∧
    ready.argSrc ≤ ready.argSrcEnd := by decide

theorem loopTurn_of {s : State} (h : (decide (s.phase = .busy) && (dueEvent s).isNone) = true) : LoopTurn s := by
  rw [Bool.and_eq_true] at h
  exact ⟨of_decide_eq_true h.1, Option.isNone_iff_eq_none.mp h.2⟩

theorem witness_LoopEndsWithTheByteCount :
    let s := { quiet8 with argDstEnd := 10 }
    LoopTurn s ∧ s.argDstEnd ≤ s.wp ∧ CursorsOk s :=
  ⟨loopTurn_of (by decide), by decide, by decide, by decide, by decide, by decide, by decide⟩

/-- An event that lands between commands. -/
def between (a : HostAction) : HostEvent := ⟨.afterCommand, a⟩

theorem witness_OnlyInitRecovers :
    (let s := { State.reset with script := [between (.regWrite 0 .b64 1)] }; s.ctxValid = false ∧ ∃ t, step s = .next t ∧ t.ctxValid = true) ∧
    let s := { faultEntry .truncated State.reset with script := [between .hwReset] }
    s.fault = true ∧ ∃ t, step s = .next t ∧ t.fault = false :=
  ⟨⟨by decide, _, rfl, by decide⟩, by decide, _, rfl, rfl⟩

theorem witness_RegisterReads :
    State.reset.phase = .idle ∧ quiet.phase = .busy ∧ 7 < 8 ∧ 2326 < 2327 ∧ 0xA0 < (0xA8 : BitVec 64).toNat ∧
    (0xA0 - 1 : BitVec 64).toNat % 8 ≠ 0 ∧ (0x1FFE : BitVec 64).toNat < 0x2000 ∧ 0x322E ≤ (0x322E : BitVec 64).toNat ∧
    dueEvent (quiet.setScript [⟨.afterMoves 0, .regRead 0x58 .b64⟩]) = some (.regRead 0x58 .b64, quiet) := by decide

theorem witness_RegisterWrites :
    State.reset.phase = .idle ∧ quiet.phase = .busy ∧ (0x18 : BitVec 64).toNat < 0x20 ∧ 0x40 < (0x48 : BitVec 64).toNat ∧
    (0x21 : BitVec 64).toNat % 8 ≠ 0 ∧ AccessSize.b16 ≠ .b64 ∧ (0x20 : BitVec 64) ≠ 0x00 ∧
    dueEvent (State.reset.setScript [between (.regWrite 0x20 .b64 5)]) =
      some (.regWrite 0x20 .b64 5, State.reset) := by decide

theorem witness_HostMemoryAccess :
    Memory.wf ready.src = true ∧ Memory.wf ready.dst = true ∧
    ∀ a ∈ [HostAction.srcWrite 0 7, .srcRead 0, .dstWrite 0xFFFFFFFFFFFFFFFF 7, .dstRead 0xFFFFFFFFFFFFFFFF],
      let s := { ready with script := [between a] }
      s.phase = .idle ∧ s.script = between a :: [] ∧ (between a).action = a := by decide

/-- A reset while IDLE and one inside an operation. -/
theorem witness_HardwareResetAtAnyTime :
    (let s := quiet8.setScript [⟨.afterMoves 0, .hwReset⟩]; Inv s ∧ s.phase = .busy ∧ dueEvent s = some (.hwReset, quiet8)) ∧
    dueEvent (State.reset.setScript [between .hwReset]) = some (.hwReset, State.reset) :=
  ⟨⟨inv_setScript inv_quiet8 _, rfl, rfl⟩, rfl⟩

theorem witness_StepRunsDecodedInstruction :
    (let s := { ready with script := [between (.regWrite 0 .b64 2)] }; s.phase = .idle ∧ s.script = between (.regWrite 0 .b64 2) :: []) ∧
    (LoopTurn quiet8 ∧ quiet8.wp < quiet8.argDstEnd ∧ answer (fetchSelector Config.params quiet8) = some 0) ∧
    LoopTurn (starved 0x80000000 quiet8) ∧
    causeOf (fetchSelector Config.params (starved 0x80000000 quiet8)) = some .truncated :=
  ⟨⟨rfl, rfl⟩, ⟨loopTurn_of (by decide), by decide, by decide⟩, loopTurn_of (by decide), by decide⟩

theorem witness_StepKeepsTheInvariant : Inv quiet8 ∧ ∃ t, step quiet8 = .next t :=
  ⟨inv_quiet8, exists_next (by decide)⟩

/-- Cell 96, slot 0 of the first type model, is on no path. -/
theorem witness_UnusedCellsKeepTheirValue :
    Cells.wf Config.params quiet8.cells = true ∧ (∃ t, step quiet8 = .next t) ∧ ¬Consulted 96 ∧
    cellAt Config.params quiet8 96 = initCell Config.params 96 := by
  refine ⟨by decide, exists_next (by decide), ?_, by decide⟩
  rintro ⟨q, h, e⟩
  cases q <;>
    simp [onPath, cellIndex, isLitCell, typeBase, repSlotBase, shortLenBase, medLenBase, longLenBase, nearFirstBase,
      nearLowBase, farHiBase, farLoBase, farRefBase, litUpperBase, litLowerBase, litNomatchBase] at h e <;> omega

theorem witness_StepStaysInItsRegions :
    Inv quiet8 ∧ NoHostMemoryAccess quiet8 ∧ (∃ t, step quiet8 = .next t) ∧ LoopTurn quiet8 :=
  ⟨inv_quiet8, trivial, exists_next (by decide), loopTurn_of (by decide)⟩

theorem witness_DecodeTerminates : Inv quiet8 ∧ quiet8.phase = .busy ∧ NoEventInside quiet8 :=
  ⟨inv_quiet8, rfl, trivial⟩

theorem witness_DecodeRunsAsOneQuantum :
    let e := between (.regWrite 0x00 .b64 2)
    let s := { ready with script := [e, between .hwReset] }
    s.phase = .idle ∧ s.script = e :: [between .hwReset] ∧ e.action = .regWrite 0x00 .b64 2 ∧
    decode (.command 2) = .decode ∧ NoEventInside (s.setScript [between .hwReset]) :=
  ⟨rfl, rfl, rfl, by decide, rfl⟩

/-- Two states with the same inputs that differ elsewhere: in the accumulators and in a byte above the window. -/
theorem witness_DecodeIsAFunctionOfItsInputs :
    let s := { quiet8 with argDst := 10 }
    let t := { quiet8 with argDst := 10, accA := 5, dst := (quiet8.dst ++ [(11, 1)]) }
    Inv s ∧ Inv t ∧ SameInputs s t ∧ s ≠ t := by
  refine ⟨⟨by decide, by decide, by decide, cellsInRange_of_nil rfl, HistoryOk.congr (s := quiet8) rfl rfl historyOk_quiet8,
    by decide, ⟨by decide, by decide, by decide, by decide, by decide, by decide, by decide⟩,
    fun _ => ⟨by decide, by decide, by decide, by decide, by decide⟩, fun _ => ⟨by decide, by decide, by decide⟩⟩,
    ⟨by decide, by decide, by decide, cellsInRange_of_nil rfl, HistoryOk.congr (s := quiet8) rfl rfl historyOk_quiet8,
    by decide, ⟨by decide, by decide, by decide, by decide, by decide, by decide, by decide⟩,
    fun _ => ⟨by decide, by decide, by decide, by decide, by decide⟩, fun _ => ⟨by decide, by decide, by decide⟩⟩,
    ⟨⟨rfl, rfl, rfl, rfl, rfl⟩, ⟨rfl, rfl, rfl, rfl, rfl⟩, fun _ _ _ => rfl, fun a _ ha => ?_⟩, by decide⟩
  have h : a.toNat < 10 := BitVec.lt_def.mp ha
  obtain ⟨n, hn⟩ : ∃ n, n = a.toNat := ⟨_, rfl⟩
  unfold dstByte Memory.read
  rw [← hn] at h ⊢
  clear hn
  revert n
  decide

end Sys2Proof.Tests
end

