-- ==== Sys2Proof/Proofs/Invariant.lean ====
section
/-! PROOF. The invariant of the machine: it holds after reset, and every step keeps it (10_state.md R48). -/

namespace Sys2Proof.Safety

open Sys2Proof.Machine

variable {s t : State} {T : Nat → Prop}

/-! ### The clauses on CTX -/

/-- The clauses of `Inv` on the context: the cells, the history and DSTATE. They do not ask what the block is
doing. -/
structure ContextOk (s : State) : Prop where
  cells_wf : Cells.wf Config.params s.cells = true
  cells : CellsInRange Config.params s
  history : HistoryOk s
  match_state : Config.params.litStateLimit ≤ s.dstate.val → 1 ≤ s.histLen.toNat

theorem Inv.context (h : Inv s) : ContextOk s := ⟨h.cells_wf, h.cells, h.history, h.match_state⟩

/-- The clauses on CTX read CTX only. -/
theorem ContextOk.congr (h : ContextOk s) (hc : t.cells = s.cells) (hh : t.hist = s.hist)
    (hl : t.histLen = s.histLen) (hd : t.dstate = s.dstate) : ContextOk t where
  cells_wf := hc ▸ h.cells_wf
  cells j hj := by rw [cellAt_congr hc]; exact h.cells j hj
  history := HistoryOk.congr hh hl h.history
  match_state := by rw [hd, hl]; exact h.match_state

theorem histAt_of_cleared (hh : s.hist = Vector.replicate 8 0) (i : Nat) : histAt s i = 0 := by
  unfold histAt
  rw [hh, Vector.getElem?_replicate]
  split <;> rfl

/-- A cleared history is well-formed (10_state.md R26). -/
theorem historyOk_of_cleared (hh : s.hist = Vector.replicate 8 0) (hl : s.histLen = 0) : HistoryOk s := by
  have len : s.histLen.toNat = 0 := by rw [hl]; rfl
  exact ⟨by omega, by omega, by omega, fun i _ => histAt_of_cleared hh i⟩

/-- A context as INIT leaves it (41_models.md R147), which the model also has after reset. -/
theorem contextOk_of_cleared (hc : s.cells = []) (hh : s.hist = Vector.replicate 8 0) (hl : s.histLen = 0)
    (hd : s.dstate = Config.stateInit) : ContextOk s where
  cells_wf := by rw [hc]; exact Cells.wf_nil
  cells j _ := by rw [cellAt_of_cells_nil hc]; exact initCell_inRange params_wf j
  history := historyOk_of_cleared hh hl
  match_state := by rw [hd]; exact fun h => absurd h (by decide)

/-- Decoding symbols keeps the context well-formed: each cell it writes was adapted. -/
theorem ContextOk.readerStep (h : ContextOk s) (hst : ReaderStep Config.params T s t) : ContextOk t where
  cells_wf := hst.wf h.cells_wf
  cells := hst.range params_wf h.cells_wf h.cells
  history := hst.historyOk h.history
  match_state := by rw [hst.frame]; exact h.match_state

/-- An operation keeps the context well-formed; one that ends in a match state has inserted a distance. -/
theorem ContextOk.opStep (h : ContextOk s) (op : OpStep Config.params T s t) : ContextOk t where
  cells_wf := op.wf h.cells_wf
  cells := op.range params_wf h.cells_wf h.cells
  history := op.history h.history
  match_state := op.match_state params_wf h.history

/-! ### The clauses on the cursors of a command in progress -/

/-- An operation moves CUR by whole refills, not past LIM (10_state.md R22). -/
theorem CursorsOk.opStep (h : CursorsOk s) (op : OpStep Config.params T s t) : CursorsOk t := by
  obtain ⟨src_le, cur_le, lim_eq, header, words⟩ := h
  obtain ⟨from_cur, to_lim, refills⟩ := op.cursor cur_le
  have elim : t.lim = s.lim := by rw [op.frame]
  have esrc : t.argSrc = s.argSrc := by rw [op.frame]
  have eend : t.argSrcEnd = s.argSrcEnd := by rw [op.frame]
  rw [refillBytes_asWritten params_asWritten] at refills
  have sum : (t.cur - s.argSrc).toNat = (s.cur - s.argSrc).toNat + (t.cur - s.cur).toNat := by bv_omega
  refine ⟨?_, ?_, by rw [elim, eend, lim_eq], ?_, ?_⟩
  · rw [esrc]; exact BitVec.le_trans src_le from_cur
  · rw [elim]; exact to_lim
  · rw [esrc]; omega
  · rw [esrc]; omega

/-- An operation writes within the room left, so WP stays in the region to fill (10_state.md R23). -/
theorem WindowOk.opStep (h : WindowOk s) (op : OpStep Config.params T s t) : WindowOk t := by
  obtain ⟨start_le, dst_le, wp_le⟩ := h
  obtain ⟨n, -, -, room, hwp, -⟩ := op.written
  have estart : t.argDstStart = s.argDstStart := by rw [op.frame]
  have edst : t.argDst = s.argDst := by rw [op.frame]
  have eend : t.argDstEnd = s.argDstEnd := by rw [op.frame]
  unfold roomLeft at room
  refine ⟨by rw [estart, edst]; exact start_le, ?_, ?_⟩
  · rw [edst, hwp]; bv_omega
  · rw [eend, hwp]; bv_omega

/-! ### The clauses on STATUS, ERR and RESULT -/

/-- A valid context and FAULT exclude each other, so ERR is 0 where the context is valid. -/
theorem StatusOk.fault_of_valid (h : StatusOk s) (hv : s.ctxValid = true) : s.fault = false := by
  cases hf : s.fault with
  | false => rfl
  | true => exact absurd (h.fault_invalid hf) (by rw [hv]; decide)

/-- These clauses read PHASE, the stored STATUS bits, ERR and RESULT only. -/
theorem StatusOk.congr (h : StatusOk s) (hp : t.phase = s.phase) (hd : t.done = s.done) (hf : t.fault = s.fault)
    (hv : t.ctxValid = s.ctxValid) (he : t.err = s.err) (hr : t.result = s.result) : StatusOk t where
  busy_not_done := by rw [hp, hd]; exact h.busy_not_done
  busy_valid := by rw [hp, hv]; exact h.busy_valid
  done_not_fault := by rw [hd, hf]; exact h.done_not_fault
  fault_invalid := by rw [hf, hv]; exact h.fault_invalid
  err_iff := by rw [he, hf]; exact h.err_iff
  err_le := by rw [he]; exact h.err_le
  result_err := by rw [hf, hr, he]; exact h.result_err

/-- An IDLE block without a fault only has to have ERR = 0: after INIT, a completed DECODE, or reset. -/
theorem statusOk_of_no_fault (hp : s.phase = .idle) (hf : s.fault = false) (he : s.err = 0) : StatusOk s where
  busy_not_done h := absurd (hp.symm.trans h) (by decide)
  busy_valid h := absurd (hp.symm.trans h) (by decide)
  done_not_fault _ := hf
  fault_invalid h := absurd (hf.symm.trans h) (by decide)
  err_iff := ⟨fun _ => hf, fun _ => he⟩
  err_le := by rw [he]; exact Nat.zero_le 6
  result_err h := absurd (hf.symm.trans h) (by decide)

/-- The ERR value of a cause, and its negative as RESULT (60_exceptions.md R230, R236). -/
theorem causeCode_outcome (c : Cause) :
    BitVec.ofNat 8 (causeCode c) ≠ 0 ∧ (BitVec.ofNat 8 (causeCode c)).toNat ≤ 6 ∧
    0 - BitVec.ofNat 64 (causeCode c) = 0 - (BitVec.ofNat 8 (causeCode c)).setWidth 64 := by
  cases c <;> decide

/-- Fault entry writes a consistent STATUS, ERR and RESULT whatever they were (60_exceptions.md R236). -/
theorem statusOk_faultEntry (c : Cause) (s : State) : StatusOk (faultEntry c s) :=
  have ⟨ne_zero, le_six, negated⟩ := causeCode_outcome c
  { busy_not_done := nofun
    busy_valid := nofun
    done_not_fault := nofun
    fault_invalid := fun _ => rfl
    err_iff := ⟨fun h => absurd h ne_zero, nofun⟩
    err_le := le_six
    result_err := fun _ => negated }

/-! ### What each transition keeps -/

/-- An IDLE block has no cursor to keep in its region. -/
theorem Inv.of_idle (hp : s.phase = .idle) (hsrc : Memory.wf s.src = true) (hdst : Memory.wf s.dst = true)
    (hctx : ContextOk s) (hst : StatusOk s) : Inv s where
  src_wf := hsrc
  dst_wf := hdst
  cells_wf := hctx.cells_wf
  cells := hctx.cells
  history := hctx.history
  match_state := hctx.match_state
  status := hst
  cursors h := absurd (hp.symm.trans h) (by decide)
  window h := absurd (hp.symm.trans h) (by decide)

/-- The invariant asks of the two memories only their canonical form, and of the model's host interface nothing. -/
theorem Inv.withHostSide (h : Inv s) {src dst : Memory} (hsrc : Memory.wf src = true) (hdst : Memory.wf dst = true)
    (l : List HostEvent) (v : BitVec 64) (n : Nat) :
    Inv { s with src := src, dst := dst, script := l, readData := v, freeReads := n } where
  src_wf := hsrc
  dst_wf := hdst
  cells_wf := h.cells_wf
  cells := h.cells
  history := HistoryOk.congr (s := s) rfl rfl h.history
  match_state := h.match_state
  status := h.status.congr rfl rfl rfl rfl rfl rfl
  cursors hp := have c := h.cursors hp; ⟨c.src_le, c.cur_le, c.lim_eq, c.header, c.words⟩
  window hp := have w := h.window hp; ⟨w.start_le, w.dst_le, w.wp_le⟩

theorem Inv.setScript (h : Inv s) (l : List HostEvent) : Inv (s.setScript l) :=
  h.withHostSide h.src_wf h.dst_wf l s.readData s.freeReads

/-- An operation of the loop that runs to its end. -/
theorem Inv.opStep (h : Inv s) (hp : s.phase = .busy) (op : OpStep Config.params T s t) : Inv t :=
  have ctx := h.context.opStep op
  { src_wf := by rw [op.frame]; exact h.src_wf
    dst_wf := op.dst_wf h.dst_wf
    cells_wf := ctx.cells_wf
    cells := ctx.cells
    history := ctx.history
    match_state := ctx.match_state
    status := by rw [op.frame]; exact h.status.congr rfl rfl rfl rfl rfl rfl
    cursors := fun _ => (h.cursors hp).opStep op
    window := fun _ => (h.window hp).opStep op }

/-- Fault entry, from any state whose memories and context are well-formed. -/
theorem inv_faultEntry (c : Cause) (hsrc : Memory.wf s.src = true) (hdst : Memory.wf s.dst = true)
    (hctx : ContextOk s) : Inv (faultEntry c s) :=
  .of_idle rfl hsrc hdst (hctx.congr rfl rfl rfl rfl) (statusOk_faultEntry c s)

/-- An operation of the loop that raises. -/
theorem Inv.opRaise {c : Cause} (h : Inv s) (hr : OpRaise Config.params T s c t) : Inv (faultEntry c t) := by
  obtain ⟨symbols, -⟩ := hr
  have esrc : t.src = s.src := by rw [symbols.frame]
  have edst : t.dst = s.dst := by rw [symbols.frame]
  exact inv_faultEntry c (esrc ▸ h.src_wf) (edst ▸ h.dst_wf) (h.context.readerStep symbols)

/-- Completing a command, from any state whose memories and context are well-formed and where no fault stands. -/
theorem inv_completeDecode (hsrc : Memory.wf s.src = true) (hdst : Memory.wf s.dst = true) (hctx : ContextOk s)
    (hf : s.fault = false) : Inv (completeDecode s) :=
  .of_idle rfl hsrc hdst (hctx.congr rfl rfl rfl rfl) (statusOk_of_no_fault rfl hf rfl)

theorem Inv.initCommand (h : Inv s) : Inv (initCommand s) :=
  .of_idle rfl h.src_wf h.dst_wf (contextOk_of_cleared rfl rfl rfl rfl) (statusOk_of_no_fault rfl rfl rfl)

/-- A DECODE whose arguments passed and whose header was read (44_quantum_loop.md R200, 40_bitreader.md R121):
CUR stands behind the header, WP at the start of the region to fill. -/
theorem Inv.decodeStarted (h : Inv s) (hargs : ArgsOk s) (header : 16 ≤ (s.argSrcEnd - s.argSrc).toNat) (a b : Acc) :
    Inv (((((acceptCommand s).setWp s.argDst).setReader s.argSrc s.argSrcEnd).setAcc a b).setCur (s.argSrc + 16)) := by
  obtain ⟨valid, start_le, dst_le, src_le⟩ := hargs
  have behind : s.argSrc ≤ s.argSrc + 16 := by bv_omega
  have inside : s.argSrc + 16 ≤ s.argSrcEnd := by bv_omega
  have moved : (s.argSrc + 16 - s.argSrc).toNat = 16 := by bv_omega
  have words : (s.argSrc + 16 - s.argSrc).toNat % 4 = 0 := by rw [moved]
  have ctx : ContextOk (acceptCommand s) := h.context.congr rfl rfl rfl rfl
  exact
    { src_wf := h.src_wf
      dst_wf := h.dst_wf
      cells_wf := ctx.cells_wf
      cells := ctx.cells
      history := HistoryOk.congr (s := s) rfl rfl h.history
      match_state := ctx.match_state
      status := ⟨fun _ => rfl, fun _ => valid, nofun, h.status.fault_invalid, h.status.err_iff, h.status.err_le,
        h.status.result_err⟩
      cursors := fun _ => ⟨behind, inside, rfl, moved.ge, words⟩
      window := fun _ => ⟨start_le, BitVec.le_refl _, dst_le⟩ }

/-- Accepting a DECODE (44_quantum_loop.md R200 to R202): a refusal, a quantum of zero length, a source without a
header, or the start of the loop. -/
theorem Inv.startDecode (h : Inv s) (hn : settle (startDecode Config.params s) = .next t) : Inv t := by
  have ctx : ContextOk (acceptCommand s) := h.context.congr rfl rfl rfl rfl
  rcases decode_outcome hn with ⟨c, -, rfl⟩ | ⟨args, -, rfl⟩ | ⟨-, -, -, rfl⟩ | ⟨args, -, header, a, b, rfl⟩
  · exact inv_faultEntry c h.src_wf h.dst_wf ctx
  · exact inv_completeDecode h.src_wf h.dst_wf (ctx.congr rfl rfl rfl rfl) (h.status.fault_of_valid args.1)
  · exact inv_faultEntry _ h.src_wf h.dst_wf (ctx.congr rfl rfl rfl rfl)
  · exact h.decodeStarted args header a b

/-- An accepted command (30_encoding.md R92). -/
theorem Inv.command {v : BitVec 64} (h : Inv s) (hn : exec (decode (.command v)) s = .next t) : Inv t := by
  rcases command_outcome hn with ⟨-, rfl⟩ | ⟨-, hd⟩ | ⟨c, -, rfl⟩
  · exact h.initCommand
  · exact h.startDecode hd
  · exact inv_faultEntry _ h.src_wf h.dst_wf h.context

/-- A write to the block: the ARG registers bound the cursors only while BUSY is 1, and then they are frozen
(10_state.md R33). -/
theorem Inv.writeReg (h : Inv s) (offset : BitVec 64) (size : AccessSize) (v : BitVec 64) :
    Inv (writeReg offset size v s) := by
  obtain ⟨⟨a, b, c, d, e, hidle⟩, hbusy⟩ := writeReg_frame offset size v s
  cases hp : s.phase with
  | busy => rw [hbusy hp]; exact h
  | idle =>
    rw [hidle]
    exact .of_idle hp h.src_wf h.dst_wf (h.context.congr rfl rfl rfl rfl)
      (h.status.congr rfl rfl rfl rfl rfl rfl)

/-- Hardware reset at any time (70_reset_and_hazards.md R260): DST stays canonical under the abandoned writes, and
the context has the model's reset values. -/
theorem Inv.hardReset (h : Inv s) : Inv (hardReset s) :=
  .of_idle rfl h.src_wf (partialWrites_dst _ h.dst_wf _).1 (contextOk_of_cleared rfl rfl rfl rfl)
    (statusOk_of_no_fault rfl rfl rfl)

/-- A host action that does not stop the machine. -/
theorem Inv.hostAction {a : HostAction} (h : Inv s) (hn : hostAction a s = .next t) : Inv t := by
  rcases hostAction_outcome hn with ⟨o, z, v, -, rfl⟩ | ⟨o, z, -, rfl⟩ | ⟨addr, v, -, rfl⟩ | ⟨addr, -, rfl⟩ |
    ⟨addr, v, -, rfl⟩ | ⟨addr, -, rfl⟩ | ⟨-, rfl⟩
  · exact h.writeReg o z v
  · obtain ⟨v, n, e⟩ := readReg_frame o z s
    rw [e]
    exact h.withHostSide h.src_wf h.dst_wf s.script v n
  · exact h.withHostSide (Memory.wf_write h.src_wf addr v) h.dst_wf s.script s.readData s.freeReads
  · exact h.withHostSide h.src_wf h.dst_wf s.script _ s.freeReads
  · exact h.withHostSide h.src_wf (Memory.wf_write h.dst_wf addr v) s.script s.readData s.freeReads
  · exact h.withHostSide h.src_wf h.dst_wf s.script _ s.freeReads
  · exact h.hardReset

/-- The invariant is kept by whatever a step does. -/
theorem Inv.step (h : Inv s) (hn : step s = .next t) : Inv t := by
  rcases step_outcome hn with ⟨-, rfl⟩ | ⟨turn, -, l, op⟩ | ⟨-, -, l, c, u, raised, rfl⟩ | ⟨turn, -, l, rfl⟩ |
    ⟨e, rest, -, ⟨v, -, -, command⟩ | ⟨-, -, action⟩⟩
  · exact h
  · exact (h.setScript l).opStep turn.1 op
  · exact (h.setScript l).opRaise raised
  · exact inv_completeDecode h.src_wf h.dst_wf (h.context.congr rfl rfl rfl rfl)
      (h.status.fault_of_valid (h.status.busy_valid turn.1))
  · exact (h.setScript rest).command command
  · exact (h.setScript rest).hostAction action

end Sys2Proof.Safety

namespace Sys2Proof.Proofs

open Sys2Proof.Machine Sys2Proof.Safety

/-- Settles O54: each way a step can reach its next state keeps the invariant. -/
theorem stepKeepsTheInvariant : Obligations.StepKeepsTheInvariant := by
  unfold Obligations.StepKeepsTheInvariant
  exact fun _ _ h hn => h.step hn

/-- Settles O53: the reset values of the context are those of a cleared one, and the memories list no byte. -/
theorem resetMeetsTheInvariant : Obligations.ResetMeetsTheInvariant := by
  unfold Obligations.ResetMeetsTheInvariant
  exact .of_idle rfl Memory.wf_nil Memory.wf_nil (contextOk_of_cleared rfl rfl rfl rfl)
    (statusOk_of_no_fault rfl rfl rfl)

/-- Settles O52: each value is read off the reset state. -/
theorem resetValues : Obligations.ResetValues := by
  unfold Obligations.ResetValues
  exact ⟨rfl, rfl, rfl, rfl, rfl, rfl, rfl, rfl, rfl, rfl, rfl, rfl, rfl⟩

end Sys2Proof.Proofs
end

