-- ==== Sys2Proof/Proofs/Registers.lean ====
section
/-! PROOF. The register map (10_state.md R28) as offset and size of each register, and what the host's reads and
writes of the block do. -/

namespace Sys2Proof.Machine

variable {s t : State} {offset : BitVec 64} {size : AccessSize}

/-! ### The map -/

/-- The byte offset of a register (10_state.md R28). -/
def regOffset : Reg → Nat
  | .cmd => 0x00
  | .status => 0x08
  | .err => 0x10
  | .result => 0x18
  | .argDst => 0x20
  | .argDstEnd => 0x28
  | .argDstStart => 0x30
  | .argSrc => 0x38
  | .argSrcEnd => 0x40
  | .bytesRemaining => 0x48
  | .wpView => 0x50
  | .dstateView => 0x58
  | .histView i => 0x60 + 8 * i.val
  | .histLenView => 0xA0
  | .ctxView j => 0x2000 + 2 * j.val

/-- The size of access that reaches a register (10_state.md R28). -/
def regSize : Reg → AccessSize
  | .ctxView _ => .b16
  | _ => .b64

theorem regAt_histView (i : Fin 8) : regAt (BitVec.ofNat 64 (0x60 + 8 * i.val)) .b64 = some (.histView i) := by
  revert i; decide

theorem regAt_ctxView (j : Fin 2327) : regAt (BitVec.ofNat 64 (0x2000 + 2 * j.val)) .b16 = some (.ctxView j) := by
  have hj := j.isLt
  have e : (BitVec.ofNat 64 (0x2000 + 2 * j.val)).toNat = 0x2000 + 2 * j.val := by
    rw [BitVec.toNat_ofNat]; omega
  unfold regAt
  simp only [e]
  rw [dif_pos (by omega)]
  congr 3
  omega

/-- At its offset and size each register is found. -/
theorem regAt_regOffset (r : Reg) : regAt (BitVec.ofNat 64 (regOffset r)) (regSize r) = some r := by
  cases r with
  | histView i => exact regAt_histView i
  | ctxView j => exact regAt_ctxView j
  | _ => rfl

/-- One line of the map: the register it names, or one of a later line. -/
theorem some_of_ite {c : Prop} [Decidable c] {r q : Reg} {x : Option Reg} (h : (if c then some r else x) = some q) :
    (c ∧ r = q) ∨ x = some q := by
  split at h
  · next hc => exact .inl ⟨hc, Option.some.inj h⟩
  · exact .inr h

/-- A register is found nowhere but at its offset and size. -/
theorem regAt_some {r : Reg} (h : regAt offset size = some r) : offset.toNat = regOffset r ∧ size = regSize r := by
  unfold regAt at h
  cases size with
  | b8 => cases h
  | b32 => cases h
  | b16 =>
    dsimp only at h
    split at h
    · next listed =>
      cases h
      exact ⟨by unfold regOffset; dsimp only; omega, rfl⟩
    · cases h
  | b64 =>
    dsimp only at h
    iterate 12
      obtain ⟨rfl, rfl⟩ | h := some_of_ite h
      · exact ⟨rfl, rfl⟩
    split at h
    · next listed =>
      cases h
      exact ⟨by unfold regOffset; dsimp only; omega, rfl⟩
    · obtain ⟨rfl, rfl⟩ | h := some_of_ite h
      · exact ⟨rfl, rfl⟩
      · cases h

/-- Where no register stands, none is found. -/
theorem regAt_none (h : ∀ r, size = regSize r → offset.toNat ≠ regOffset r) : regAt offset size = none := by
  cases hr : regAt offset size with
  | none => rfl
  | some r =>
    obtain ⟨hoff, hsize⟩ := regAt_some hr
    exact absurd hoff (h r hsize)

/-- Every register but the cells' views is 64 bits wide and stands at a multiple of 8 up to 0xA0. -/
theorem regOffset_b64 {r : Reg} (h : AccessSize.b64 = regSize r) : regOffset r % 8 = 0 ∧ regOffset r ≤ 0xA0 := by
  cases r with
  | histView i => have := i.isLt; unfold regOffset; dsimp only; omega
  | ctxView j => cases h
  | _ => decide

/-- The cells' views are 16 bits wide and fill [0x2000, 0x322E). -/
theorem regOffset_b16 {r : Reg} (h : AccessSize.b16 = regSize r) :
    regOffset r % 2 = 0 ∧ 0x2000 ≤ regOffset r ∧ regOffset r < 0x322E := by
  cases r with
  | ctxView j => have := j.isLt; unfold regOffset; dsimp only; omega
  | _ => cases h

theorem regSize_ne_b8 (r : Reg) : AccessSize.b8 ≠ regSize r := by cases r <;> exact nofun

theorem regSize_ne_b32 (r : Reg) : AccessSize.b32 ≠ regSize r := by cases r <;> exact nofun

/-! ### Reads -/

theorem busy_of_idle (hp : s.phase = .idle) : s.busy = false := by unfold State.busy; rw [hp]; rfl

theorem busy_of_busy (hp : s.phase = .busy) : s.busy = true := by unfold State.busy; rw [hp]; rfl

/-- An access that is no register reads 0 (10_state.md R28). -/
theorem readReg_none (h : regAt offset size = none) : readReg offset size s = s.setReadData 0 := by
  unfold readReg; rw [h]

/-- A register whose value is defined reads as its contents. -/
theorem readReg_value (r : Reg) (h : s.phase = .idle ∨ regIsView r = false) :
    readReg (BitVec.ofNat 64 (regOffset r)) (regSize r) s = s.setReadData (regValue s r) := by
  have defined : (s.busy && regIsView r) = false := by
    rcases h with hp | hv
    · rw [busy_of_idle hp, Bool.false_and]
    · rw [hv, Bool.and_false]
  unfold readReg
  rw [regAt_regOffset]
  dsimp only
  rw [defined]
  rfl

/-- A view read while BUSY is 1 gives a free value of the register's width (10_state.md R35). -/
theorem readReg_view (r : Reg) (hp : s.phase = .busy) (hv : regIsView r = true) :
    readReg (BitVec.ofNat 64 (regOffset r)) (regSize r) s =
      (s.setReadData (lowBits (regWidth r) (Config.busyView s.freeReads))).countFreeRead := by
  unfold readReg
  rw [regAt_regOffset]
  dsimp only
  rw [busy_of_busy hp, hv]
  rfl

theorem lowBits_64 (v : BitVec 64) : lowBits 64 v = v := by
  change v &&& BitVec.allOnes 64 = v
  exact BitVec.and_allOnes

/-- A due read is what the step does (10_state.md R34). -/
theorem step_regRead (h : dueEvent s = some (.regRead offset size, t)) : step s = .next (readReg offset size t) := by
  rcases step_event h with ⟨v, hw, -⟩ | ⟨-, hstep⟩
  · cases hw
  · exact hstep

/-- The four STATUS bits as a number (10_state.md R30). -/
theorem statusWord_toNat (s : State) :
    (statusWord s).toNat = s.busy.toNat + 2 * s.done.toNat + 4 * s.fault.toNat + 8 * s.ctxValid.toNat := by
  have bits : ∀ b d f c : Bool,
      (0#60 ++ BitVec.ofBool c ++ BitVec.ofBool f ++ BitVec.ofBool d ++ BitVec.ofBool b).toNat =
        b.toNat + 2 * d.toNat + 4 * f.toNat + 8 * c.toNat := by decide
  exact bits _ _ _ _

/-! ### Writes -/

/-- Store a value in an ARG register; every other register keeps nothing of a write (10_state.md R28, R33). -/
def setArg (r : Reg) (v : BitVec 64) (s : State) : State :=
  match r with
  | .argDst => { s with argDst := v }
  | .argDstEnd => { s with argDstEnd := v }
  | .argDstStart => { s with argDstStart := v }
  | .argSrc => { s with argSrc := v }
  | .argSrcEnd => { s with argSrcEnd := v }
  | _ => s

theorem writeReg_none (h : regAt offset size = none) (v : BitVec 64) : writeReg offset size v s = s := by
  unfold writeReg
  rw [h]
  exact ite_self s

theorem writeReg_idle {r : Reg} (hp : s.phase = .idle) (h : regAt offset size = some r) (v : BitVec 64) :
    writeReg offset size v s = setArg r v s := by
  unfold writeReg
  rw [busy_of_idle hp, h]
  cases r <;> rfl

theorem writeReg_busy (hp : s.phase = .busy) (offset : BitVec 64) (size : AccessSize) (v : BitVec 64) :
    writeReg offset size v s = s := (writeReg_frame offset size v s).2 hp

/-- The ARG registers are those from 0x20 to 0x40. -/
theorem setArg_other {r : Reg} (h : regOffset r < 0x20 ∨ 0x40 < regOffset r) (v : BitVec 64) : setArg r v s = s := by
  cases r with
  | argDst | argDstEnd | argDstStart | argSrc | argSrcEnd => exact absurd h (by decide)
  | _ => rfl

/-- A 64-bit write away from the ARG registers is dropped. -/
theorem writeReg_elsewhere (hp : s.phase = .idle)
    (h : offset.toNat < 0x20 ∨ 0x40 < offset.toNat ∨ offset.toNat % 8 ≠ 0) (v : BitVec 64) :
    writeReg offset .b64 v s = s := by
  cases hr : regAt offset .b64 with
  | none => exact writeReg_none hr v
  | some r =>
    obtain ⟨hoff, hsize⟩ := regAt_some hr
    have aligned := (regOffset_b64 hsize).1
    rw [writeReg_idle hp hr, setArg_other (by omega)]

/-- A write of another size is dropped: of the registers it can reach only the views of the cells. -/
theorem writeReg_other_size (hp : s.phase = .idle) (h : size ≠ .b64) (v : BitVec 64) :
    writeReg offset size v s = s := by
  cases hr : regAt offset size with
  | none => exact writeReg_none hr v
  | some r =>
    obtain ⟨-, rfl⟩ := regAt_some hr
    rw [writeReg_idle hp hr]
    cases r with
    | ctxView j => rfl
    | _ => exact absurd rfl h

/-- A write to CMD while IDLE is the command that its value decodes to (10_state.md R29). -/
theorem hostMove_command (hp : s.phase = .idle) (v : BitVec 64) :
    hostMove (.regWrite 0x00 .b64 v) s = .instr (decode (.command v)) s := by
  have accepted : acceptsCommand 0x00 .b64 s = true := (acceptsCommand_iff _ _ _).mpr ⟨⟨rfl, rfl⟩, hp⟩
  unfold hostMove
  dsimp only
  rw [if_pos accepted]
  rfl

/-- Every other write is served as a register write. -/
theorem hostMove_regWrite (h : ¬((offset = 0x00 ∧ size = .b64) ∧ s.phase = .idle)) (v : BitVec 64) :
    hostMove (.regWrite offset size v) s = .settled (.next (writeReg offset size v s)) := by
  unfold hostMove
  dsimp only
  rw [if_neg (mt (acceptsCommand_iff offset size s).mp h)]
  rfl

theorem hostMove_command_iff (hp : s.phase = .idle) (offset v : BitVec 64) :
    hostMove (.regWrite offset .b64 v) s = .instr (decode (.command v)) s ↔ offset = 0x00 := by
  refine ⟨fun h => ?_, fun h => h ▸ hostMove_command hp v⟩
  by_contra h0
  rw [hostMove_regWrite fun c => h0 c.1.1] at h
  cases h

/-- A due write that is no command is what the step does. -/
theorem step_regWrite {v : BitVec 64} (h : dueEvent s = some (.regWrite offset size v, t))
    (hc : offset ≠ 0x00 ∨ s.phase = .busy) : step s = .next (writeReg offset size v t) := by
  rcases step_event h with ⟨w, hw, hp, -⟩ | ⟨-, hstep⟩
  · cases hw
    rcases hc with h0 | hb
    · exact absurd rfl h0
    · exact absurd (hp.symm.trans hb) (by decide)
  · exact hstep

end Sys2Proof.Machine

namespace Sys2Proof.Proofs

open Sys2Proof.Machine

/-- Settles O46: each listed access is the read of one register of the map, and elsewhere the map has none. -/
theorem registerReads : Obligations.RegisterReads := by
  unfold Obligations.RegisterReads
  intro s
  refine ⟨readReg_value .cmd (.inr rfl), readReg_value .status (.inr rfl), readReg_value .err (.inr rfl),
    readReg_value .result (.inr rfl), readReg_value .argDst (.inr rfl), readReg_value .argDstEnd (.inr rfl),
    readReg_value .argDstStart (.inr rfl), readReg_value .argSrc (.inr rfl), readReg_value .argSrcEnd (.inr rfl),
    readReg_value .bytesRemaining (.inr rfl), fun idle => ?_, fun busy => ?_, fun offset size => ?_,
    fun _ _ _ due => step_regRead due, fun offset => ⟨?_, ?_⟩, fun offset unlisted => ?_, fun offset unlisted => ?_,
    statusWord_toNat s⟩
  · exact ⟨readReg_value .wpView (.inl idle), readReg_value .dstateView (.inl idle),
      fun i hi => readReg_value (.histView ⟨i, hi⟩) (.inl idle), readReg_value .histLenView (.inl idle),
      fun j hj => readReg_value (.ctxView ⟨j, hj⟩) (.inl idle)⟩
  · have wp := readReg_view .wpView busy rfl
    rw [show regWidth .wpView = 64 from rfl, lowBits_64] at wp
    exact ⟨wp, readReg_view .dstateView busy rfl, fun i hi => readReg_view (.histView ⟨i, hi⟩) busy rfl,
      readReg_view .histLenView busy rfl, fun j hj => readReg_view (.ctxView ⟨j, hj⟩) busy rfl⟩
  · obtain ⟨v, n, frame⟩ := readReg_frame offset size s
    exact ⟨by rw [frame], rfl⟩
  · exact readReg_none (regAt_none fun r h => absurd h (regSize_ne_b8 r))
  · exact readReg_none (regAt_none fun r h => absurd h (regSize_ne_b32 r))
  · exact readReg_none (regAt_none fun r h => by have := regOffset_b64 h; omega)
  · exact readReg_none (regAt_none fun r h => by have := regOffset_b16 h; omega)

/-- Settles O47: while IDLE the write goes to the register that the map has at its offset, or is the command; while
BUSY it is dropped. -/
theorem registerWrites : Obligations.RegisterWrites := by
  unfold Obligations.RegisterWrites
  intro s v
  refine ⟨fun idle => ?_, fun busy offset size => ?_, fun offset t due other => step_regWrite due other⟩
  · refine ⟨writeReg_idle idle (regAt_regOffset .argDst) v, writeReg_idle idle (regAt_regOffset .argDstEnd) v,
      writeReg_idle idle (regAt_regOffset .argDstStart) v, writeReg_idle idle (regAt_regOffset .argSrc) v,
      writeReg_idle idle (regAt_regOffset .argSrcEnd) v, fun offset => hostMove_command_iff idle offset v,
      fun offset h0 => hostMove_regWrite (fun c => h0 c.1.1) v, fun offset h => writeReg_elsewhere idle h v,
      fun offset size hsize => ?_⟩
    rw [hostMove_regWrite (fun c => hsize c.1.2), writeReg_other_size idle hsize]
  · have not_idle : s.phase ≠ .idle := by rw [busy]; decide
    rw [hostMove_regWrite (fun c => not_idle c.2), writeReg_busy busy]

end Sys2Proof.Proofs
end

