-- ==== Sys2Proof/Proofs/CellNumbering.lean ====
section
/-! PROOF. The flat numbering of the 2327 cells (10_state.md R42): its inverse, and the initializer by number. -/

namespace Sys2Proof.Machine

open Sys2Proof.Config (Params)

/-! ### The numbering and its inverse -/

/-- The flat index of a cell, with the starts of the model sets written as numbers (10_state.md R42). -/
def flatIndex : CellPath → Nat
  | .isLit s q => 8 * s.val + q.val
  | .typeSlot s n => 96 + 17 * s.val + n.val
  | .repSlot s n => 300 + 9 * s.val + n.val
  | .shortLen s k n => 408 + 72 * s.val + 9 * k.val + n.val
  | .medLen n => 1272 + n.val
  | .longLen j n => 1281 + 17 * j.val + n.val
  | .nearFirst k n => 1332 + 21 * k.val + n.val
  | .nearLow k i => 1332 + 21 * k.val + (17 + i.val)
  | .farHi n => 1374 + n.val
  | .farLo h n => 1391 + 17 * h.val + n.val
  | .farRef h i => 1663 + 16 * h.val + i.val
  | .litUpper c n => 1919 + 51 * c.val + n.val
  | .litLower c n => 1919 + 51 * c.val + (17 + n.val)
  | .litNomatch c n => 1919 + 51 * c.val + (34 + n.val)

theorem cellIndex_eq_flatIndex (q : CellPath) : cellIndex q = flatIndex q := by
  cases q with
  | shortLen s k n => rw [cellIndex, shortLenBase, flatIndex]; omega
  | nearLow k i => exact Nat.add_assoc _ _ _
  | litLower c n => exact Nat.add_assoc _ _ _
  | litNomatch c n => exact Nat.add_assoc _ _ _
  | _ => rfl

theorem flatIndex_lt (q : CellPath) : flatIndex q < 2327 := by
  cases q
  all_goals
    rw [flatIndex]
    omega

/-- The cell at offset `o` of `near[k]`: first its NibbleModel, then its four low cells. -/
def nearPathAt (k : Fin 2) (o : Nat) : CellPath :=
  if o < 17 then .nearFirst k (Fin.ofNat 17 o) else .nearLow k (Fin.ofNat 4 (o - 17))

/-- The cell at offset `o` of `lit[c]`: its three NibbleModels in turn. -/
def litPathAt (c : Fin 8) (o : Nat) : CellPath :=
  if o < 17 then .litUpper c (Fin.ofNat 17 o)
  else if o < 34 then .litLower c (Fin.ofNat 17 (o - 17))
  else .litNomatch c (Fin.ofNat 17 (o - 34))

/-- The path of cell `j` of the flat numbering: the inverse of `cellIndex` below 2327, set by set in the order of
10_state.md R42. -/
def cellPathAt (j : Nat) : CellPath :=
  if j < 96 then .isLit (Fin.ofNat 12 (j / 8)) (Fin.ofNat 8 j)
  else if j < 300 then .typeSlot (Fin.ofNat 12 ((j - 96) / 17)) (Fin.ofNat 17 (j - 96))
  else if j < 408 then .repSlot (Fin.ofNat 12 ((j - 300) / 9)) (Fin.ofNat 9 (j - 300))
  else if j < 1272 then
    .shortLen (Fin.ofNat 12 ((j - 408) / 72)) (Fin.ofNat 8 ((j - 408) / 9)) (Fin.ofNat 9 (j - 408))
  else if j < 1281 then .medLen (Fin.ofNat 9 (j - 1272))
  else if j < 1332 then .longLen (Fin.ofNat 3 ((j - 1281) / 17)) (Fin.ofNat 17 (j - 1281))
  else if j < 1374 then nearPathAt (Fin.ofNat 2 ((j - 1332) / 21)) ((j - 1332) % 21)
  else if j < 1391 then .farHi (Fin.ofNat 17 (j - 1374))
  else if j < 1663 then .farLo (Fin.ofNat 16 ((j - 1391) / 17)) (Fin.ofNat 17 (j - 1391))
  else if j < 1919 then .farRef (Fin.ofNat 16 ((j - 1663) / 16)) (Fin.ofNat 16 (j - 1663))
  else litPathAt (Fin.ofNat 8 ((j - 1919) / 51)) ((j - 1919) % 51)

theorem flatIndex_nearPathAt (k : Fin 2) {o : Nat} (h : o < 21) :
    flatIndex (nearPathAt k o) = 1332 + 21 * k.val + o := by
  unfold nearPathAt
  split
  all_goals
    simp only [flatIndex, Fin.val_ofNat]
    omega

theorem flatIndex_litPathAt (c : Fin 8) {o : Nat} (h : o < 51) :
    flatIndex (litPathAt c o) = 1919 + 51 * c.val + o := by
  unfold litPathAt
  split
  · simp only [flatIndex, Fin.val_ofNat]; omega
  · split
    all_goals
      simp only [flatIndex, Fin.val_ofNat]
      omega

/-- One set of the numbering, or a later one. -/
theorem flatIndex_ite {c : Prop} [Decidable c] {a b : CellPath} {j : Nat} (ha : c → flatIndex a = j)
    (hb : ¬c → flatIndex b = j) : flatIndex (if c then a else b) = j :=
  iteInduction (motive := fun q => flatIndex q = j) ha hb

/-- Each number below 2327 is the index of its path. -/
theorem flatIndex_cellPathAt {j : Nat} (h : j < 2327) : flatIndex (cellPathAt j) = j := by
  unfold cellPathAt
  iterate 6 refine flatIndex_ite (fun _ => by simp only [flatIndex, Fin.val_ofNat]; omega) fun _ => ?_
  refine flatIndex_ite (fun _ => by rw [flatIndex_nearPathAt _ (by omega), Fin.val_ofNat]; omega) fun _ => ?_
  iterate 3 refine flatIndex_ite (fun _ => by simp only [flatIndex, Fin.val_ofNat]; omega) fun _ => ?_
  rw [flatIndex_litPathAt _ (by omega), Fin.val_ofNat]
  omega

theorem finOfNat_eq {n k : Nat} [NeZero n] {i : Fin n} (h : k % n = i.val) : Fin.ofNat n k = i := Fin.ext h

theorem nearPathAt_first (k : Fin 2) (n : Fin 17) : nearPathAt k n.val = .nearFirst k n := by
  unfold nearPathAt; rw [if_pos n.isLt, finOfNat_eq (Nat.mod_eq_of_lt n.isLt)]

theorem nearPathAt_low (k : Fin 2) (i : Fin 4) : nearPathAt k (17 + i.val) = .nearLow k i := by
  unfold nearPathAt; rw [if_neg (by omega), finOfNat_eq (i := i) (by omega)]

theorem litPathAt_upper (c : Fin 8) (n : Fin 17) : litPathAt c n.val = .litUpper c n := by
  unfold litPathAt; rw [if_pos n.isLt, finOfNat_eq (Nat.mod_eq_of_lt n.isLt)]

theorem litPathAt_lower (c : Fin 8) (n : Fin 17) : litPathAt c (17 + n.val) = .litLower c n := by
  unfold litPathAt; rw [if_neg (by omega), if_pos (by omega), finOfNat_eq (i := n) (by omega)]

theorem litPathAt_nomatch (c : Fin 8) (n : Fin 17) : litPathAt c (34 + n.val) = .litNomatch c n := by
  unfold litPathAt; rw [if_neg (by omega), if_neg (by omega), finOfNat_eq (i := n) (by omega)]

/-- In the numbers of `near[k]`. -/
theorem cellPathAt_near (k : Fin 2) {o : Nat} (h : o < 21) : cellPathAt (1332 + 21 * k.val + o) = nearPathAt k o := by
  unfold cellPathAt
  iterate 6 rw [if_neg (by omega)]
  rw [if_pos (by omega), finOfNat_eq (i := k) (by omega), show (1332 + 21 * k.val + o - 1332) % 21 = o by omega]

/-- In the numbers of `lit[c]`. -/
theorem cellPathAt_lit (c : Fin 8) {o : Nat} (h : o < 51) : cellPathAt (1919 + 51 * c.val + o) = litPathAt c o := by
  unfold cellPathAt
  iterate 10 rw [if_neg (by omega)]
  rw [finOfNat_eq (i := c) (by omega), show (1919 + 51 * c.val + o - 1919) % 51 = o by omega]

/-- The path at a cell's index is that cell. -/
theorem cellPathAt_flatIndex (q : CellPath) : cellPathAt (flatIndex q) = q := by
  cases q with
  | nearFirst k n => exact (cellPathAt_near k (by omega)).trans (nearPathAt_first k n)
  | nearLow k i => exact (cellPathAt_near k (by omega)).trans (nearPathAt_low k i)
  | litUpper c n => exact (cellPathAt_lit c (by omega)).trans (litPathAt_upper c n)
  | litLower c n => exact (cellPathAt_lit c (by omega)).trans (litPathAt_lower c n)
  | litNomatch c n => exact (cellPathAt_lit c (by omega)).trans (litPathAt_nomatch c n)
  | isLit s q =>
    rw [flatIndex, cellPathAt]
    rw [if_pos (by omega), finOfNat_eq (i := s) (by omega), finOfNat_eq (i := q) (by omega)]
  | typeSlot s n =>
    rw [flatIndex, cellPathAt]
    rw [if_neg (by omega), if_pos (by omega), finOfNat_eq (i := s) (by omega), finOfNat_eq (i := n) (by omega)]
  | repSlot s n =>
    rw [flatIndex, cellPathAt]
    iterate 2 rw [if_neg (by omega)]
    rw [if_pos (by omega), finOfNat_eq (i := s) (by omega), finOfNat_eq (i := n) (by omega)]
  | shortLen s k n =>
    rw [flatIndex, cellPathAt]
    iterate 3 rw [if_neg (by omega)]
    rw [if_pos (by omega), finOfNat_eq (i := s) (by omega), finOfNat_eq (i := k) (by omega),
      finOfNat_eq (i := n) (by omega)]
  | medLen n =>
    rw [flatIndex, cellPathAt]
    iterate 4 rw [if_neg (by omega)]
    rw [if_pos (by omega), finOfNat_eq (i := n) (by omega)]
  | longLen j n =>
    rw [flatIndex, cellPathAt]
    iterate 5 rw [if_neg (by omega)]
    rw [if_pos (by omega), finOfNat_eq (i := j) (by omega), finOfNat_eq (i := n) (by omega)]
  | farHi n =>
    rw [flatIndex, cellPathAt]
    iterate 7 rw [if_neg (by omega)]
    rw [if_pos (by omega), finOfNat_eq (i := n) (by omega)]
  | farLo h n =>
    rw [flatIndex, cellPathAt]
    iterate 8 rw [if_neg (by omega)]
    rw [if_pos (by omega), finOfNat_eq (i := h) (by omega), finOfNat_eq (i := n) (by omega)]
  | farRef h i =>
    rw [flatIndex, cellPathAt]
    iterate 9 rw [if_neg (by omega)]
    rw [if_pos (by omega), finOfNat_eq (i := h) (by omega), finOfNat_eq (i := i) (by omega)]

/-! ### The initializer -/

/-- Two case distinctions on one condition agree where their branches do. -/
theorem ite_eq_apply_ite {α β : Type} {c : Prop} [Decidable c] {f : α → β} {a b : β} {x y : α}
    (hx : a = f x) (hy : b = f y) : (if c then a else b) = f (if c then x else y) := by
  rw [apply_ite f, hx, hy]

theorem nibInit_congr (P : Params) {a b : Nat} (h : a % 17 = b % 17) : P.nibInit[a % 17] = P.nibInit[b % 17] := by
  simp only [h]

/-- `near[k]` starts with its NibbleModel; its low cells are plain (41_models.md R147). -/
theorem pathInit_nearPathAt (P : Params) (k : Fin 2) (o : Nat) :
    pathInit P (nearPathAt k o) = if o < 17 then P.nibInit[o % 17] else P.bitInit :=
  (ite_eq_apply_ite rfl rfl).symm

/-- The three NibbleModels of a LiteralModel are initialized alike (41_models.md R147). -/
theorem pathInit_litPathAt (P : Params) (c : Fin 8) (o : Nat) : pathInit P (litPathAt c o) = P.nibInit[o % 17] := by
  unfold litPathAt
  split
  · rfl
  · split
    · exact nibInit_congr P (by omega)
    · exact nibInit_congr P (by omega)

/-- The initializer by number is the one of the path at that number (41_models.md R147). -/
theorem initCell_eq_pathInit (P : Params) (j : Nat) : initCell P j = pathInit P (cellPathAt j) := by
  unfold initCell cellPathAt
  iterate 6 refine ite_eq_apply_ite rfl ?_
  refine ite_eq_apply_ite (pathInit_nearPathAt P _ _).symm ?_
  iterate 3 refine ite_eq_apply_ite rfl ?_
  rw [pathInit_litPathAt]
  exact nibInit_congr P (by omega)

end Sys2Proof.Machine

namespace Sys2Proof.Proofs

open Sys2Proof.Machine

/-- Settles O9: `cellPathAt` is the inverse of the numbering, and follows the same sets as the initializer. -/
theorem cellNumberingIsExact : Obligations.CellNumberingIsExact := by
  unfold Obligations.CellNumberingIsExact
  refine ⟨fun P q => ⟨?_, ?_⟩, fun j hj => ⟨cellPathAt j, ?_, fun q hq => ?_⟩⟩
  · rw [cellIndex_eq_flatIndex]; exact flatIndex_lt q
  · rw [initCell_eq_pathInit, cellIndex_eq_flatIndex, cellPathAt_flatIndex]
  · rw [cellIndex_eq_flatIndex]; exact flatIndex_cellPathAt hj
  · rw [← hq, cellIndex_eq_flatIndex, cellPathAt_flatIndex]

end Sys2Proof.Proofs
end

