-- ==== Sys2Proof/Proofs/MemoryAccess.lean ====
section
/-! PROOF. The two memories as their users see them: a source word is its bytes in wire order (20_memory.md R62), and
the host's accesses between commands (R66). -/

namespace Sys2Proof.Machine

open Sys2Proof.Config (Params)

variable {s : State} {e : HostEvent} {rest : List HostEvent}

/-! ### Source words -/

@[simp] theorem srcBytes_length (s : State) (a : Addr) (n : Nat) : (srcBytes s a n).length = n := by
  simp [srcBytes]

/-- Bytes read in one go are those of two adjacent reads. -/
theorem srcBytes_add (s : State) (a : Addr) (m n : Nat) :
    srcBytes s a (m + n) = srcBytes s a m ++ srcBytes s (a + BitVec.ofNat 64 m) n := by
  unfold srcBytes
  rw [List.range_add, List.map_append, List.map_map]
  congr 2
  funext i
  simp only [Function.comp_apply, BitVec.ofNat_add, BitVec.add_assoc]

/-- The first bytes of a number weigh as much as the bytes behind them leave room for. -/
theorem bigEndianValue_append (l m : List Byte) :
    bigEndianValue (l ++ m) = bigEndianValue l * 256 ^ m.length + bigEndianValue m := by
  induction m using List.reverseRecOn with
  | nil => simp [bigEndianValue]
  | append_singleton m b ih =>
    have snoc (k : List Byte) : bigEndianValue (k ++ [b]) = bigEndianValue k * 256 + b.toNat := by
      simp [bigEndianValue]
    rw [← List.append_assoc, snoc, snoc, ih, List.length_append, List.length_singleton, Nat.pow_succ]
    ring

/-- A source word is two adjacent shorter ones, the first more significant, or less in the other wire order. -/
theorem srcWord_add (P : Params) (s : State) (a : Addr) (m n : Nat) :
    srcWord P s a (m + n) =
      if P.wireBigEndian then srcWord P s a m * 256 ^ n + srcWord P s (a + BitVec.ofNat 64 m) n
      else srcWord P s (a + BitVec.ofNat 64 m) n * 256 ^ m + srcWord P s a m := by
  unfold srcWord
  cases P.wireBigEndian with
  | true => simp [srcBytes_add, bigEndianValue_append]
  | false => simp [srcBytes_add, bigEndianValue_append]

theorem srcWord_one (P : Params) (s : State) (a : Addr) : srcWord P s a 1 = (Memory.read s.src a).toNat := by
  simp [srcWord, srcBytes, bigEndianValue, srcByte]

/-! ### The host's accesses while IDLE -/

/-- While IDLE the next event of the script is served as it stands, unless it is a write to the block. -/
theorem step_hostAction (hp : s.phase = .idle) (hs : s.script = e :: rest)
    (ha : ∀ offset size v, e.action ≠ .regWrite offset size v) : step s = hostAction e.action (s.setScript rest) := by
  rcases step_event (dueEvent_idle hp hs) with ⟨v, command, -⟩ | ⟨-, served⟩
  · exact absurd command (ha _ _ _)
  · exact served

/-- While IDLE no access to the memories is a race with a command. -/
theorem hostAction_idle (hp : s.phase = .idle) (a : Addr) (v : Byte) :
    hostAction (.srcWrite a v) s = .next (s.setSrc (Memory.write s.src a v)) ∧
    hostAction (.srcRead a) s = .next (s.setReadData ((srcByte s a).setWidth 64)) ∧
    hostAction (.dstWrite a v) s = .next (setDstByte s a v) ∧
    hostAction (.dstRead a) s = .next (s.setReadData ((dstByte s a).setWidth 64)) := by
  have no_race (region : Bool) : ¬(s.busy && region) = true := by rw [busy_of_idle hp]; exact Bool.false_ne_true
  exact ⟨if_neg (no_race _), if_neg (no_race _), if_neg (no_race _), if_neg (no_race _)⟩

end Sys2Proof.Machine

namespace Sys2Proof.Proofs

open Sys2Proof.Machine

/-- Settles O10: a word of four bytes is split into its bytes one at a time, a word of eight into two of four. -/
theorem sourceWordsFollowTheWireOrder : Obligations.SourceWordsFollowTheWireOrder := by
  unfold Obligations.SourceWordsFollowTheWireOrder
  intro P s a b
  have byte (i : Nat) : srcWord P s (a + BitVec.ofNat 64 i) 1 = b i := srcWord_one P s _
  have first : srcWord P s a 1 = b 0 := by simpa using byte 0
  have word4 := srcWord_add P s a 3 1
  have word3 := srcWord_add P s a 2 1
  have word2 := srcWord_add P s a 1 1
  have word8 := srcWord_add P s a 4 4
  rw [byte] at word4 word3 word2
  cases hw : P.wireBigEndian with
  | true =>
    simp only [hw, if_true] at word2 word3 word4 word8 ⊢
    exact ⟨by rw [word4, word3, word2, first]; ring, word8⟩
  | false =>
    simp only [hw, Bool.false_eq_true, if_false] at word2 word3 word4 word8 ⊢
    exact ⟨by rw [word4, word3, word2, first]; ring, word8⟩

/-- Settles O48: the access is what the step does, and the laws of the byte memories say what is read afterwards. -/
theorem hostMemoryAccess : Obligations.HostMemoryAccess := by
  unfold Obligations.HostMemoryAccess
  intro s e rest a v idle script src_wf dst_wf
  obtain ⟨srcWrite, srcRead, dstWrite, dstRead⟩ := hostAction_idle (s := s.setScript rest) idle a v
  refine ⟨fun ha => ?_, fun ha => ?_, fun ha => ?_, fun ha => ?_⟩ <;>
    rw [step_hostAction idle script (by rw [ha]; exact nofun), ha]
  · exact ⟨_, srcWrite, rfl, Memory.wf_write src_wf a v, fun b => Memory.read_write src_wf a b v⟩
  · exact srcRead
  · exact ⟨_, dstWrite, rfl, Memory.wf_write dst_wf a v, fun b => Memory.read_write dst_wf a b v⟩
  · exact dstRead

end Sys2Proof.Proofs
end

