-- ==== Sys2Proof/Proofs/Regions.lean ====
section
/-! PROOF. The decoder stays in its regions (20_memory.md R61, R75): what each step that is no memory access of the
host's does to SRC, to DST and to the cursors of a command in progress. -/

namespace Sys2Proof.Safety

open Sys2Proof.Machine

variable {s t u : State} {T : Nat → Prop}

/-! ### A move of a command in progress -/

/-- From `s` to `t` the decoder kept SRC, moved WP and CUR forward only and not past their limits, WP by at most 54,
and changed no DST byte but those it moved WP past (20_memory.md R75, 44_quantum_loop.md R204, R207). -/
structure StaysWithin (s t : State) : Prop where
  src_eq : t.src = s.src
  written : ∀ a, dstByte t a ≠ dstByte s a → s.wp ≤ a ∧ a < t.wp
  wp_forward : s.wp ≤ t.wp
  wp_le : t.wp ≤ s.argDstEnd
  advance : (t.wp - s.wp).toNat ≤ 54
  cur_forward : s.cur ≤ t.cur
  cur_le : t.cur ≤ s.lim

/-- A move that writes no byte and may only advance CUR. -/
theorem staysWithin_of_kept (hsrc : t.src = s.src) (hdst : t.dst = s.dst) (hwp : t.wp = s.wp)
    (room : s.wp ≤ s.argDstEnd) (forward : s.cur ≤ t.cur) (inside : t.cur ≤ s.lim) : StaysWithin s t where
  src_eq := hsrc
  written a changed := absurd (dstByte_congr hdst a) changed
  wp_forward := hwp ▸ BitVec.le_refl _
  wp_le := hwp ▸ room
  advance := by simp [hwp]
  cur_forward := forward
  cur_le := inside

/-- The host's pending events have no part in what a move does. -/
theorem StaysWithin.of_setScript {l : List HostEvent} (h : StaysWithin (s.setScript l) t) : StaysWithin s t :=
  ⟨h.src_eq, h.written, h.wp_forward, h.wp_le, h.advance, h.cur_forward, h.cur_le⟩

/-- A byte that changed, where only `n` from `addr` may have, is one of those `n`. -/
theorem DstKeptOutside.changed {addr : Addr} {n : Nat} (h : DstKeptOutside addr n s t)
    (no_wrap : addr.toNat + n < 2 ^ 64) {a : Addr} (changed : dstByte t a ≠ dstByte s a) :
    addr ≤ a ∧ a < addr + BitVec.ofNat 64 n := by
  obtain ⟨i, hi, rfl⟩ : ∃ i, i < n ∧ a = addr + BitVec.ofNat 64 i := by
    by_contra outside
    exact changed (h a fun i hi e => outside ⟨i, hi, e⟩)
  constructor <;> bv_omega

/-- An operation that runs to its end writes the bytes it moves WP past, at least one. -/
theorem Inv.opStep_staysWithin (h : Inv s) (hp : s.phase = .busy) (op : OpStep Config.params T s t) :
    StaysWithin s t ∧ s.wp < t.wp := by
  obtain ⟨forward, inside, -⟩ := op.cursor (h.cursors hp).cur_le
  obtain ⟨n, pos, le_54, room, hwp, kept⟩ := op.written
  have wp_le := (h.window hp).wp_le
  unfold roomLeft at room
  have advanced : (t.wp - s.wp).toNat = n := by rw [hwp]; bv_omega
  have ahead : s.wp < t.wp := by rw [hwp]; bv_omega
  refine ⟨⟨by rw [op.frame], fun a changed => ?_, by bv_omega, ?_, by omega, forward, inside⟩, ahead⟩
  · rw [hwp]
    exact (kept h.dst_wf).changed (by bv_omega) changed
  · rw [hwp]; bv_omega

/-- An operation that raises has decoded some symbols and written nothing. -/
theorem Inv.opRaise_staysWithin {c : Cause} (h : Inv s) (hp : s.phase = .busy)
    (raised : OpRaise Config.params T s c u) : StaysWithin s (faultEntry c u) := by
  obtain ⟨symbols, -⟩ := raised
  obtain ⟨forward, inside, -⟩ := symbols.cursor (h.cursors hp).cur_le
  have esrc : u.src = s.src := by rw [symbols.frame]
  have edst : u.dst = s.dst := by rw [symbols.frame]
  have ewp : u.wp = s.wp := by rw [symbols.frame]
  exact staysWithin_of_kept esrc edst ewp (h.window hp).wp_le forward inside

/-- A move that leaves the memories and the cursors as they are. -/
theorem Inv.staysWithin_of_still (h : Inv s) (hp : s.phase = .busy) (hsrc : t.src = s.src) (hdst : t.dst = s.dst)
    (hwp : t.wp = s.wp) (hcur : t.cur = s.cur) : StaysWithin s t :=
  staysWithin_of_kept hsrc hdst hwp (h.window hp).wp_le (hcur ▸ BitVec.le_refl _) (hcur ▸ (h.cursors hp).cur_le)

/-! ### Commands and register accesses -/

/-- Accepting a command touches neither memory: the writes of a DECODE are those of its loop. -/
theorem command_keeps_memories {v : BitVec 64} (h : exec (decode (.command v)) s = .next t) :
    t.src = s.src ∧ t.dst = s.dst := by
  rcases command_outcome h with ⟨-, rfl⟩ | ⟨-, started⟩ | ⟨c, -, rfl⟩
  · exact ⟨rfl, rfl⟩
  · rcases decode_outcome started with ⟨c, -, rfl⟩ | ⟨-, -, rfl⟩ | ⟨-, -, -, rfl⟩ | ⟨-, -, -, a, b, rfl⟩ <;>
      exact ⟨rfl, rfl⟩
  · exact ⟨rfl, rfl⟩

/-- What an event of the host's that is no memory access and no reset can do, but for a command: it reads or writes a
register. -/
theorem NoHostMemoryAccess.hostAction {a : HostAction} (h : NoHostMemoryAccess s) (hd : dueEvent s = some (a, u))
    (hn : hostAction a u = .next t) :
    (∃ offset size v, t = writeReg offset size v u) ∨ ∃ offset size, t = readReg offset size u := by
  unfold NoHostMemoryAccess at h
  rw [hd] at h
  cases a with
  | regWrite offset size v => cases hn; exact .inl ⟨offset, size, v, rfl⟩
  | regRead offset size => cases hn; exact .inr ⟨offset, size, rfl⟩
  | srcWrite | srcRead | dstWrite | dstRead | hwReset => exact False.elim h

/-- An access to a register moves no cursor of a command in progress and touches no memory. -/
theorem NoHostMemoryAccess.hostAction_keeps {a : HostAction} (h : NoHostMemoryAccess s)
    (hd : dueEvent s = some (a, u)) (hn : Machine.hostAction a u = .next t) :
    t.src = u.src ∧ t.dst = u.dst ∧ t.wp = u.wp ∧ t.cur = u.cur := by
  rcases h.hostAction hd hn with ⟨offset, size, v, rfl⟩ | ⟨offset, size, rfl⟩
  · obtain ⟨⟨_, _, _, _, _, frame⟩, -⟩ := writeReg_frame offset size v u
    rw [frame]; exact ⟨rfl, rfl, rfl, rfl⟩
  · obtain ⟨_, _, frame⟩ := readReg_frame offset size u
    rw [frame]; exact ⟨rfl, rfl, rfl, rfl⟩

/-! ### The step -/

/-- While IDLE only the host changes a memory. -/
theorem step_idle_keeps_memories (hp : s.phase = .idle) (hno : NoHostMemoryAccess s) (hn : step s = .next t) :
    t.src = s.src ∧ t.dst = s.dst := by
  have not_turn : ¬LoopTurn s := fun turn => absurd (hp.symm.trans turn.1) (by decide)
  rcases step_outcome hn with ⟨-, rfl⟩ | ⟨turn, -⟩ | ⟨turn, -⟩ | ⟨turn, -⟩ |
    ⟨e, rest, -, ⟨v, -, -, command⟩ | ⟨-, due, action⟩⟩
  · exact ⟨rfl, rfl⟩
  · exact absurd turn not_turn
  · exact absurd turn not_turn
  · exact absurd turn not_turn
  · exact command_keeps_memories (s := s.setScript rest) command
  · obtain ⟨hsrc, hdst, -, -⟩ := hno.hostAction_keeps due action
    exact ⟨hsrc, hdst⟩

/-- While BUSY every step stays in the regions, and an operation that the loop goes on after has advanced WP. -/
theorem Inv.step_busy_staysWithin (h : Inv s) (hp : s.phase = .busy) (hno : NoHostMemoryAccess s)
    (hn : Machine.step s = .next t) : StaysWithin s t ∧ (t.phase = .busy → LoopTurn s → s.wp < t.wp) := by
  rcases step_outcome hn with ⟨idle, -⟩ | ⟨-, -, l, op⟩ | ⟨-, -, l, c, u, raised, rfl⟩ | ⟨-, -, l, rfl⟩ |
    ⟨e, rest, -, ⟨v, -, idle, -⟩ | ⟨-, due, action⟩⟩
  · exact absurd (idle.symm.trans hp) (by decide)
  · obtain ⟨stays, ahead⟩ := (h.setScript l).opStep_staysWithin hp op
    exact ⟨stays.of_setScript, fun _ _ => ahead⟩
  · exact ⟨((h.setScript l).opRaise_staysWithin hp raised).of_setScript, nofun⟩
  · exact ⟨h.staysWithin_of_still hp rfl rfl rfl rfl, nofun⟩
  · exact absurd (idle.symm.trans hp) (by decide)
  · obtain ⟨hsrc, hdst, hwp, hcur⟩ := hno.hostAction_keeps due action
    exact ⟨h.staysWithin_of_still hp hsrc hdst hwp hcur, fun _ turn => nomatch turn.2.symm.trans due⟩

end Sys2Proof.Safety

namespace Sys2Proof.Proofs

open Sys2Proof.Machine Sys2Proof.Safety

/-- Settles O56: an IDLE block changes no memory; a BUSY one stays within its regions, which the invariant places
between ARG_DST and ARG_DST_END, and between ARG_SRC and ARG_SRC_END. -/
theorem stepStaysInItsRegions : Obligations.StepStaysInItsRegions := by
  unfold Obligations.StepStaysInItsRegions
  intro s t inv no_access stepped
  cases hp : s.phase with
  | idle =>
    obtain ⟨hsrc, hdst⟩ := step_idle_keeps_memories hp no_access stepped
    exact ⟨hsrc, fun a changed => absurd (dstByte_congr hdst a) changed, nofun⟩
  | busy =>
    obtain ⟨stays, progress⟩ := inv.step_busy_staysWithin hp no_access stepped
    have cursors := inv.cursors hp
    have window := inv.window hp
    refine ⟨stays.src_eq, fun a changed => ?_, fun _ => ⟨stays.wp_forward, stays.wp_le, stays.advance,
      BitVec.le_trans cursors.src_le stays.cur_forward, stays.cur_forward, cursors.lim_eq ▸ stays.cur_le, progress⟩⟩
    obtain ⟨from_wp, below_wp⟩ := stays.written a changed
    have in_room : a < s.argDstEnd := by have := stays.wp_le; bv_omega
    exact ⟨rfl, BitVec.le_trans window.dst_le from_wp, in_room, from_wp, below_wp⟩

end Sys2Proof.Proofs
end

section
/-! PROOF. The encodings of 30_encoding.md: command codes and selector words (R92, R93), and the symbols of lengths,
far distances and near distances with their inverse maps (R96 to R98, R104). -/

namespace Sys2Proof

open Sys2Proof.Config (Params)

/-! ### Command codes -/

theorem decodeCommand_init {v : BitVec 64} (h : v.extractLsb' 0 32 = 1) : decodeCommand v = .init := if_pos h

theorem decodeCommand_decode {v : BitVec 64} (h : v.extractLsb' 0 32 = 2) : decodeCommand v = .decode := by
  have ne_init : v.extractLsb' 0 32 ≠ 1 := by rw [h]; decide
  exact (if_neg ne_init).trans (if_pos h)

theorem decodeCommand_reserved {v : BitVec 64} (h1 : v.extractLsb' 0 32 ≠ 1) (h2 : v.extractLsb' 0 32 ≠ 2) :
    decodeCommand v = .cmdReserved (v.extractLsb' 0 32) := (if_neg h1).trans (if_neg h2)

/-- The code of a CMD value, as a number (30_encoding.md R92). -/
theorem commandCode_eq_iff (v : BitVec 64) {n : Nat} (hn : n < 2 ^ 32) :
    v.extractLsb' 0 32 = BitVec.ofNat 32 n ↔ v.toNat % 2 ^ 32 = n := by
  rw [← BitVec.toNat_inj, BitVec.extractLsb'_toNat, BitVec.toNat_ofNat, Nat.mod_eq_of_lt hn, Nat.shiftRight_zero]

theorem commandCode_eq_ofNat (v : BitVec 64) : v.extractLsb' 0 32 = BitVec.ofNat 32 (v.toNat % 2 ^ 32) :=
  (commandCode_eq_iff v (Nat.mod_lt _ (by decide))).mpr rfl

/-- Zero-extending a code and cutting to the low half again gives it back. -/
theorem commandCode_setWidth (code : BitVec 32) : (code.setWidth 64).extractLsb' 0 32 = code := by
  apply BitVec.eq_of_toNat_eq
  rw [BitVec.extractLsb'_toNat, BitVec.toNat_setWidth]
  omega

/-- Cutting a CMD value to its code and zero-extending it clears the high half. -/
theorem setWidth_commandCode (v : BitVec 64) : (v.extractLsb' 0 32).setWidth 64 = v &&& 0xFFFFFFFF := by
  apply BitVec.eq_of_toNat_eq
  rw [BitVec.toNat_setWidth, BitVec.extractLsb'_toNat, BitVec.toNat_and,
    show (0xFFFFFFFF : BitVec 64).toNat = 2 ^ 32 - 1 from rfl, Nat.and_two_pow_sub_one_eq_mod]
  omega

theorem cmdReserved_wellFormed_iff (code : BitVec 32) :
    (Instr.cmdReserved code).wellFormed = true ↔ code ≠ 1 ∧ code ≠ 2 := by
  unfold Instr.wellFormed
  rw [Bool.and_eq_true, bne_iff_ne, bne_iff_ne]

/-- A code that is neither INIT's nor DECODE's decodes to itself. -/
theorem decodeCommand_setWidth {code : BitVec 32} (h : (Instr.cmdReserved code).wellFormed = true) :
    decodeCommand (code.setWidth 64) = .cmdReserved code := by
  obtain ⟨h1, h2⟩ := (cmdReserved_wellFormed_iff code).mp h
  have kept := commandCode_setWidth code
  rw [decodeCommand_reserved (by rwa [kept]) (by rwa [kept]), kept]

/-- The three rows of the command table: what a CMD value decodes to, by its code (30_encoding.md R92). -/
theorem decodeCommand_cases (v : BitVec 64) :
    (v.extractLsb' 0 32 = 1 ∧ decodeCommand v = .init) ∨ (v.extractLsb' 0 32 = 2 ∧ decodeCommand v = .decode) ∨
    (v.extractLsb' 0 32 ≠ 1 ∧ v.extractLsb' 0 32 ≠ 2 ∧ decodeCommand v = .cmdReserved (v.extractLsb' 0 32)) := by
  by_cases h1 : v.extractLsb' 0 32 = 1
  · exact .inl ⟨h1, decodeCommand_init h1⟩
  · by_cases h2 : v.extractLsb' 0 32 = 2
    · exact .inr (.inl ⟨h2, decodeCommand_decode h2⟩)
    · exact .inr (.inr ⟨h1, h2, decodeCommand_reserved h1 h2⟩)

theorem decodeCommand_wellFormed (v : BitVec 64) : (decodeCommand v).wellFormed = true := by
  rcases decodeCommand_cases v with ⟨-, e⟩ | ⟨-, e⟩ | ⟨h1, h2, e⟩ <;> rw [e]
  · rfl
  · rfl
  · exact (cmdReserved_wellFormed_iff _).mpr ⟨h1, h2⟩

/-- Encoding what a CMD value decodes to gives the value without its high half (30_encoding.md R92). -/
theorem encode_decodeCommand (v : BitVec 64) : encode (decodeCommand v) = .command (v &&& 0xFFFFFFFF) := by
  rw [← setWidth_commandCode]
  rcases decodeCommand_cases v with ⟨h, e⟩ | ⟨h, e⟩ | ⟨-, -, e⟩ <;> rw [e]
  · rw [h]; rfl
  · rw [h]; rfl
  · rfl

/-! ### Selector words -/

theorem decodeSelector_wellFormed (sel : BitVec 5) : (decodeSelector Config.params sel).wellFormed = true := by
  revert sel; decide

/-- Encoding what a selector word decodes to gives the word back, with T = 0 where L is 1 (30_encoding.md R93). -/
theorem encode_decodeSelector (sel : BitVec 5) :
    encode (decodeSelector Config.params sel) = .selector (if sel.getLsbD 4 then 0b10000 else sel) := by
  revert sel; decide

/-- With L = 0 a selector word names the operation of its type value (30_encoding.md R93). -/
theorem decodeSelector_type (P : Params) (t : BitVec 4) :
    decodeSelector P (0#1 ++ t) =
      if t = P.tFar then .matchFar
      else if t = P.tNear0 then .matchNear0
      else if t = P.tNear1 then .matchNear1
      else if t = P.tRep then .rep
      else if t = P.tShortrep then .shortrep
      else if t ≤ 5 then .typeReserved5
      else if t.getLsbD 3 then .typeReserved8to15 (t.extractLsb' 0 3)
      else .typeReserved6to7 (t.extractLsb' 0 1) := by
  have type_bits : (0#1 ++ t).extractLsb' 0 4 = t := by revert t; decide
  have l_clear : (0#1 ++ t).getLsbD 4 = false := by revert t; decide
  unfold decodeSelector
  rw [type_bits, l_clear]
  rfl

/-- The code points of a well-formed record are distinct (00_scope.md R7), so each names its own operation. -/
theorem decodeFor_encodeFor_operation {P : Params} (hP : P.Wf) {i : Instr}
    (h : i = .lit ∨ i = .matchFar ∨ i = .matchNear0 ∨ i = .matchNear1 ∨ i = .rep ∨ i = .shortrep) :
    decodeFor P (encodeFor P i) = i := by
  obtain ⟨-, -, -, -, -, -, -, -, -, -, -, distinct⟩ := hP
  simp only [Params.codePoints, List.nodup_cons, List.mem_cons, List.not_mem_nil, or_false, not_or] at distinct
  obtain ⟨⟨far0, far1, farR, farS⟩, ⟨near01, near0R, near0S⟩, ⟨near1R, near1S⟩, repS, -⟩ := distinct
  rcases h with rfl | rfl | rfl | rfl | rfl | rfl
  · rfl
  · exact (decodeSelector_type P _).trans (if_pos rfl)
  all_goals
    refine (decodeSelector_type P _).trans ?_
    simp [Ne.symm, *]

/-- Decoding the word of a well-formed instruction, row by row of the two tables. -/
theorem decode_encode {i : Instr} (h : i.wellFormed = true) : decode (encode i) = i := by
  cases i with
  | cmdReserved code => exact decodeCommand_setWidth h
  | typeReserved6to7 low => revert low; decide
  | typeReserved8to15 low => revert low; decide
  | _ => rfl

end Sys2Proof

namespace Sys2Proof.Machine

open Sys2Proof.Config (Params)

/-! ### Lengths -/

/-- The symbols of a length are a sequence that can be decoded, and have its value (30_encoding.md R96, R104). -/
theorem lenValue_lenSymbols {P : Params} (hw : P.AsWritten) {n : Nat} (h2 : 2 ≤ n) (h54 : n ≤ 54) :
    (lenSymbols P n).valid = true ∧ lenValue P (lenSymbols P n) = n := by
  unfold lenSymbols
  rw [hw.longBase1, hw.longBase2, hw.longBase3, hw.minLen]
  by_cases medium : n < 9
  · rw [if_pos medium]
    exact ⟨decide_eq_true (by omega), by rw [lenValue, hw.minLen]; omega⟩
  rw [if_neg medium]
  by_cases long1 : n < 24
  · rw [if_pos long1]
    exact ⟨decide_eq_true (by omega), by rw [lenValue, hw.longBase1]; omega⟩
  rw [if_neg long1]
  by_cases long2 : n < 39
  · rw [if_pos long2]
    exact ⟨decide_eq_true (by omega), by rw [lenValue, hw.longBase2]; omega⟩
  rw [if_neg long2]
  exact ⟨decide_eq_true (by omega), by rw [lenValue, hw.longBase3]; omega⟩

/-- A sequence that can be decoded is the one of its value: the four kinds fill ranges that do not meet. -/
theorem lenSymbols_lenValue {P : Params} (hw : P.AsWritten) {y : LenSymbols} (hy : y.valid = true) :
    lenSymbols P (lenValue P y) = y := by
  unfold lenSymbols
  rw [hw.longBase1, hw.longBase2, hw.longBase3, hw.minLen]
  cases y with
  | medium m =>
    have hm : m ≤ 6 := of_decide_eq_true hy
    rw [lenValue, hw.minLen, if_pos (by omega), Nat.add_sub_cancel_left]
  | long1 n =>
    have hn : n ≤ 14 := of_decide_eq_true hy
    rw [lenValue, hw.longBase1, if_neg (by omega), if_pos (by omega), Nat.add_sub_cancel_left]
  | long2 n =>
    have hn : n ≤ 14 := of_decide_eq_true hy
    rw [lenValue, hw.longBase2, if_neg (by omega), if_neg (by omega), if_pos (by omega), Nat.add_sub_cancel_left]
  | long3 n =>
    rw [lenValue, hw.longBase3, if_neg (by omega), if_neg (by omega), if_neg (by omega), Nat.add_sub_cancel_left]

/-! ### Far distances -/

theorem farValue_add (hi lo r : Nat) : farValue hi lo r + 15 = 2 ^ hi * (16 + lo) + r := by
  have pos := Nat.two_pow_pos hi
  have large : 2 ^ hi * 16 ≤ 2 ^ hi * (16 + lo) := Nat.mul_le_mul_left _ (by omega)
  unfold farValue
  rw [Nat.shiftLeft_eq, Nat.mul_comm]
  omega

/-- The symbols of a far distance are read off its offset form: a leading part in [16, 32), scaled by 2^HI, and a
remainder of HI bits (30_encoding.md R104). -/
theorem farSymbols_of_add {d hi m r : Nat} (hm : 16 ≤ m) (hm' : m < 32) (hr : r < 2 ^ hi)
    (hd : d + 15 = 2 ^ hi * m + r) : farSymbols d = (hi, m - 16, r) := by
  have low : 2 ^ hi * 16 ≤ 2 ^ hi * m := Nat.mul_le_mul_left _ hm
  have high : 2 ^ hi * (m + 1) ≤ 2 ^ hi * 32 := Nat.mul_le_mul_left _ hm'
  rw [Nat.mul_succ] at high
  have hlog : Nat.log2 (d + 15) = hi + 4 :=
    (Nat.log2_eq_iff (by omega)).mpr ⟨by rw [Nat.pow_add]; omega, by rw [Nat.pow_add 2 hi 5]; omega⟩
  have leading : (d + 15) / 2 ^ hi = m := by
    rw [hd, Nat.mul_add_div (Nat.two_pow_pos hi), Nat.div_eq_of_lt hr, Nat.add_zero]
  have rest : (d + 15) % 2 ^ hi = r := by rw [hd, Nat.mul_add_mod, Nat.mod_eq_of_lt hr]
  unfold farSymbols
  dsimp only
  rw [hlog, Nat.add_sub_cancel, Nat.shiftRight_eq_div_pow, leading, rest]

/-- Every far distance has an offset form, with HI below 16. -/
theorem far_offset_form {d : Nat} (h1 : 1 ≤ d) (hd : d ≤ 1048560) :
    ∃ hi m r, hi < 16 ∧ 16 ≤ m ∧ m < 32 ∧ r < 2 ^ hi ∧ d + 15 = 2 ^ hi * m + r := by
  obtain ⟨low, high⟩ := (Nat.log2_eq_iff (n := d + 15) (by omega)).mp rfl
  have log_ge : 4 ≤ Nat.log2 (d + 15) := (Nat.le_log2 (by omega)).mpr (by omega)
  have log_lt : Nat.log2 (d + 15) < 20 := (Nat.log2_lt (by omega)).mpr (by omega)
  obtain ⟨hi, hlog⟩ := Nat.exists_eq_add_of_le' log_ge
  rw [hlog, Nat.pow_add] at low
  rw [hlog, show hi + 4 + 1 = hi + 5 from rfl, Nat.pow_add] at high
  have pos := Nat.two_pow_pos hi
  refine ⟨hi, (d + 15) / 2 ^ hi, (d + 15) % 2 ^ hi, by omega, (Nat.le_div_iff_mul_le pos).mpr (by omega),
    (Nat.div_lt_iff_lt_mul pos).mpr (by omega), Nat.mod_lt _ pos, (Nat.div_add_mod _ _).symm⟩

/-! ### Near distances -/

theorem nearDelta_even (k : Nat) : nearDelta (2 * k) = k + 1 := by
  unfold nearDelta
  rw [if_pos (by omega), Nat.shiftRight_eq_div_pow]
  omega

theorem nearDelta_odd (k : Nat) : nearDelta (2 * k + 1) = -(k + 1 : Int) := by
  unfold nearDelta
  rw [if_neg (by omega), Nat.shiftRight_eq_div_pow]
  omega

theorem nearSymbol_pos (k : Nat) : nearSymbol (k + 1) = 2 * k := by
  unfold nearSymbol
  rw [if_pos (by omega)]
  omega

theorem nearSymbol_neg (k : Nat) : nearSymbol (-(k + 1 : Int)) = 2 * k + 1 := by
  unfold nearSymbol
  rw [if_neg (by omega)]
  omega

/-- Even symbols stand for the positive deltas and odd ones for the negative (30_encoding.md R98). -/
theorem nearSymbol_nearDelta (v : Nat) : nearSymbol (nearDelta v) = v := by
  rcases Nat.even_or_odd' v with ⟨k, rfl | rfl⟩
  · rw [nearDelta_even, nearSymbol_pos]
  · rw [nearDelta_odd, nearSymbol_neg]

theorem nearDelta_nearSymbol {e : Int} (h0 : e ≠ 0) (low : -32 ≤ e) (high : e ≤ 32) :
    nearSymbol e < 64 ∧ nearDelta (nearSymbol e) = e := by
  rcases lt_or_gt_of_ne h0 with neg | pos
  · obtain ⟨k, rfl⟩ : ∃ k : Nat, e = -(k + 1 : Int) := ⟨(-e - 1).toNat, by omega⟩
    rw [nearSymbol_neg]
    exact ⟨by omega, nearDelta_odd k⟩
  · obtain ⟨k, rfl⟩ : ∃ k : Nat, e = (k + 1 : Int) := ⟨(e - 1).toNat, by omega⟩
    rw [nearSymbol_pos]
    exact ⟨by omega, nearDelta_even k⟩

end Sys2Proof.Machine

namespace Sys2Proof.Proofs

open Sys2Proof.Machine
open Sys2Proof.Config (Params)

/-- Settles O3: row by row for an encoded instruction, by the three rows of the command table for a CMD value, over
all 32 words for a selector, and by the distinctness of the code points for any other record. -/
theorem decodeInvertsEncode : Obligations.DecodeInvertsEncode := by
  unfold Obligations.DecodeInvertsEncode
  refine ⟨fun i h => decode_encode h, fun e => ?_, encode_decodeCommand, encode_decodeSelector,
    fun P hP i h => decodeFor_encodeFor_operation hP h⟩
  cases e with
  | command v => exact decodeCommand_wellFormed v
  | selector sel => exact decodeSelector_wellFormed sel

/-- Settles O5: a distance and its symbols share one offset form. -/
theorem farCodeIsBijective : Obligations.FarCodeIsBijective := by
  unfold Obligations.FarCodeIsBijective
  refine ⟨fun d h1 hd => ?_, fun hi lo r _ hlo hr => ?_⟩
  · obtain ⟨hi, m, r, hhi, hm, hm', hr, form⟩ := far_offset_form h1 hd
    refine ⟨hi, m - 16, r, farSymbols_of_add hm hm' hr form, hhi, by omega, hr, ?_⟩
    have value := farValue_add hi (m - 16) r
    rw [Nat.add_sub_cancel' hm] at value
    omega
  · have form := farValue_add hi lo r
    have low : 2 ^ hi * 16 ≤ 2 ^ hi * (16 + lo) := Nat.mul_le_mul_left _ (by omega)
    have high : 2 ^ hi * (16 + lo) ≤ 2 ^ hi * 31 := Nat.mul_le_mul_left _ (by omega)
    have symbols := farSymbols_of_add (by omega) (by omega) hr form
    rw [Nat.add_sub_cancel_left] at symbols
    exact ⟨by omega, by omega, symbols⟩

/-- Settles O1: each word is decoded by evaluation. -/
theorem sampleWordsDecode : Obligations.SampleWordsDecode := by
  unfold Obligations.SampleWordsDecode
  exact ⟨rfl, rfl, rfl, rfl, rfl, rfl, rfl, rfl, rfl, rfl, rfl, rfl, rfl, rfl⟩

/-- Settles O2: the rows of the command table, with the code written as a number. -/
theorem commandCodeIsTheLowHalf : Obligations.CommandCodeIsTheLowHalf := by
  unfold Obligations.CommandCodeIsTheLowHalf
  intro v
  change decodeCommand v = _
  have init_iff := commandCode_eq_iff v (n := 1) (by decide)
  have decode_iff := commandCode_eq_iff v (n := 2) (by decide)
  rcases decodeCommand_cases v with ⟨h, e⟩ | ⟨h, e⟩ | ⟨h1, h2, e⟩
  · rw [if_pos (init_iff.mp h), e]
  · have code := decode_iff.mp h
    rw [if_neg (by omega), if_pos code, e]
  · rw [if_neg (mt init_iff.mpr h1), if_neg (mt decode_iff.mpr h2), e, commandCode_eq_ofNat]

/-- Settles O4: the two maps are inverse to each other, and the values stay in 2..54. -/
theorem lengthCodeIsBijective : Obligations.LengthCodeIsBijective := by
  unfold Obligations.LengthCodeIsBijective
  intro P hw
  refine ⟨fun n h2 h54 => lenValue_lenSymbols hw h2 h54, fun y hy => ?_⟩
  obtain ⟨h2, h54⟩ := lenValue_bounds hw hy
  exact ⟨h2, h54, lenSymbols_lenValue hw hy⟩

/-- Settles O6: the two maps are inverse to each other, and the deltas stay in range. -/
theorem nearCodeIsBijective : Obligations.NearCodeIsBijective := by
  unfold Obligations.NearCodeIsBijective
  refine ⟨fun v hv => ?_, fun e h0 low high => nearDelta_nearSymbol h0 low high⟩
  obtain ⟨h0, low, high⟩ := nearDelta_bounds hv
  exact ⟨h0, low, high, nearSymbol_nearDelta v⟩

end Sys2Proof.Proofs
end

section
/-! PROOF. Which instruction a step runs (30_encoding.md R92, 44_quantum_loop.md R203), what a reserved type value does
(R101), and the cells that no instruction reaches. -/

namespace Sys2Proof.Machine

open Sys2Proof.Config (Params)
open Sys2Proof.Safety

variable {s t : State}

/-! ### The instruction of a step -/

/-- The host's next write to CMD is the next move of an IDLE block (10_state.md R29). -/
theorem nextMove_command {e : HostEvent} {rest : List HostEvent} {v : BitVec 64} (hp : s.phase = .idle)
    (hs : s.script = e :: rest) (he : e.action = .regWrite 0x00 .b64 v) :
    nextMove s = .instr (decode (.command v)) (s.setScript rest) := by
  unfold nextMove
  rw [dueEvent_idle hp hs, he]
  exact hostMove_command (s := s.setScript rest) hp v

/-- In a DECODE that no event interrupts the next move is the loop's (44_quantum_loop.md R200). -/
theorem nextMove_loopTurn (h : LoopTurn s) :
    nextMove s = loopMove Config.params (s.setScript (tickEvents s.script)) := by
  obtain ⟨busy, none_due⟩ := h
  unfold nextMove
  rw [none_due]
  dsimp only
  rw [busy]

/-- The loop's move where fetching the selector answers (44_quantum_loop.md R203). -/
theorem loopMove_fetched {P : Params} {sel : BitVec 5} (hw : s.wp < s.argDstEnd)
    (h : fetchSelector P s = .ok sel t) : loopMove P s = .instr (decodeSelector P sel) t := by
  unfold loopMove
  rw [if_pos hw, h]

/-- The loop's move where fetching the selector raises. -/
theorem loopMove_raised {P : Params} {c : Cause} (hw : s.wp < s.argDstEnd)
    (h : fetchSelector P s = .raised c t) : loopMove P s = .settled (.next (faultEntry c t)) := by
  unfold loopMove
  rw [if_pos hw, h]

theorem step_of_nextMove_instr {i : Instr} (h : nextMove s = .instr i t) : step s = exec i t := by
  unfold step; rw [h]

theorem step_of_nextMove_settled {o : Host.Outcome State Fault Refusal} (h : nextMove s = .settled o) :
    step s = o := by
  unfold step; rw [h]

/-- In a turn of the loop whose selector was fetched, the step runs the operation that the selector names. -/
theorem step_fetched {sel : BitVec 5} (turn : LoopTurn s) (hw : s.wp < s.argDstEnd)
    (h : fetchSelector Config.params (s.setScript (tickEvents s.script)) = .ok sel t) :
    step s = exec (decode (.selector sel)) t :=
  step_of_nextMove_instr ((nextMove_loopTurn turn).trans (loopMove_fetched hw h))

/-! ### Reserved type values -/

/-- The three reserved rows have one meaning, whatever their open bits (30_encoding.md R101). -/
theorem exec_reservedType {i : Instr}
    (h : i = .typeReserved5 ∨ (∃ low, i = .typeReserved6to7 low) ∨ ∃ low, i = .typeReserved8to15 low) (s : State) :
    exec i s = .next (faultEntry .modelCorruption s) := by
  rcases h with rfl | ⟨low, rfl⟩ | ⟨low, rfl⟩ <;> rfl

/-! ### Cells that no instruction reaches -/

/-- From `s` to `t` the cells were all reset, or those on no decode path read as before. -/
def UnusedCellsKept (s t : State) : Prop :=
  t.cells = [] ∨ ∀ j, ¬Consulted j → cellAt Config.params t j = cellAt Config.params s j

theorem UnusedCellsKept.of_cells_eq (h : t.cells = s.cells) : UnusedCellsKept s t :=
  .inr fun j _ => cellAt_congr h j

theorem UnusedCellsKept.initial (h : UnusedCellsKept s t) {j : Nat} (hj : ¬Consulted j)
    (hs : cellAt Config.params s j = initCell Config.params j) :
    cellAt Config.params t j = initCell Config.params j := by
  rcases h with cleared | kept
  · exact cellAt_of_cells_nil cleared j
  · exact (kept j hj).trans hs

/-- INIT resets the cells; no other command touches them (41_models.md R147). -/
theorem command_unusedCellsKept {v : BitVec 64} (h : exec (decode (.command v)) s = .next t) :
    UnusedCellsKept s t := by
  rcases command_outcome h with ⟨-, rfl⟩ | ⟨-, started⟩ | ⟨c, -, rfl⟩
  · exact .inl rfl
  · rcases decode_outcome started with ⟨c, -, rfl⟩ | ⟨-, -, rfl⟩ | ⟨-, -, -, rfl⟩ | ⟨-, -, -, a, b, rfl⟩
    all_goals exact .of_cells_eq rfl
  · exact .of_cells_eq rfl

/-- Of the host's actions only a reset touches the cells (10_state.md R46). -/
theorem hostAction_unusedCellsKept {a : HostAction} (h : hostAction a s = .next t) : UnusedCellsKept s t := by
  rcases hostAction_outcome h with ⟨o, z, v, -, rfl⟩ | ⟨o, z, -, rfl⟩ | ⟨addr, v, -, rfl⟩ | ⟨addr, -, rfl⟩ |
    ⟨addr, v, -, rfl⟩ | ⟨addr, -, rfl⟩ | ⟨-, rfl⟩
  · obtain ⟨⟨_, _, _, _, _, frame⟩, -⟩ := writeReg_frame o z v s
    rw [frame]; exact .of_cells_eq rfl
  · obtain ⟨_, _, frame⟩ := readReg_frame o z s
    rw [frame]; exact .of_cells_eq rfl
  · exact .of_cells_eq rfl
  · exact .of_cells_eq rfl
  · exact .of_cells_eq rfl
  · exact .of_cells_eq rfl
  · exact .inl rfl

/-- Every step resets the cells or adapts only those on a decode path (30_encoding.md R101). -/
theorem step_unusedCellsKept (wf : Cells.wf Config.params s.cells = true) (h : step s = .next t) :
    UnusedCellsKept s t := by
  rcases step_outcome h with ⟨-, rfl⟩ | ⟨-, -, l, op⟩ | ⟨-, -, l, c, u, ⟨symbols, -⟩, rfl⟩ | ⟨-, -, l, rfl⟩ |
    ⟨e, rest, -, ⟨v, -, -, command⟩ | ⟨-, -, action⟩⟩
  · exact .of_cells_eq rfl
  · exact .inr (op.kept wf)
  · exact .inr (symbols.kept wf)
  · exact .of_cells_eq rfl
  · exact command_unusedCellsKept (s := s.setScript rest) command
  · exact hostAction_unusedCellsKept (s := s.setScript rest) action

end Sys2Proof.Machine

namespace Sys2Proof.Proofs

open Sys2Proof.Machine Sys2Proof.Safety

/-- Settles O55: a step resets the cells to their initializer values or leaves those on no decode path alone. -/
theorem unusedCellsKeepTheirValue : Obligations.UnusedCellsKeepTheirValue := by
  unfold Obligations.UnusedCellsKeepTheirValue
  exact fun _ _ wf stepped _ unused initial => (step_unusedCellsKept wf stepped).initial unused initial

/-- Settles O35: every reserved row is the fault entry of `ModelCorruption`. -/
theorem reservedTypesRaiseModelCorruption : Obligations.ReservedTypesRaiseModelCorruption := by
  unfold Obligations.ReservedTypesRaiseModelCorruption
  intro s i reserved
  rw [exec_reservedType reserved]
  rfl

/-- Settles O51: the next move names the instruction, or settles the fault entry. -/
theorem stepRunsDecodedInstruction : Obligations.StepRunsDecodedInstruction := by
  unfold Obligations.StepRunsDecodedInstruction
  refine ⟨fun s e rest v idle script action => step_of_nextMove_instr (nextMove_command idle script action),
    fun s turn room => ⟨fun sel t fetched => step_fetched turn room fetched, fun c t raised => ?_⟩⟩
  exact step_of_nextMove_settled ((nextMove_loopTurn turn).trans (loopMove_raised room raised))

end Sys2Proof.Proofs
end

section
/-! PROOF. The stream encoder of 40_bitreader.md R128 against the reader: a reader that holds the encoder's state for a
plan of primitives decodes the plan and ends behind its last refill word. -/

namespace Sys2Proof.Machine

open Sys2Proof.Config (Params)
open Sys2Proof.Safety

variable {P : Params} {s t : State}

/-! ### Words in wire order (20_memory.md R62) -/

theorem wireBytes_false (n v : Nat) : wireBytes false n v = (wireBytes true n v).reverse := by
  unfold wireBytes
  exact (List.reverse_reverse _).symm

theorem wireBytes_length (big : Bool) (n v : Nat) : (wireBytes big n v).length = n := by
  cases big <;> simp [wireBytes]

/-- With the most significant byte first, a longer word starts with the byte that it adds. -/
theorem wireBytes_succ (n v : Nat) :
    wireBytes true (n + 1) v = BitVec.ofNat 8 (v >>> (8 * n)) :: wireBytes true n v := by
  simp [wireBytes, List.range_succ]

/-- The bytes of a word, read back, are its value modulo their number. -/
theorem bigEndianValue_wireBytes (n v : Nat) : bigEndianValue (wireBytes true n v) = v % 256 ^ n := by
  induction n with
  | zero => simp [wireBytes, bigEndianValue, Nat.mod_one]
  | succ n ih =>
    have first : bigEndianValue [BitVec.ofNat 8 (v >>> (8 * n))] = v / 256 ^ n % 256 := by
      simp [bigEndianValue, Nat.shiftRight_eq_div_pow, Nat.pow_mul]
    rw [wireBytes_succ, ← List.singleton_append, bigEndianValue_append, wireBytes_length, ih, first, Nat.pow_succ,
      Nat.mod_mul]
    ring

/-- A source word whose bytes are those of `v` in wire order is `v`. -/
theorem srcWord_of_wireBytes {a : Addr} {n v : Nat} (h : srcBytes s a n = wireBytes P.wireBigEndian n v)
    (hv : v < 256 ^ n) : srcWord P s a n = v := by
  unfold srcWord
  rw [h]
  cases P.wireBigEndian with
  | true => exact (bigEndianValue_wireBytes n v).trans (Nat.mod_eq_of_lt hv)
  | false =>
    rw [wireBytes_false]
    dsimp only
    rw [if_neg Bool.false_ne_true, List.reverse_reverse]
    exact (bigEndianValue_wireBytes n v).trans (Nat.mod_eq_of_lt hv)

/-! ### Undoing one primitive (40_bitreader.md R128) -/

/-- An accumulator value between two primitives (40_bitreader.md R126). -/
def Normal (x : Nat) : Prop := 2 ^ 31 ≤ x ∧ x < 2 ^ 63

/-- What an encoder can be asked to undo: a decision on a cell that leaves both bits possible, or a raw read of a
value that fits. -/
def PrimOk : Prim → Prop
  | .bit p _ => 1 ≤ p ∧ p < 2 ^ 15
  | .raw n v => n ≤ 16 ∧ v < 2 ^ n

theorem bitFreq_pos {p : Nat} (hp : 1 ≤ p) (hp' : p < 2 ^ 15) (b : Bool) : 0 < bitFreq p b := by
  cases b
  · exact hp
  · exact Nat.sub_pos_of_lt hp'

/-- The slots of a bit lie inside the probability scale. -/
theorem bitFreq_add_bitStart {p : Nat} (hp : 1 ≤ p) (hp' : p < 2 ^ 15) (b : Bool) :
    bitFreq p b < 2 ^ 15 ∧ bitFreq p b + bitStart p b ≤ 2 ^ 15 := by
  cases b <;> simp only [bitFreq, bitStart, Config.probOne, Bool.false_eq_true, if_true, if_false] <;> omega

theorem undoBit_eq (p : Nat) (b : Bool) (y : Nat) :
    undoBit p b y = 2 ^ 15 * (y / bitFreq p b) + (y % bitFreq p b + bitStart p b) := by
  unfold undoBit Config.probBits
  rw [Nat.shiftLeft_eq]
  ring

section Bit

variable {p : Nat} (hp : 1 ≤ p) (hp' : p < 2 ^ 15) (b : Bool) (y : Nat)
include hp hp'

theorem undoBit_slot_lt : y % bitFreq p b + bitStart p b < 2 ^ 15 := by
  have slot := Nat.mod_lt y (bitFreq_pos hp hp' b)
  have room := (bitFreq_add_bitStart hp hp' b).2
  omega

theorem undoBit_div : undoBit p b y / 2 ^ 15 = y / bitFreq p b := by
  rw [undoBit_eq, Nat.mul_add_div (by decide), Nat.div_eq_of_lt (undoBit_slot_lt hp hp' b y), Nat.add_zero]

theorem undoBit_mod : undoBit p b y % 2 ^ 15 = y % bitFreq p b + bitStart p b := by
  rw [undoBit_eq, Nat.mul_add_mod, Nat.mod_eq_of_lt (undoBit_slot_lt hp hp' b y)]

/-- The decoder takes the bit that the encoder undid. -/
theorem bitOf_undoBit : bitOf (undoBit p b y) p = b := by
  rw [bitOf_eq, undoBit_mod hp hp']
  cases b with
  | false => exact decide_eq_false (Nat.not_le.mpr (Nat.mod_lt y hp))
  | true => exact decide_eq_true (Nat.le_add_left p _)

/-- The decoder hands to `Renorm` what the encoder started from. -/
theorem bitRest_undoBit : bitRest (undoBit p b y) p = y := by
  rw [bitRest_eq, undoBit_div hp hp', undoBit_mod hp hp']
  cases b with
  | false =>
    exact (if_neg (Nat.not_le.mpr (Nat.mod_lt y hp))).trans (Nat.div_add_mod y p)
  | true =>
    refine (if_pos (Nat.le_add_left p _)).trans ?_
    rw [show bitStart p true = p from rfl, Nat.add_sub_cancel]
    exact Nat.div_add_mod y (0x8000 - p)

end Bit

theorem undoRaw_eq {n v : Nat} (hv : v < 2 ^ n) (y : Nat) : undoRaw n v y = 2 ^ n * y + v := by
  unfold undoRaw
  rw [← Nat.shiftLeft_add_eq_or_of_lt hv, Nat.shiftLeft_eq, Nat.mul_comm]

theorem undoRaw_mod {n v : Nat} (hv : v < 2 ^ n) (y : Nat) : undoRaw n v y % 2 ^ n = v := by
  rw [undoRaw_eq hv, Nat.mul_add_mod, Nat.mod_eq_of_lt hv]

theorem undoRaw_shift {n v : Nat} (hv : v < 2 ^ n) (y : Nat) : undoRaw n v y >>> n = y := by
  rw [undoRaw_eq hv, Nat.shiftRight_eq_div_pow, Nat.mul_add_div (Nat.two_pow_pos n), Nat.div_eq_of_lt hv, Nat.add_zero]

/-! ### Refill words -/

/-- The value that the encoder undoes a primitive from, after any refill: what the decoder hands to `Renorm`. -/
def beforeRefill (P : Params) (prim : Prim) (x : Nat) : Nat :=
  if emitsWord P prim x then x >>> P.refillBits else x

/-- Undo the arithmetic of one primitive. -/
def undoArith : Prim → Nat → Nat
  | .bit p b, y => undoBit p b y
  | .raw n v, y => undoRaw n v y

theorem encodePrims_xa (prim : Prim) (rest : List Prim) :
    (encodePrims P (prim :: rest)).xa = undoArith prim (beforeRefill P prim (encodePrims P rest).xb) := by
  cases prim <;> rfl

theorem encodePrims_xb (prim : Prim) (rest : List Prim) :
    (encodePrims P (prim :: rest)).xb = (encodePrims P rest).xa := rfl

theorem encodePrims_words (prim : Prim) (rest : List Prim) :
    (encodePrims P (prim :: rest)).words =
      if emitsWord P prim (encodePrims P rest).xb then
        (encodePrims P rest).xb % 2 ^ P.refillBits :: (encodePrims P rest).words
      else (encodePrims P rest).words := by
  cases prim with
  | bit p b => cases h : emitsWord P (.bit p b) (encodePrims P rest).xb <;> simp [encodePrims, undoPrim, h]
  | raw n v => cases h : emitsWord P (.raw n v) (encodePrims P rest).xb <;> simp [encodePrims, undoPrim, h]

/-- A primitive needs at most one refill word. -/
theorem encodePrims_words_length_le (prims : List Prim) : (encodePrims P prims).words.length ≤ prims.length := by
  induction prims with
  | nil => exact Nat.zero_le _
  | cons prim rest ih =>
    rw [encodePrims_words, List.length_cons]
    split
    · exact Nat.succ_le_succ ih
    · exact Nat.le_succ_of_le ih

section AsWritten

variable (hw : P.AsWritten)
include hw

theorem emitsWord_bit (p : Nat) (b : Bool) (x : Nat) :
    emitsWord P (.bit p b) x = decide (bitFreq p b * 2 ^ 48 ≤ x) := by
  unfold emitsWord
  dsimp only
  rw [renormTop_asWritten hw, Nat.shiftRight_eq_div_pow, Nat.pow_div (by decide) (by decide)]
  rfl

theorem emitsWord_raw {n : Nat} (hn : n ≤ 16) (v x : Nat) :
    emitsWord P (.raw n v) x = decide (2 ^ (63 - n) ≤ x) := by
  unfold emitsWord
  dsimp only
  rw [renormTop_asWritten hw, Nat.shiftRight_eq_div_pow, Nat.pow_div (by omega) (by decide)]

theorem beforeRefill_emits {prim : Prim} {x : Nat} (h : emitsWord P prim x = true) :
    beforeRefill P prim x = x / 2 ^ 32 := by
  unfold beforeRefill
  rw [if_pos h, hw.refillBits, Nat.shiftRight_eq_div_pow]

omit hw in
theorem beforeRefill_keeps {prim : Prim} {x : Nat} (h : emitsWord P prim x = false) :
    beforeRefill P prim x = x := by
  unfold beforeRefill
  rw [h]
  rfl

/-- Undoing a decision keeps the encoder's state normal. -/
theorem normal_undoBit {p x : Nat} (hp : 1 ≤ p) (hp' : p < 2 ^ 15) (b : Bool) (hx : Normal x) :
    Normal (undoBit p b (beforeRefill P (.bit p b) x)) := by
  obtain ⟨low, high⟩ := hx
  have slot := undoBit_slot_lt hp hp' b
  have pos := bitFreq_pos hp hp' b
  have scale := (bitFreq_add_bitStart hp hp' b).1
  have emits := emitsWord_bit hw p b x
  rw [undoBit_eq]
  unfold Normal
  cases h : emitsWord P (.bit p b) x with
  | true =>
    rw [h, eq_comm, decide_eq_true_eq] at emits
    rw [beforeRefill_emits hw h]
    have start := slot (x / 2 ^ 32)
    have shifted : 2 ^ 16 * bitFreq p b ≤ x / 2 ^ 32 := by omega
    have quotient_ge : 2 ^ 16 ≤ x / 2 ^ 32 / bitFreq p b := (Nat.le_div_iff_mul_le pos).mpr shifted
    have quotient_le := Nat.div_le_self (x / 2 ^ 32) (bitFreq p b)
    omega
  | false =>
    rw [h, eq_comm, decide_eq_false_iff_not, Nat.not_le] at emits
    rw [beforeRefill_keeps h]
    have start := slot x
    have quotient_lt : x / bitFreq p b < 2 ^ 48 := (Nat.div_lt_iff_lt_mul pos).mpr (by omega)
    have whole := Nat.div_add_mod x (bitFreq p b)
    have grows : bitFreq p b * (x / bitFreq p b) ≤ 2 ^ 15 * (x / bitFreq p b) := Nat.mul_le_mul_right _ scale.le
    omega

/-- Undoing a raw read keeps the encoder's state normal. -/
theorem normal_undoRaw {n v x : Nat} (hn : n ≤ 16) (hv : v < 2 ^ n) (hx : Normal x) :
    Normal (undoRaw n v (beforeRefill P (.raw n v) x)) := by
  obtain ⟨low, high⟩ := hx
  have emits := emitsWord_raw hw hn v x
  have small : 2 ^ n ≤ 2 ^ 16 := Nat.pow_le_pow_right (by decide) hn
  rw [undoRaw_eq hv]
  unfold Normal
  cases h : emitsWord P (.raw n v) x with
  | true =>
    rw [h, eq_comm, decide_eq_true_eq] at emits
    rw [beforeRefill_emits hw h]
    have split : 2 ^ (63 - n) = 2 ^ (31 - n) * 2 ^ 32 := by rw [← Nat.pow_add]; congr 1; omega
    have quotient_ge : 2 ^ (31 - n) ≤ x / 2 ^ 32 := (Nat.le_div_iff_mul_le (by decide)).mpr (split ▸ emits)
    have product_ge : 2 ^ n * 2 ^ (31 - n) ≤ 2 ^ n * (x / 2 ^ 32) := Nat.mul_le_mul_left _ quotient_ge
    rw [← Nat.pow_add, Nat.add_sub_cancel' (by omega)] at product_ge
    have product_le : 2 ^ n * (x / 2 ^ 32) ≤ 2 ^ 16 * (x / 2 ^ 32) := Nat.mul_le_mul_right _ small
    omega
  | false =>
    rw [h, eq_comm, decide_eq_false_iff_not, Nat.not_le] at emits
    rw [beforeRefill_keeps h]
    have product_ge : 1 * x ≤ 2 ^ n * x := Nat.mul_le_mul_right _ (Nat.two_pow_pos n)
    have product_lt : 2 ^ n * (x + 1) ≤ 2 ^ n * 2 ^ (63 - n) := Nat.mul_le_mul_left _ emits
    rw [← Nat.pow_add, Nat.add_sub_cancel' (by omega), Nat.mul_succ] at product_lt
    omega

/-- The encoder's two states stay normal (40_bitreader.md R126, R128). -/
theorem encodePrims_normal {prims : List Prim} (h : ∀ prim ∈ prims, PrimOk prim) :
    Normal (encodePrims P prims).xa ∧ Normal (encodePrims P prims).xb := by
  induction prims with
  | nil =>
    have start : Normal P.renormLow := by rw [hw.renormLow]; exact ⟨le_rfl, by decide⟩
    exact ⟨start, start⟩
  | cons prim rest ih =>
    obtain ⟨later_a, later_b⟩ := ih fun q hq => h q (List.mem_cons_of_mem _ hq)
    have ok := h prim List.mem_cons_self
    refine ⟨?_, later_a⟩
    rw [encodePrims_xa]
    cases prim with
    | bit p b => exact normal_undoBit hw ok.1 ok.2 b later_b
    | raw n v => exact normal_undoRaw hw ok.1 ok.2 later_b

end AsWritten

variable {stop : Addr}

/-! ### A reader that holds the encoder's state -/

/-- The refill words `ws` stand from CUR on, up to `stop` and inside the source. -/
structure WordsAhead (P : Params) (ws : List Nat) (stop : Addr) (s : State) : Prop where
  bytes : srcBytes s s.cur (P.refillBytes * ws.length) = ws.flatMap (wireBytes P.wireBigEndian P.refillBytes)
  supply : Supply P ws.length s
  stop_eq : s.cur + BitVec.ofNat 64 (P.refillBytes * ws.length) = stop

/-- A refill takes the first of the words ahead. -/
theorem WordsAhead.refill {w : Nat} {ws : List Nat} (h : WordsAhead P (w :: ws) stop s) (hw : w < 256 ^ P.refillBytes) :
    srcWord P s s.cur P.refillBytes = w ∧ P.refillBytes ≤ (bytesRemaining s).toNat ∧
      ∀ a b, WordsAhead P ws stop ((s.setCur (s.cur + BitVec.ofNat 64 P.refillBytes)).setAcc a b) := by
  obtain ⟨bytes, ⟨cur_le, supply⟩, stop_eq⟩ := h
  rw [List.length_cons, Nat.mul_succ, Nat.add_comm] at bytes supply stop_eq
  rw [srcBytes_add, List.flatMap_cons] at bytes
  obtain ⟨word, later⟩ := List.append_inj bytes (by rw [srcBytes_length, wireBytes_length])
  refine ⟨srcWord_of_wireBytes word hw, by omega, fun a b => ⟨later, ⟨?_, ?_⟩, ?_⟩⟩
  · unfold bytesRemaining at supply
    simp only [State.setAcc_cur, State.setAcc_lim, State.setCur_cur, State.setCur_lim]
    bv_omega
  · unfold bytesRemaining at supply ⊢
    simp only [State.setAcc_cur, State.setAcc_lim, State.setCur_cur, State.setCur_lim]
    generalize P.refillBytes * ws.length = ahead at supply ⊢
    bv_omega
  · rw [← stop_eq, BitVec.ofNat_add, ← BitVec.add_assoc]
    rfl

/-- The reader is where the encoder's state `e` leaves it: the accumulators are the encoder's two states, and its
refill words are ahead. -/
structure ReaderHolds (P : Params) (e : EncState) (stop : Addr) (s : State) : Prop where
  accA : s.accA = BitVec.ofNat 64 e.xa
  accB : s.accB = BitVec.ofNat 64 e.xb
  ahead : WordsAhead P e.words stop s

/-- What the reader holds does not depend on the cells. -/
theorem ReaderHolds.setCell {e : EncState} (h : ReaderHolds P e stop s) (j : Nat) (v : Prob) :
    ReaderHolds P e stop (setCell P s j v) :=
  ⟨h.accA, h.accB, h.ahead.bytes, h.ahead.supply, h.ahead.stop_eq⟩

theorem toNat_ofNat_of_normal {x : Nat} (h : Normal x) : (BitVec.ofNat 64 x).toNat = x := by
  obtain ⟨-, high⟩ := h
  rw [BitVec.toNat_ofNat]
  omega

/-- A cell of CTX in range leaves both bits possible. -/
theorem primOk_of_inRange {p : Prob} (hP : P.Wf) (h : P.InRange p) (b : Bool) : PrimOk (.bit p.toNat b) := by
  obtain ⟨min_pos, -, max_lt, -⟩ := hP
  obtain ⟨low, high⟩ := h
  unfold Config.probOne at max_lt
  exact ⟨by omega, by omega⟩

section AsWritten

variable (hw : P.AsWritten)
include hw

/-- `Renorm` redoes the refill that the encoder undid: the reader then holds the encoder's state for the primitives
after it (40_bitreader.md R122, R128). -/
theorem renorm_holds {prim : Prim} {rest : List Prim} (normal : Normal (encodePrims P rest).xb)
    (h : ReaderHolds P (encodePrims P (prim :: rest)) stop s) :
    ∃ t, renorm P (beforeRefill P prim (encodePrims P rest).xb) s = .ok () t ∧
      ReaderHolds P (encodePrims P rest) stop t ∧ t.cells = s.cells := by
  obtain ⟨low, high⟩ := normal
  obtain ⟨-, accB, ahead⟩ := h
  rw [encodePrims_xb] at accB
  rw [encodePrims_words] at ahead
  have cases := renorm_cases (P := P) (beforeRefill P prim (encodePrims P rest).xb) s
  rw [hw.renormLow] at cases
  cases he : emitsWord P prim (encodePrims P rest).xb with
  | false =>
    rw [he, if_neg Bool.false_ne_true] at ahead
    rw [beforeRefill_keeps he] at cases ⊢
    rcases cases with ⟨-, answer⟩ | ⟨refills, -⟩ | ⟨refills, -⟩
    · exact ⟨_, answer, ⟨accB, rfl, ahead.bytes, ahead.supply, ahead.stop_eq⟩, rfl⟩
    · omega
    · omega
  | true =>
    rw [he, if_pos rfl, hw.refillBits] at ahead
    rw [beforeRefill_emits hw he] at cases ⊢
    have fits : (encodePrims P rest).xb % 2 ^ 32 < 256 ^ P.refillBytes := by
      rw [refillBytes_asWritten hw]
      exact Nat.mod_lt _ (by decide)
    obtain ⟨word, enough, later⟩ := ahead.refill fits
    have joined : (((encodePrims P rest).xb / 2 ^ 32) <<< 32 ||| (encodePrims P rest).xb % 2 ^ 32) =
        (encodePrims P rest).xb := by
      rw [← Nat.shiftLeft_add_eq_or_of_lt (Nat.mod_lt _ (by decide)), Nat.shiftLeft_eq, Nat.div_add_mod']
    rw [hw.refillBits, word, joined] at cases
    rcases cases with ⟨keeps, -⟩ | ⟨-, -, answer⟩ | ⟨-, short, -⟩
    · omega
    · exact ⟨_, answer, ⟨accB, rfl, later _ _⟩, rfl⟩
    · omega

/-- `DecodeBit` answers the bit that the encoder undid (40_bitreader.md R123, R128). -/
theorem decodeBit_holds {j : Nat} {b : Bool} {rest : List Prim} (ok : PrimOk (.bit (cellAt P s j).toNat b))
    (normal : Normal (encodePrims P rest).xb)
    (h : ReaderHolds P (encodePrims P (.bit (cellAt P s j).toNat b :: rest)) stop s) :
    ∃ t, decodeBit P j s = .ok b t ∧ ReaderHolds P (encodePrims P rest) stop t ∧
      t.cells = (setCell P s j (adapt P (cellAt P s j) b)).cells := by
  obtain ⟨hp, hp'⟩ := ok
  have acc : s.accA.toNat =
      undoBit (cellAt P s j).toNat b (beforeRefill P (.bit (cellAt P s j).toNat b) (encodePrims P rest).xb) := by
    rw [h.accA, encodePrims_xa]
    exact toNat_ofNat_of_normal (normal_undoBit hw hp hp' b normal)
  obtain ⟨t, answer, holds, cells⟩ := renorm_holds hw normal (h.setCell j (adapt P (cellAt P s j) b))
  refine ⟨t, ?_, holds, cells⟩
  unfold decodeBit
  dsimp only
  rw [acc, bitOf_undoBit hp hp', bitRest_undoBit hp hp', answer]
  rfl

/-- `ReadBits` answers the bits that the encoder undid (40_bitreader.md R124, R128). -/
theorem readBits_holds {n v : Nat} {rest : List Prim} (ok : PrimOk (.raw n v))
    (normal : Normal (encodePrims P rest).xb) (h : ReaderHolds P (encodePrims P (.raw n v :: rest)) stop s) :
    ∃ t, readBits P n s = .ok v t ∧ ReaderHolds P (encodePrims P rest) stop t ∧ t.cells = s.cells := by
  obtain ⟨hn, hv⟩ := ok
  have acc : s.accA.toNat = undoRaw n v (beforeRefill P (.raw n v) (encodePrims P rest).xb) := by
    rw [h.accA, encodePrims_xa]
    exact toNat_ofNat_of_normal (normal_undoRaw hw hn hv normal)
  obtain ⟨t, answer, holds, cells⟩ := renorm_holds hw normal h
  refine ⟨t, ?_, holds, cells⟩
  unfold readBits
  dsimp only
  rw [acc, undoRaw_mod hv, undoRaw_shift hv, answer]
  rfl

end AsWritten

/-! ### Plans -/

/-- The values that a plan's cells will have depend on the cells alone. -/
theorem planPrims_congr (plan : List Plan) (h : t.cells = s.cells) : planPrims P plan t = planPrims P plan s := by
  induction plan generalizing s t with
  | nil => rfl
  | cons step plan ih =>
    cases step with
    | bit j b =>
      have cell : cellAt P t j = cellAt P s j := cellAt_congr h j
      have cells (v : Prob) : (setCell P t j v).cells = (setCell P s j v).cells := by simp only [setCell_eq, h]
      simp only [planPrims, cell, ih (cells _)]
    | raw n v => simp only [planPrims, ih h]

/-- The cells' clauses that an encoder needs, kept by every decision. -/
structure CellsOk (P : Params) (s : State) : Prop where
  wf : Cells.wf P s.cells = true
  range : CellsInRange P s

theorem CellsOk.congr (h : CellsOk P s) (hc : t.cells = s.cells) : CellsOk P t where
  wf := hc ▸ h.wf
  range j hj := by rw [cellAt_congr hc]; exact h.range j hj

theorem CellsOk.adapt (h : CellsOk P s) (hP : P.Wf) {j : Nat} (hj : j < Config.numCells) (p : Prob) (b : Bool) :
    CellsOk P (setCell P s j (adapt P p b)) :=
  have adapted : ReaderStep P (fun _ => True) s _ := .setCell hj trivial p b
  ⟨adapted.wf h.wf, adapted.range hP h.wf h.range⟩

/-- A plan of what the hardware can be made to decode is one that the encoder can undo. -/
theorem primOk_planPrims (hP : P.Wf) (hw : P.AsWritten) {plan : List Plan} (hplan : ∀ p ∈ plan, p.ok P)
    (hs : CellsOk P s) : ∀ prim ∈ planPrims P plan s, PrimOk prim := by
  induction plan generalizing s with
  | nil => exact nofun
  | cons step plan ih =>
    obtain ⟨ok, later⟩ := List.forall_mem_cons.mp hplan
    cases step with
    | bit j b =>
      exact List.forall_mem_cons.mpr ⟨primOk_of_inRange hP (hs.range j ok) b, ih later (hs.adapt hP ok _ b)⟩
    | raw n v =>
      obtain ⟨-, hn, hv⟩ := ok
      exact List.forall_mem_cons.mpr ⟨⟨hw.rawMax ▸ hn, hv⟩, ih later hs⟩

/-- A reader that holds the encoder's state for a plan decodes the plan, and ends behind its last refill word
(40_bitreader.md R128). -/
theorem decodes_of_holds (hP : P.Wf) (hw : P.AsWritten) {plan : List Plan} (hplan : ∀ p ∈ plan, p.ok P)
    (hs : CellsOk P s) (h : ReaderHolds P (encodePrims P (planPrims P plan s)) stop s) :
    ∃ t, Decodes P plan s t ∧ ReaderHolds P (encodePrims P []) stop t := by
  induction plan generalizing s with
  | nil => exact ⟨s, rfl, h⟩
  | cons step plan ih =>
    have prims_ok := primOk_planPrims hP hw hplan hs
    obtain ⟨ok, later⟩ := List.forall_mem_cons.mp hplan
    cases step with
    | bit j b =>
      obtain ⟨prim_ok, rest_ok⟩ := List.forall_mem_cons.mp prims_ok
      obtain ⟨u, answer, holds, cells⟩ := decodeBit_holds hw prim_ok (encodePrims_normal hw rest_ok).2 h
      rw [← planPrims_congr plan cells] at holds
      obtain ⟨t, decodes, done⟩ := ih later ((hs.adapt hP ok _ b).congr cells) holds
      exact ⟨t, ⟨u, answer, decodes⟩, done⟩
    | raw n v =>
      obtain ⟨prim_ok, rest_ok⟩ := List.forall_mem_cons.mp prims_ok
      obtain ⟨u, answer, holds, cells⟩ := readBits_holds hw prim_ok (encodePrims_normal hw rest_ok).2 h
      rw [← planPrims_congr plan cells] at holds
      obtain ⟨t, decodes, done⟩ := ih later (hs.congr cells) holds
      exact ⟨t, ⟨u, answer, decodes⟩, done⟩

/-- Decisions on different cells each meet the value their cell has at the start. -/
theorem planPrims_bits (l : List (Nat × Bool)) (hs : Cells.wf P s.cells = true)
    (hl : ∀ e ∈ l, e.1 < Config.numCells) (distinct : l.Pairwise fun e f => e.1 < f.1) :
    planPrims P (l.map fun e => .bit e.1 e.2) s = l.map fun e => .bit (cellAt P s e.1).toNat e.2 := by
  induction l generalizing s with
  | nil => rfl
  | cons e l ih =>
    obtain ⟨j, b⟩ := e
    obtain ⟨hj, hl⟩ := List.forall_mem_cons.mp hl
    obtain ⟨after, distinct⟩ := List.pairwise_cons.mp distinct
    simp only [List.map_cons, planPrims, ih (Cells.wf_setCell hs hj _) hl distinct]
    congr 1
    refine List.map_congr_left fun f hf => ?_
    rw [cellAt_setCell hs, if_neg (after f hf).ne']

end Sys2Proof.Machine
end

section
/-! PROOF. An instruction that `withFetchWord` places is the one that the next step runs: a command as the host's next
write to CMD, an operation as the selector that the reader yields next (30_encoding.md R92, R93). -/

namespace Sys2Proof.Machine

open Sys2Proof.Config (Params)
open Sys2Proof.Safety

variable {P : Params} {s t : State}

/-! ### The decisions of a selector -/

/-- The decisions of a tree at `base` whose bits are `bits`, from tree node `node` on. -/
def treeBits (base : Nat) : (node : Nat) → List Bool → List (Nat × Bool)
  | _, [] => []
  | node, b :: bits => (base + node, b) :: treeBits base (2 * node + b.toNat) bits

/-- The tree node that `bits` lead to from `node`. -/
def treeNode : (node : Nat) → List Bool → Nat
  | node, [] => node
  | node, b :: bits => treeNode (2 * node + b.toNat) bits

/-- The plan of a list of decisions. -/
def bitPlan (l : List (Nat × Bool)) : List Plan := l.map fun e => .bit e.1 e.2

/-- The bits of the type nibble, first decision first. -/
def typeBits (sel : BitVec 5) : List Bool := [sel.getLsbD 3, sel.getLsbD 2, sel.getLsbD 1, sel.getLsbD 0]

/-- The decisions of a selector word at the start of the window: L, and where L is 0 the type nibble (30_encoding.md
R93). -/
def selectorBits (d : DecState) (sel : BitVec 5) : List (Nat × Bool) :=
  (isLitCell d 0, sel.getLsbD 4) :: if sel.getLsbD 4 then [] else treeBits (typeBase d) 1 (typeBits sel)

/-- Where the decisions of a tree decode, so does the tree, to the node that they lead to (41_models.md R143). -/
theorem decodeTreeFrom_of_decodes {base node : Nat} {bits : List Bool}
    (h : Decodes P (bitPlan (treeBits base node bits)) s t) :
    decodeTreeFrom P base bits.length node s = .ok (treeNode node bits) t := by
  induction bits generalizing node s with
  | nil =>
    cases h
    rfl
  | cons b bits ih =>
    obtain ⟨u, first, later⟩ := h
    rw [List.length_cons, decodeTreeFrom, first, Res.ok_bind, ih later]
    rfl

/-- The type nibble of a selector word with L = 0 is the word. -/
theorem ofNat_typeBits {sel : BitVec 5} (h : sel.getLsbD 4 = false) :
    BitVec.ofNat 5 (treeNode 1 (typeBits sel) - 2 ^ 4) = sel := by
  revert sel; decide

/-- At the start of the window, where the decisions of a selector word decode, the word is fetched, with T taken as 0
where L is 1 (44_quantum_loop.md R203). -/
theorem fetchSelector_of_decodes {sel : BitVec 5} (start : posIndex P s = 0)
    (h : Decodes P (bitPlan (selectorBits s.dstate sel)) s t) :
    fetchSelector P s = .ok (if sel.getLsbD 4 then 0b10000 else sel) t := by
  obtain ⟨u, l, later⟩ := h
  unfold fetchSelector
  rw [start]
  dsimp only
  rw [l, Res.ok_bind]
  cases hl : sel.getLsbD 4 with
  | true =>
    rw [hl] at later
    cases later
    rfl
  | false =>
    rw [hl] at later
    have leaf := decodeTreeFrom_of_decodes (bits := typeBits sel) later
    have nibble : decodeNibble P (typeBase s.dstate) u = .ok (treeNode 1 (typeBits sel) - 2 ^ 4) t := by
      unfold decodeNibble decodeTree
      rw [show 4 = (typeBits sel).length from rfl, leaf]
      rfl
    dsimp only
    rw [if_neg Bool.false_ne_true, if_neg Bool.false_ne_true, nibble, Res.ok_bind, ofNat_typeBits hl]

/-- The decisions of a selector are on cells of CTX, each behind the one before. -/
theorem selectorBits_cells (d : DecState) (sel : BitVec 5) :
    (∀ e ∈ selectorBits d sel, e.1 < Config.numCells) ∧ (selectorBits d sel).Pairwise fun e f => e.1 < f.1 := by
  have hd := d.isLt
  have h3 := Bool.toNat_le (sel.getLsbD 3)
  have h2 := Bool.toNat_le (sel.getLsbD 2)
  have h1 := Bool.toNat_le (sel.getLsbD 1)
  unfold selectorBits
  cases sel.getLsbD 4 with
  | true =>
    refine ⟨List.forall_mem_singleton.mpr ?_, List.pairwise_singleton _ _⟩
    unfold isLitCell Config.numCells
    omega
  | false =>
    simp only [typeBits, treeBits, isLitCell, typeBase, Config.numCells, Bool.false_eq_true, if_false,
      List.forall_mem_cons, List.pairwise_cons, List.not_mem_nil, false_imp_iff, implies_true, List.Pairwise.nil,
      and_true]
    omega

/-- The encoder's primitives for a selector word are those of its decisions. -/
theorem selectorPrims_eq (hs : Cells.wf P s.cells = true) (sel : BitVec 5) :
    selectorPrims P s sel = planPrims P (bitPlan (selectorBits s.dstate sel)) s := by
  obtain ⟨inside, rising⟩ := selectorBits_cells s.dstate sel
  rw [bitPlan, planPrims_bits _ hs inside rising]
  unfold selectorPrims selectorBits
  cases sel.getLsbD 4 <;> rfl

theorem selectorPrims_length_le (sel : BitVec 5) : (selectorPrims P s sel).length ≤ 5 := by
  unfold selectorPrims
  cases sel.getLsbD 4 <;> simp

/-! ### The placed stream -/

/-- Dropping entries keeps a store canonical. -/
theorem sparseWfFrom_filter {w : Nat} {dflt : Nat → BitVec w} {bound lo : Nat} {m : List (Nat × BitVec w)}
    (q : Nat × BitVec w → Bool) (hm : sparseWfFrom dflt bound lo m = true) :
    sparseWfFrom dflt bound lo (m.filter q) = true := by
  induction m generalizing lo with
  | nil => rfl
  | cons e m ih =>
    obtain ⟨k, v⟩ := e
    simp only [sparseWfFrom, Bool.and_eq_true, decide_eq_true_eq] at hm
    obtain ⟨⟨⟨from_lo, below⟩, listed⟩, later⟩ := hm
    rw [List.filter_cons]
    split
    · simp only [sparseWfFrom, Bool.and_eq_true, decide_eq_true_eq]
      exact ⟨⟨⟨from_lo, below⟩, listed⟩, ih later⟩
    · exact ih (sparseWfFrom_mono (by omega) later)

/-- An address that no stored byte reaches reads as before. -/
theorem read_storeBytes_outside {m : Memory} (hm : Memory.wf m = true) {addr a : Addr} {l : List Byte}
    (ha : ∀ i, i < l.length → a ≠ addr + BitVec.ofNat 64 i) :
    Memory.read (storeBytes m addr l) a = Memory.read m a := by
  induction l generalizing m addr with
  | nil => rfl
  | cons b l ih =>
    rw [storeBytes, ih (Memory.wf_write hm addr b), Memory.read_write hm, if_neg (by simpa using ha 0 (by simp))]
    intro i hi
    have behind := ha (i + 1) (by simpa using hi)
    rwa [Nat.add_comm, BitVec.ofNat_add, ← BitVec.add_assoc] at behind

/-- The stored bytes, read back. -/
theorem srcBytes_storeBytes {m : Memory} (hm : Memory.wf m = true) {addr : Addr} {l : List Byte}
    (hl : l.length ≤ 2 ^ 64) (hs : s.src = storeBytes m addr l) : srcBytes s addr l.length = l := by
  induction l generalizing m addr with
  | nil => rfl
  | cons b l ih =>
    rw [List.length_cons] at hl
    have first : Memory.read (storeBytes (Memory.write m addr b) (addr + 1) l) addr = b := by
      rw [read_storeBytes_outside (Memory.wf_write hm addr b), Memory.read_write hm, if_pos rfl]
      intro i hi e
      have := congrArg BitVec.toNat e
      bv_omega
    have later : srcBytes s (addr + BitVec.ofNat 64 1) l.length = l := ih (Memory.wf_write hm addr b) (by omega) hs
    have one : srcBytes s addr 1 = [b] := by
      rw [← first]
      simp [srcBytes, srcByte, hs, storeBytes]
    rw [List.length_cons, Nat.add_comm, srcBytes_add, later, one]
    rfl

/-- The words of a stream take REFILL_BITS / 8 bytes each. -/
theorem flatMap_wireBytes_length (big : Bool) (n : Nat) (ws : List Nat) :
    (ws.flatMap (wireBytes big n)).length = n * ws.length := by
  simp [List.length_flatMap, wireBytes_length, Nat.mul_comm]

theorem encodeStream_length (prims : List Prim) :
    (encodeStream P prims).length = 2 * P.headerWord + P.refillBytes * (encodePrims P prims).words.length := by
  unfold encodeStream
  simp only [List.length_append, wireBytes_length, flatMap_wireBytes_length]
  omega

/-- Behind the header of a placed stream stand its refill words. -/
theorem srcBytes_behind_header {a : Addr} {prims : List Prim}
    (h : srcBytes s a (encodeStream P prims).length = encodeStream P prims) :
    srcBytes s (a + BitVec.ofNat 64 (2 * P.headerWord)) (P.refillBytes * (encodePrims P prims).words.length) =
      (encodePrims P prims).words.flatMap (wireBytes P.wireBigEndian P.refillBytes) := by
  rw [encodeStream_length, srcBytes_add] at h
  refine (List.append_inj h ?_).2
  rw [srcBytes_length, List.length_append, wireBytes_length, wireBytes_length]
  omega

/-! ### The placed state -/

theorem readWord_command {w : Nat} (h : w < 2 ^ 32) : readWord 32 w = .ok (.command (BitVec.ofNat 64 w)) := if_pos h

theorem readWord_selector {w : Nat} (h : w < 2 ^ 5) : readWord 8 w = .ok (.selector (BitVec.ofNat 5 w)) := if_pos h

theorem withFetchWord_command (s : State) (w : BitVec 32) :
    s.withFetchWord 32 w.toNat = withCommand s (w.setWidth 64) := by
  unfold State.withFetchWord
  rw [readWord_command w.isLt, BitVec.ofNat_toNat]

theorem withFetchWord_selector (s : State) (sel : BitVec 5) :
    s.withFetchWord 8 sel.toNat = withSelector Config.params s sel := by
  unfold State.withFetchWord
  rw [readWord_selector sel.isLt, BitVec.ofNat_toNat, BitVec.setWidth_eq]

/-- The address behind the last refill word of a placed stream. -/
def placedStop (P : Params) (s : State) (sel : BitVec 5) : Addr :=
  BitVec.ofNat 64 (encodeStream P (selectorPrims P s sel)).length

section Placed

variable (sel : BitVec 5)

/-- A placed operation is the loop's next move, and has room to write. -/
theorem loopTurn_withSelector : LoopTurn (withSelector P s sel) := ⟨rfl, rfl⟩

/-- No event is pending in it, so the loop's move starts from the placed state itself. -/
theorem tickEvents_withSelector :
    (withSelector P s sel).setScript (tickEvents (withSelector P s sel).script) = withSelector P s sel := rfl

theorem posIndex_withSelector : posIndex P (withSelector P s sel) = 0 := by
  change (0 - 0 : Addr).toNat % 2 ^ P.posBits = 0
  exact Nat.zero_mod _

variable (hw : P.AsWritten)
include hw

theorem room_withSelector : (withSelector P s sel).wp < (withSelector P s sel).argDstEnd := by
  change (0 : Addr) < BitVec.ofNat 64 P.maxLen
  rw [maxLen_asWritten hw]
  decide

omit hw in
theorem placedWords_length_le : (encodePrims P (selectorPrims P s sel)).words.length ≤ 5 :=
  (encodePrims_words_length_le _).trans (selectorPrims_length_le sel)

/-- A placed stream is its header and its refill words. -/
theorem placedStream_length : (encodeStream P (selectorPrims P s sel)).length =
    16 + 4 * (encodePrims P (selectorPrims P s sel)).words.length := by
  rw [encodeStream_length, headerWord_asWritten hw, refillBytes_asWritten hw]

theorem tailBytes_asWritten : tailBytes P = 132 := by rw [tailBytes, refillBytes_asWritten hw]

/-- The source that a placed operation declares ends 33 refill words behind its stream. -/
theorem lim_withSelector : (withSelector P s sel).lim =
    BitVec.ofNat 64 (16 + 4 * (encodePrims P (selectorPrims P s sel)).words.length + 132) := by
  rw [← placedStream_length sel hw, ← tailBytes_asWritten hw]
  rfl

theorem cur_withSelector : (withSelector P s sel).cur = BitVec.ofNat 64 16 := by
  rw [← hw.headerBytes]
  rfl

/-- The reader of a placed operation holds the encoder's state for its selector. -/
theorem readerHolds_withSelector (hsrc : Memory.wf s.src = true) :
    ReaderHolds P (encodePrims P (selectorPrims P s sel)) (placedStop P s sel) (withSelector P s sel) := by
  have few := placedWords_length_le (P := P) (s := s) sel
  have length := placedStream_length (s := s) sel hw
  have stream : srcBytes (withSelector P s sel) 0 (encodeStream P (selectorPrims P s sel)).length =
      encodeStream P (selectorPrims P s sel) := srcBytes_storeBytes (sparseWfFrom_filter _ hsrc) (by omega) rfl
  have words := srcBytes_behind_header stream
  rw [headerWord_asWritten hw, show (0 : Addr) + BitVec.ofNat 64 (2 * 8) = BitVec.ofNat 64 16 from rfl,
    ← cur_withSelector sel hw] at words
  refine ⟨rfl, rfl, words, ⟨?_, ?_⟩, ?_⟩
  · rw [cur_withSelector sel hw, lim_withSelector sel hw]
    bv_omega
  · rw [bytesRemaining, cur_withSelector sel hw, lim_withSelector sel hw, refillBytes_asWritten hw]
    bv_omega
  · rw [cur_withSelector sel hw, placedStop, length, refillBytes_asWritten hw, BitVec.ofNat_add]

/-- Behind the refill words of a placed stream the source has bytes for 33 more. -/
theorem supply_behind_placed (hcur : t.cur = placedStop P s sel) (hlim : t.lim = (withSelector P s sel).lim) :
    Supply P 33 t := by
  have few := placedWords_length_le (P := P) (s := s) sel
  rw [placedStop, placedStream_length sel hw] at hcur
  rw [lim_withSelector sel hw] at hlim
  unfold Supply bytesRemaining
  rw [refillBytes_asWritten hw, hcur, hlim]
  constructor <;> bv_omega

/-- The selector that is fetched from a placed operation, and the state it leaves. -/
theorem fetchSelector_withSelector (hP : P.Wf) (hsrc : Memory.wf s.src = true) (hs : CellsOk P s) :
    ∃ t, fetchSelector P (withSelector P s sel) = .ok (if sel.getLsbD 4 then 0b10000 else sel) t ∧
      ReaderFrame (withSelector P s sel) t ∧ Supply P 33 t := by
  have cells : (withSelector P s sel).cells = s.cells := rfl
  have plan_ok : ∀ p ∈ bitPlan (selectorBits s.dstate sel), p.ok P :=
    List.forall_mem_map.mpr (selectorBits_cells s.dstate sel).1
  have holds := readerHolds_withSelector (s := s) sel hw hsrc
  rw [selectorPrims_eq hs.wf, ← planPrims_congr _ cells] at holds
  obtain ⟨t, decodes, done⟩ := decodes_of_holds hP hw plan_ok (hs.congr cells) holds
  have fetched := fetchSelector_of_decodes (posIndex_withSelector sel) decodes
  obtain ⟨-, symbols⟩ := (fetchSelector_reads hw _).of_ok fetched
  have at_stop : t.cur = placedStop P s sel := by simpa [encodePrims] using done.ahead.stop_eq
  exact ⟨t, fetched, symbols.frame, supply_behind_placed sel hw at_stop symbols.lim_eq⟩

end Placed

/-- A literal's selector word decodes to LIT whatever its type bits (30_encoding.md R93). -/
theorem decode_fetched (sel : BitVec 5) :
    decode (.selector (if sel.getLsbD 4 then 0b10000 else sel)) = decode (.selector sel) := by
  revert sel; decide

end Sys2Proof.Machine

namespace Sys2Proof.Proofs

open Sys2Proof.Machine Sys2Proof.Safety

/-- Settles O8: a placed command is the host's next write to CMD; the selector of a placed operation is fetched from
the encoder's stream for it. -/
theorem placedInstructionIsFetched : Obligations.PlacedInstructionIsFetched := by
  unfold Obligations.PlacedInstructionIsFetched
  refine ⟨fun s w => ?_, fun s sel src_wf cells_wf cells => ?_⟩
  · rw [withFetchWord_command]
    exact step_of_nextMove_instr (nextMove_command (s := withCommand s (w.setWidth 64)) rfl rfl rfl)
  · obtain ⟨t, fetched, frame, supply⟩ :=
      fetchSelector_withSelector sel params_asWritten params_wf src_wf ⟨cells_wf, cells⟩
    have room := room_withSelector (s := s) sel params_asWritten
    rw [withFetchWord_selector, ← decode_fetched]
    rw [← tickEvents_withSelector] at fetched
    refine ⟨t, step_fetched (loopTurn_withSelector sel) room fetched, frame, ?_, ?_, supply⟩
    · rw [frame]; rfl
    · rw [frame]; exact room

end Sys2Proof.Proofs
end

section
/-! PROOF. The primitives of the reader, one at a time (40_bitreader.md R121 to R124, R126). -/

namespace Sys2Proof.Machine

open Sys2Proof.Config (Params)

variable {P : Params} {s t : State} {x : Nat}

/-! ### Source words -/

theorem bigEndianValue_lt (l : List Byte) : bigEndianValue l < 256 ^ l.length := by
  induction l using List.reverseRecOn with
  | nil => exact Nat.one_pos
  | append_singleton l b ih =>
    have last : bigEndianValue [b] < 256 := by simpa [bigEndianValue] using b.isLt
    rw [bigEndianValue_append, List.length_append, List.length_singleton, Nat.pow_add, Nat.pow_one]
    omega

/-- A source word is below the number of values that its bytes can take. -/
theorem srcWord_lt (P : Params) (s : State) (a : Addr) (n : Nat) : srcWord P s a n < 256 ^ n := by
  unfold srcWord
  cases P.wireBigEndian with
  | true => simpa using bigEndianValue_lt (srcBytes s a n)
  | false => simpa using bigEndianValue_lt (srcBytes s a n).reverse

/-- A refill word fits below the bits that a refill shifts in, also where REFILL_BITS is no number of whole bytes. -/
theorem refillWord_lt (P : Params) (s : State) (a : Addr) : srcWord P s a P.refillBytes < 2 ^ P.refillBits :=
  calc srcWord P s a P.refillBytes
    _ < 256 ^ P.refillBytes := srcWord_lt P s a _
    _ = 2 ^ (8 * (P.refillBits / 8)) := by rw [Nat.pow_mul, Params.refillBytes]
    _ ≤ 2 ^ P.refillBits := Nat.pow_le_pow_right Nat.two_pos (Nat.mul_div_le _ _)

/-! ### Renorm (40_bitreader.md R122) -/

theorem renorm_of_high (high : P.renormLow ≤ x) :
    renorm P x s = .ok () (s.setAcc s.accB (BitVec.ofNat 64 x)) := if_neg (Nat.not_lt.mpr high)

theorem renorm_of_low (low : x < P.renormLow) (enough : P.refillBytes ≤ (bytesRemaining s).toNat) :
    renorm P x s = .ok () ((s.setCur (s.cur + BitVec.ofNat 64 P.refillBytes)).setAcc s.accB
      (BitVec.ofNat 64 (x * 2 ^ P.refillBits + srcWord P s s.cur P.refillBytes))) := by
  rw [← Nat.shiftLeft_eq, Nat.shiftLeft_add_eq_or_of_lt (refillWord_lt P s s.cur)]
  exact (if_pos low).trans (if_neg (Nat.not_lt.mpr enough))

theorem renorm_of_short (low : x < P.renormLow) (short : (bytesRemaining s).toNat < P.refillBytes) :
    renorm P x s = .raised .truncated s := (if_pos low).trans (if_pos short)

/-- `Renorm` touches no cell. -/
theorem renorm_cells (h : renorm P x s = .ok () t) : t.cells = s.cells := by
  rcases renorm_cases (P := P) x s with ⟨-, answer⟩ | ⟨-, -, answer⟩ | ⟨-, -, answer⟩ <;> rw [answer] at h <;> cases h
  · rfl
  · rfl

/-- `Renorm` raises `Truncated` only, and before it has changed anything. -/
theorem renorm_raised {c : Cause} (h : renorm P x s = .raised c t) : c = .truncated ∧ t = s := by
  rcases renorm_cases (P := P) x s with ⟨-, answer⟩ | ⟨-, -, answer⟩ | ⟨-, -, answer⟩ <;> rw [answer] at h <;> cases h
  exact ⟨rfl, rfl⟩

/-- With the numbers of the rule a refilled accumulator is exact and below 2^63. -/
theorem refilled_toNat (P : Params) (s : State) (a : Addr) (low : x < 2 ^ 31) :
    (BitVec.ofNat 64 (x * 2 ^ 32 + srcWord P s a 4)).toNat = x * 2 ^ 32 + srcWord P s a 4 ∧
      x * 2 ^ 32 + srcWord P s a 4 < 2 ^ 63 := by
  have word := srcWord_lt P s a 4
  rw [BitVec.toNat_ofNat]
  omega

/-- `Renorm` of a value that is not 0 leaves a normal accumulator behind the one it rotates in (40_bitreader.md R126
c). -/
theorem renorm_normal (hw : P.AsWritten) (pos : 0 < x) (high : x < 2 ^ 63) (h : renorm P x s = .ok () t) :
    t.accA = s.accB ∧ Normal t.accB.toNat := by
  rcases Nat.lt_or_ge x P.renormLow with low | keeps
  · rcases Nat.lt_or_ge (bytesRemaining s).toNat P.refillBytes with short | enough
    · rw [renorm_of_short low short] at h
      cases h
    · rw [renorm_of_low low enough] at h
      cases h
      rw [hw.renormLow] at low
      obtain ⟨exact_value, below⟩ := refilled_toNat P s s.cur low
      rw [State.setAcc_accA, State.setAcc_accB, hw.refillBits, refillBytes_asWritten hw, exact_value]
      exact ⟨rfl, by omega, below⟩
  · rw [renorm_of_high keeps] at h
    cases h
    rw [hw.renormLow] at keeps
    have normal : Normal x := ⟨keeps, high⟩
    rw [State.setAcc_accA, State.setAcc_accB, toNat_ofNat_of_normal normal]
    exact ⟨rfl, normal⟩

/-! ### DecodeBit (40_bitreader.md R123) -/

/-- The state in which `DecodeBit` calls `Renorm`: the cell is adapted by the bit it took. -/
def adaptedState (P : Params) (j : Nat) (s : State) : State :=
  setCell P s j (adapt P (cellAt P s j) (bitOf s.accA.toNat (cellAt P s j).toNat))

theorem decodeBit_eq_ok {j : Nat} {b : Bool} :
    decodeBit P j s = .ok b t ↔ b = bitOf s.accA.toNat (cellAt P s j).toNat ∧
      renorm P (bitRest s.accA.toNat (cellAt P s j).toNat) (adaptedState P j s) = .ok () t := by
  unfold decodeBit
  rw [Res.bind_eq_ok]
  constructor
  · rintro ⟨_, _, answer, e⟩
    cases e
    exact ⟨rfl, answer⟩
  · rintro ⟨rfl, answer⟩
    exact ⟨_, _, answer, rfl⟩

/-- Where `Renorm` raises, so does `DecodeBit`, with the cell adapted. -/
theorem decodeBit_of_raised {j : Nat} {c : Cause}
    (h : renorm P (bitRest s.accA.toNat (cellAt P s j).toNat) (adaptedState P j s) = .raised c t) :
    decodeBit P j s = .raised .truncated (adaptedState P j s) := by
  obtain ⟨rfl, rfl⟩ := renorm_raised h
  exact Res.bind_eq_raised.mpr (.inl h)

/-- A decision does not raise the accumulator's value (40_bitreader.md R126 b). -/
theorem bitRest_le {p : Nat} (hp : p ≤ 2 ^ 15) (x : Nat) : bitRest x p ≤ x := by
  have whole := Nat.div_add_mod x (2 ^ 15)
  have freq_mul_le {f : Nat} (hf : f ≤ 2 ^ 15) : f * (x / 2 ^ 15) ≤ 2 ^ 15 * (x / 2 ^ 15) := Nat.mul_le_mul_right _ hf
  rw [bitRest_eq]
  split
  · have one := freq_mul_le (Nat.sub_le 0x8000 p)
    omega
  · have zero := freq_mul_le hp
    omega

/-- What a decision leaves of an accumulator of at least 2^15 is not 0. -/
theorem bitRest_pos {p : Nat} (hp : 1 ≤ p) (hp' : p < 2 ^ 15) (hx : 2 ^ 15 ≤ x) : 0 < bitRest x p := by
  have quotient : 0 < x / 2 ^ 15 := Nat.div_pos hx (by decide)
  rw [bitRest_eq]
  split
  · exact Nat.add_pos_left (Nat.mul_pos (Nat.sub_pos_of_lt hp') quotient) _
  · exact Nat.add_pos_left (Nat.mul_pos hp quotient) _

/-! ### ReadBits (40_bitreader.md R124) -/

theorem readBits_eq_ok {n v : Nat} :
    readBits P n s = .ok v t ↔ v = s.accA.toNat % 2 ^ n ∧ renorm P (s.accA.toNat / 2 ^ n) s = .ok () t := by
  unfold readBits
  rw [Res.bind_eq_ok, ← Nat.shiftRight_eq_div_pow]
  constructor
  · rintro ⟨_, _, answer, e⟩
    cases e
    exact ⟨rfl, answer⟩
  · rintro ⟨rfl, answer⟩
    exact ⟨_, _, answer, rfl⟩

/-- Where `Renorm` raises, so does `ReadBits`, with nothing changed. -/
theorem readBits_of_raised {n : Nat} {c : Cause} (h : renorm P (s.accA.toNat / 2 ^ n) s = .raised c t) :
    readBits P n s = .raised .truncated s := by
  obtain ⟨rfl, rfl⟩ := renorm_raised h
  rw [← Nat.shiftRight_eq_div_pow] at h
  exact Res.bind_eq_raised.mpr (.inl h)

/-! ### The stream encoder's header (30_encoding.md R90) -/

/-- In front of the refill words of a placed stream stand the encoder's two states. -/
theorem srcBytes_header {a : Addr} {prims : List Prim}
    (h : srcBytes s a (encodeStream P prims).length = encodeStream P prims) :
    srcBytes s a P.headerWord = wireBytes P.wireBigEndian P.headerWord (encodePrims P prims).xa ∧
    srcBytes s (a + BitVec.ofNat 64 P.headerWord) P.headerWord =
      wireBytes P.wireBigEndian P.headerWord (encodePrims P prims).xb := by
  rw [encodeStream_length, srcBytes_add, Nat.two_mul, srcBytes_add] at h
  have header := (List.append_inj h (by simp [wireBytes_length])).1
  exact List.append_inj header (by simp [wireBytes_length])

/-- `ReaderInit` on a placed stream that is declared to its end leaves a reader that holds the encoder's state
(40_bitreader.md R121, R128). -/
theorem readerInit_holds (hw : P.AsWritten) {prims : List Prim} (ok : ∀ prim ∈ prims, PrimOk prim)
    (inside : s.argSrc.toNat + (encodeStream P prims).length < 2 ^ 64)
    (declared : s.argSrcEnd = s.argSrc + BitVec.ofNat 64 (encodeStream P prims).length)
    (stream : srcBytes s s.argSrc (encodeStream P prims).length = encodeStream P prims) :
    ∃ t, readerInit P s = .ok () t ∧ ReaderHolds P (encodePrims P prims) s.argSrcEnd t ∧ t.cells = s.cells := by
  obtain ⟨⟨-, xa_lt⟩, -, xb_lt⟩ := encodePrims_normal hw ok
  obtain ⟨header_a, header_b⟩ := srcBytes_header stream
  have words := srcBytes_behind_header stream
  have refill := refillBytes_asWritten hw
  rw [headerWord_asWritten hw] at header_a header_b words
  rw [encodeStream_length, headerWord_asWritten hw, refill] at inside declared
  rcases readerInit_cases (P := P) s with ⟨-, answer⟩ | ⟨short, -⟩
  · rw [hw.headerBytes, headerWord_asWritten hw, srcWord_of_wireBytes header_a (by omega),
      srcWord_of_wireBytes header_b (by omega)] at answer
    refine ⟨_, answer, ⟨rfl, rfl, words, ⟨?_, ?_⟩, ?_⟩, rfl⟩
    · simp only [State.setCur_cur, State.setCur_lim, State.setAcc_lim, State.setReader_lim]
      bv_omega
    · simp only [bytesRemaining, State.setCur_cur, State.setCur_lim, State.setAcc_lim, State.setReader_lim, refill]
      bv_omega
    · simp only [State.setCur_cur, refill]
      bv_omega
  · rw [hw.headerBytes] at short
    bv_omega

end Sys2Proof.Machine

namespace Sys2Proof.Proofs

open Sys2Proof.Machine Sys2Proof.Safety

/-- Settles O7: `ReaderInit` takes up the encoder's state, and a reader that holds it decodes the plan. -/
theorem encodedStreamIsReadBack : Obligations.EncodedStreamIsReadBack := by
  unfold Obligations.EncodedStreamIsReadBack
  intro P s plan hP hw cells_wf range plan_ok stream inside declared placed
  have cells : CellsOk P s := ⟨cells_wf, range⟩
  have prims_ok := primOk_planPrims hP hw plan_ok cells
  obtain ⟨normal_a, normal_b⟩ := encodePrims_normal hw prims_ok
  obtain ⟨t, answer, holds, cells_eq⟩ := readerInit_holds hw prims_ok inside declared placed
  rw [← toNat_ofNat_of_normal normal_a, ← holds.accA] at normal_a
  rw [← toNat_ofNat_of_normal normal_b, ← holds.accB] at normal_b
  rw [← planPrims_congr plan cells_eq] at holds
  obtain ⟨u, decodes, done⟩ := decodes_of_holds hP hw plan_ok (cells.congr cells_eq) holds
  have at_end : u.cur = s.argSrcEnd := by simpa [encodePrims] using done.ahead.stop_eq
  exact ⟨t, u, answer, decodes, at_end, normal_a.1, normal_a.2, normal_b.1, normal_b.2⟩

/-- Settles O12: each case of the rule is an equation for `Renorm`. -/
theorem renormRefillsBelowTwoToThe31 : Obligations.RenormRefillsBelowTwoToThe31 := by
  unfold Obligations.RenormRefillsBelowTwoToThe31
  intro P s x x_lt
  refine ⟨fun high => ⟨_, renorm_of_high high, rfl, ?_⟩,
    fun low enough => ⟨_, renorm_of_low low enough, rfl, rfl, fun hw => ?_⟩, renorm_of_short,
    fun hw => ⟨hw.renormLow, refillBytes_asWritten hw⟩⟩
  · exact (BitVec.toNat_ofNat x 64).trans (Nat.mod_eq_of_lt x_lt)
  · rw [State.setAcc_accB, hw.refillBits, refillBytes_asWritten hw]
    obtain ⟨exact_value, below⟩ := refilled_toNat P s s.cur (hw.renormLow ▸ low)
    exact ⟨exact_value, exact_value.trans_lt below⟩

/-- Settles O14: `DecodeBit` is `Renorm` of the rest in the state whose cell is adapted. -/
theorem decodeBitComparesAndAdapts : Obligations.DecodeBitComparesAndAdapts := by
  unfold Obligations.DecodeBitComparesAndAdapts
  intro P s j hP cells_wf range hj x p bit x2 s'
  have rest : x2 = bitRest x p := by simp only [x2, bit, bitRest_eq, decide_eq_true_eq]
  have p_le : p ≤ 2 ^ 15 := by
    obtain ⟨-, -, max_le, -⟩ := hP
    exact ((range j hj).2.trans max_le).trans (by decide)
  rw [rest]
  exact ⟨cellAt_setCell cells_wf j _, bitRest_le p_le x,
    fun t answer => ⟨decodeBit_eq_ok.mpr ⟨rfl, answer⟩, renorm_cells answer⟩, fun c t => decodeBit_of_raised⟩

/-- Settles O16: what a primitive hands to `Renorm` is neither 0 nor more than the accumulator was. -/
theorem accumulatorsStayNormal : Obligations.AccumulatorsStayNormal := by
  unfold Obligations.AccumulatorsStayNormal
  refine ⟨fun x p _ p_le _ => bitRest_le (by omega) x, fun P s t j b hw p_pos p_le accA accB answer => ?_,
    fun P s t n v hw _ n_le accA accB answer => ?_⟩
  · obtain ⟨-, renormed⟩ := decodeBit_eq_ok.mp answer
    have pos := bitRest_pos p_pos (by omega) (show 2 ^ 15 ≤ s.accA.toNat by omega)
    have below := (bitRest_le (p_le.trans (by decide)) s.accA.toNat).trans_lt accA.2
    obtain ⟨rotated, normal⟩ := renorm_normal hw pos below renormed
    exact ⟨rotated ▸ accB, normal⟩
  · obtain ⟨-, renormed⟩ := readBits_eq_ok.mp answer
    have bits_le : 2 ^ n ≤ 2 ^ 16 := Nat.pow_le_pow_right Nat.two_pos (hw.rawMax ▸ n_le)
    have pos : 0 < s.accA.toNat / 2 ^ n := Nat.div_pos (by omega) (Nat.two_pow_pos n)
    have below := (Nat.div_le_self s.accA.toNat (2 ^ n)).trans_lt accA.2
    obtain ⟨rotated, normal⟩ := renorm_normal hw pos below renormed
    exact ⟨rotated ▸ accB, normal⟩

/-- Settles O13: the two ways `ReaderInit` can end. -/
theorem readerInitLoadsTheHeader : Obligations.ReaderInitLoadsTheHeader := by
  unfold Obligations.ReaderInitLoadsTheHeader
  refine fun P s => ⟨fun enough => ?_, fun short => ?_, fun hw => hw.headerBytes⟩
  · rcases readerInit_cases (P := P) s with ⟨-, answer⟩ | ⟨short, -⟩
    · refine ⟨_, answer, rfl, rfl, rfl, fun hw => ?_⟩
      have exact_word (a : Addr) : (BitVec.ofNat 64 (srcWord P s a 8)).toNat = srcWord P s a 8 :=
        (BitVec.toNat_ofNat _ 64).trans (Nat.mod_eq_of_lt (srcWord_lt P s a 8))
      simp only [State.setCur_accA, State.setCur_accB, State.setAcc_accA, State.setAcc_accB, headerWord_asWritten hw]
      exact ⟨exact_word _, exact_word _⟩
    · exact absurd short (Nat.not_lt.mpr enough)
  · rcases readerInit_cases (P := P) s with ⟨enough, -⟩ | ⟨-, answer⟩
    · exact absurd short (Nat.not_lt.mpr enough)
    · exact answer

/-- Settles O15: `ReadBits` is `Renorm` of the bits it leaves. -/
theorem readBitsTakesTheLowBits : Obligations.ReadBitsTakesTheLowBits := by
  unfold Obligations.ReadBitsTakesTheLowBits
  exact fun P s n _ _ =>
    ⟨fun t answer => ⟨readBits_eq_ok.mpr ⟨rfl, answer⟩, renorm_cells answer⟩, fun c t => readBits_of_raised⟩

end Sys2Proof.Proofs
end

section
/-! PROOF. The models of the context (41_models.md): `Adapt` (R141), the tree decode (R143), INIT (R147). -/

namespace Sys2Proof.Machine

open Sys2Proof.Config (Params)

variable {P : Params} {s t u : State}

/-! ### Adapt (41_models.md R141) -/

/-- Clamping does not bring a value below any `p` that it was not below, as long as `p` is not above the range. -/
theorem le_clamp {p v lo hi : Nat} (hv : p ≤ v) (hp : p ≤ hi) : p ≤ clamp v lo hi :=
  le_min (hv.trans (le_max_left v lo)) hp

/-- Clamping does not bring a value above any `p` that it was not above, as long as `p` is not below the range. -/
theorem clamp_le {p v lo hi : Nat} (hv : v ≤ p) (hp : lo ≤ p) : clamp v lo hi ≤ p :=
  (min_le_left _ _).trans (max_le hv hp)

/-- A decided 0 moves the cell up by its distance to PROB_ONE, scaled down by RATE_SHIFT. -/
theorem adapt_false_toNat (hP : P.Wf) (p : Prob) :
    (adapt P p false).toNat = clamp (p.toNat + (0x8000 - p.toNat) / 2 ^ P.rateShift) P.pMin P.pMax := by
  rw [← Nat.shiftRight_eq_div_pow]
  exact adapt_toNat hP p false

/-- A decided 1 moves the cell down by its value, scaled down by RATE_SHIFT. -/
theorem adapt_true_toNat (hP : P.Wf) (p : Prob) :
    (adapt P p true).toNat = clamp (p.toNat - p.toNat / 2 ^ P.rateShift) P.pMin P.pMax := by
  rw [← Nat.shiftRight_eq_div_pow]
  exact adapt_toNat hP p true

/-- With the default record the values from which neither bit leads out: a step is a 32nd, rounded down. -/
theorem adapt_params_stays (p : Prob) (b : Bool) (low : 0x1F ≤ p.toNat) (high : p.toNat ≤ 0x7FE1) :
    0x1F ≤ (adapt Config.params p b).toNat ∧ (adapt Config.params p b).toNat ≤ 0x7FE1 := by
  have rate : 2 ^ Config.params.rateShift = 32 := rfl
  have lowest : Config.params.pMin = 1 := rfl
  have highest : Config.params.pMax = 0x7FFF := rfl
  cases b with
  | false =>
    rw [adapt_false_toNat params_wf, rate, lowest, highest]
    exact ⟨le_clamp (by omega) (by omega), clamp_le (by omega) (by omega)⟩
  | true =>
    rw [adapt_true_toNat params_wf, rate, lowest, highest]
    exact ⟨le_clamp (by omega) (by omega), clamp_le (by omega) (by omega)⟩

/-! ### Tree decode (41_models.md R143) -/

/-- The cells after a decision that was answered: the decided one is adapted by the answer (40_bitreader.md R123). -/
theorem cellAt_of_decodeBit (wf : Cells.wf P s.cells = true) {j : Nat} {b : Bool} (h : decodeBit P j s = .ok b t)
    (i : Nat) : cellAt P t i = if i = j then adapt P (cellAt P s j) b else cellAt P s i := by
  obtain ⟨rfl, renormed⟩ := decodeBit_eq_ok.mp h
  rw [cellAt_congr (renorm_cells renormed) i]
  exact cellAt_setCell wf j _ i

/-- From `s` to `t` the `depth` tree nodes above `leaf` were decided, each by the bit of `leaf` that leads on from it:
bit `k` is decided at node `leaf / 2^(k + 1)` (10_state.md R38). -/
structure PathAdapted (P : Params) (base depth leaf : Nat) (s t : State) : Prop where
  onPath : ∀ k < depth, cellAt P t (base + leaf / 2 ^ (k + 1)) =
    adapt P (cellAt P s (base + leaf / 2 ^ (k + 1))) (leaf.testBit k)
  offPath : ∀ j, (∀ k < depth, j ≠ base + leaf / 2 ^ (k + 1)) → cellAt P t j = cellAt P s j

/-- A decision at `node`, then the path from the node that it leads to: `node` is above that path, so its cell is
adapted once. -/
theorem PathAdapted.cons {base depth leaf node : Nat} {b : Bool} (pos : 0 < node)
    (top : leaf / 2 ^ depth = 2 * node + b.toNat)
    (first : ∀ i, cellAt P u i = if i = base + node then adapt P (cellAt P s (base + node)) b else cellAt P s i)
    (later : PathAdapted P base depth leaf u t) : PathAdapted P base (depth + 1) leaf s t := by
  have bit_le := Bool.toNat_le b
  have parent : leaf / 2 ^ (depth + 1) = node := by
    rw [Nat.pow_succ, ← Nat.div_div_eq_div_mul, top]
    omega
  have bit : leaf.testBit depth = b := by
    rw [Nat.testBit_eq_decide_div_mod_eq, top]
    cases b with
    | false => simp
    | true => simp
  have below : ∀ k < depth, node < leaf / 2 ^ (k + 1) := fun k hk =>
    calc node
      _ < 2 * node + b.toNat := by omega
      _ = leaf / 2 ^ depth := top.symm
      _ ≤ leaf / 2 ^ (k + 1) := Nat.div_le_div_left (Nat.pow_le_pow_right Nat.two_pos hk) (Nat.two_pow_pos _)
  constructor
  case onPath =>
    intro k hk
    rcases Nat.lt_succ_iff_lt_or_eq.mp hk with hk | rfl
    · rw [later.onPath k hk, first, if_neg (by have := below k hk; omega)]
    · rw [parent, bit, later.offPath _ fun k hk => by have := below k hk; omega, first, if_pos rfl]
  case offPath =>
    intro j off
    have above : j ≠ base + node := parent ▸ off depth (Nat.lt_succ_self depth)
    rw [later.offPath j fun k hk => off k (Nat.lt_succ_of_lt hk), first, if_neg above]

/-- The loop of `DecodeTree` ends below the node it started from, and adapts the path between them. The bounds are
those of `decodeTreeFrom_reads`: the nodes decided are cells of CTX. -/
theorem decodeTreeFrom_adapts_path {base n : Nat} (inside : base + n ≤ Config.numCells) {depth node leaf : Nat}
    (pos : 0 < node) (hn : (node + 1) * 2 ^ depth ≤ 2 * n) (wf : Cells.wf P s.cells = true)
    (h : decodeTreeFrom P base depth node s = .ok leaf t) :
    leaf / 2 ^ depth = node ∧ PathAdapted P base depth leaf s t := by
  induction depth generalizing node s with
  | zero =>
    cases h
    exact ⟨Nat.div_one leaf, fun k hk => absurd hk (Nat.not_lt_zero k), fun _ _ => rfl⟩
  | succ d ih =>
    obtain ⟨b, u, decided, rest⟩ := Res.bind_eq_ok.mp h
    have bit_le := Bool.toNat_le b
    rw [Nat.pow_succ] at hn
    have node_lt : node < n := by nlinarith [Nat.two_pow_pos d]
    have step := (decodeBit_reads (T := fun _ => True) (by omega) trivial s).of_ok decided
    obtain ⟨top, later⟩ := ih (by omega) (by nlinarith) (step.2.wf wf) rest
    refine ⟨?_, later.cons pos top (cellAt_of_decodeBit wf decided)⟩
    rw [Nat.pow_succ, ← Nat.div_div_eq_div_mul, top]
    omega

/-- A tree decode that answers `v` adapts the path from the root to leaf `2^depth + v`. -/
theorem decodeTree_adapts_path {base depth v : Nat} (inside : base + 2 ^ depth ≤ Config.numCells)
    (wf : Cells.wf P s.cells = true) (h : decodeTree P base depth s = .ok v t) :
    PathAdapted P base depth (2 ^ depth + v) s t := by
  obtain ⟨leaf, u, walked, answer⟩ := Res.bind_eq_ok.mp h
  obtain ⟨root, path⟩ := decodeTreeFrom_adapts_path inside Nat.one_pos (by omega) wf walked
  have leaf_ge : 2 ^ depth ≤ leaf := (Nat.div_pos_iff.mp (root ▸ Nat.one_pos)).2
  cases answer
  rwa [Nat.add_sub_cancel' leaf_ge]

/-! ### INIT (41_models.md R147) -/

/-- The default record initializes the cells of every model alike. -/
theorem pathInit_params (q : CellPath) : pathInit Config.params q = 0x4000 := by
  have nib (n : Fin 17) : Config.params.nibInit[n] = 0x4000 := Vector.getElem_replicate n.isLt
  have tb (n : Fin 9) : Config.params.tbInit[n] = 0x4000 := Vector.getElem_replicate n.isLt
  cases q with
  | isLit | nearLow | farRef => rfl
  | repSlot _ n | shortLen _ _ n | medLen n => exact tb n
  | typeSlot _ n | longLen _ n | nearFirst _ n | farHi n | farLo _ n | litUpper _ n | litLower _ n
  | litNomatch _ n => exact nib n

/-- INIT lists no cell, so each reads its initializer value. -/
theorem cellAt_initCommand (P : Params) (s : State) (j : Nat) : cellAt P (initCommand s) j = initCell P j :=
  cellAt_of_cells_nil rfl j

/-- INIT clears the history. -/
theorem histAt_initCommand (s : State) (i : Nat) : histAt (initCommand s) i = 0 := by
  change ((Vector.replicate 8 (0 : Dist))[i]?).getD 0 = 0
  rw [Vector.getElem?_replicate]
  split
  · rfl
  · rfl

/-- After INIT STATUS reads DONE and CTX_VALID (10_state.md R30). -/
theorem statusWord_initCommand (s : State) : statusWord (initCommand s) = 0b1010 := by
  change (0#60 ++ BitVec.ofBool true ++ BitVec.ofBool false ++ BitVec.ofBool true ++ BitVec.ofBool false) = 0b1010#64
  decide

end Sys2Proof.Machine

namespace Sys2Proof.Proofs

open Sys2Proof.Machine Sys2Proof.Safety

/-- Settles O17: the path of an answer is the one from the root to its leaf; a raise is inside the tree because every
decision of it is. -/
theorem treeDecodeAdaptsOnePath : Obligations.TreeDecodeAdaptsOnePath := by
  unfold Obligations.TreeDecodeAdaptsOnePath
  intro P s base depth wf _ _ inside
  have reads := decodeTree_reads (P := P) inside (fun j hj => hj) s
  refine ⟨fun v t answer => ?_, fun c t raised => ?_⟩
  · obtain ⟨v_lt, step⟩ := reads.of_ok answer
    have path := decodeTree_adapts_path inside wf answer
    refine ⟨v_lt, step.frame, fun i hi => ?_, fun j off => path.offPath j fun k hk => ?_⟩
    · have level : depth - i = depth - 1 - i + 1 := by omega
      have decided := path.onPath (depth - 1 - i) (by omega)
      rwa [Nat.testBit_two_pow_add_gt (by omega), ← level] at decided
    · have level : depth - (depth - 1 - k) = k + 1 := by omega
      exact level ▸ off (depth - 1 - k) (by omega)
  · obtain ⟨truncated, step⟩ := reads.of_raised raised
    exact ⟨truncated, step.frame, step.kept wf⟩

/-- Settles O38: INIT is `initCommand`, whose writes are those of the rule. -/
theorem initResetsTheContext : Obligations.InitResetsTheContext := by
  unfold Obligations.InitResetsTheContext
  refine fun s => ⟨initCommand s, rfl, fun q => ?_, fun j _ => ?_, histAt_initCommand s, rfl,
    statusWord_initCommand s⟩
  · rw [cellAt_initCommand]
    exact (cellNumberingIsExact.1 Config.params q).2
  · rw [cellAt_initCommand, initCell_eq_pathInit, pathInit_params]

/-- Settles O11: `Adapt` is a clamped step toward the bit, and a cell in range is not clamped past itself. -/
theorem adaptMovesTowardTheBit : Obligations.AdaptMovesTowardTheBit := by
  unfold Obligations.AdaptMovesTowardTheBit
  refine ⟨fun P p hP inRange => ?_, adapt_params_stays, by decide⟩
  obtain ⟨low, high⟩ := inRange
  have up := adapt_false_toNat hP p
  have down := adapt_true_toNat hP p
  refine ⟨up, down, ?_, ?_, adapt_inRange hP p false, adapt_inRange hP p true⟩
  · rw [up]
    exact le_clamp (Nat.le_add_right _ _) high
  · rw [down]
    exact clamp_le (Nat.sub_le _ _) low

end Sys2Proof.Proofs
end

section
/-! PROOF. The literal (42_literal.md): the bits that its byte is assembled from and the cells that these adapt (R162,
R163), and the operation LIT (R160). -/

namespace Sys2Proof.Machine

open Sys2Proof.Config (Params)
open Sys2Proof.Safety

variable {P : Params} {T : Nat → Prop} {s t u : State}

/-! ### Chains of decisions -/

/-- Decisions `n - 1` down to 0, each in the state that the one before left. -/
def Decisions (D : Nat → State → State → Prop) : (n : Nat) → State → State → Prop
  | 0, s, t => t = s
  | n + 1, s, t => ∃ u, D n s u ∧ Decisions D n u t

section Decisions

variable {D D' : Nat → State → State → Prop} {n : Nat}

theorem Decisions.congr (h : ∀ i < n, D i = D' i) : Decisions D n s t ↔ Decisions D' n s t := by
  induction n generalizing s with
  | zero => rfl
  | succ n ih =>
    simp only [Decisions, h n (Nat.lt_succ_self n), ih fun i hi => h i (Nat.lt_succ_of_lt hi)]

/-- A chain is the chain of its upper decisions, then that of its lower ones. -/
theorem decisions_add (k : Nat) :
    Decisions D (n + k) s t ↔ ∃ u, Decisions (fun i => D (n + i)) k s u ∧ Decisions D n u t := by
  induction k generalizing s with
  | zero => simp [Decisions]
  | succ k ih =>
    constructor
    · rintro ⟨v, first, later⟩
      obtain ⟨u, upper, lower⟩ := ih.mp later
      exact ⟨u, ⟨v, first, upper⟩, lower⟩
    · rintro ⟨u, ⟨v, first, upper⟩, lower⟩
      exact ⟨v, first, ih.mpr ⟨u, upper, lower⟩⟩

/-- A chain of decisions as the list of the states between them. -/
theorem decisions_iff_states : Decisions D n s t ↔
    ∃ states : Nat → State, states 0 = s ∧ states n = t ∧ ∀ j < n, D (n - 1 - j) (states j) (states (j + 1)) := by
  induction n generalizing s with
  | zero =>
    constructor
    · rintro rfl
      exact ⟨fun _ => t, rfl, rfl, nofun⟩
    · rintro ⟨states, rfl, rfl, -⟩
      rfl
  | succ n ih =>
    simp only [Decisions, ih]
    constructor
    · rintro ⟨u, first, states, rfl, rfl, later⟩
      refine ⟨fun | 0 => s | j + 1 => states j, rfl, rfl, fun j hj => ?_⟩
      cases j with
      | zero => exact first
      | succ j =>
        rw [show n + 1 - 1 - (j + 1) = n - 1 - j by omega]
        exact later j (by omega)
    · rintro ⟨states, rfl, rfl, step⟩
      refine ⟨states 1, step 0 (by omega), fun j => states (j + 1), rfl, rfl, fun j hj => ?_⟩
      rw [show n - 1 - j = n + 1 - 1 - (j + 1) by omega]
      exact step (j + 1) (by omega)

/-- What every decision of a chain keeps, the chain keeps. -/
theorem Decisions.readerStep (h : Decisions D n s t)
    (step : ∀ i < n, ∀ u v, D i u v → ReaderStep P T u v) : ReaderStep P T s t := by
  induction n generalizing s with
  | zero => cases h; exact ReaderStep.refl _ _ _
  | succ n ih =>
    obtain ⟨u, first, later⟩ := h
    exact (step n (Nat.lt_succ_self n) s u first).trans
      (ih later fun i hi => step i (Nat.lt_succ_of_lt hi))

end Decisions

/-! ### One nibble of a matched literal (42_literal.md R163) -/

/-- The tree node `x / 2^n` is child `b` of `node` exactly where `node` is the one above it and bit `n` of `x` is `b`. -/
theorem div_eq_child_iff {x n node : Nat} {b : Bool} :
    x / 2 ^ n = 2 * node + b.toNat ↔ x / 2 ^ (n + 1) = node ∧ x.testBit n = b := by
  rw [Nat.pow_succ, ← Nat.div_div_eq_div_mul, Nat.testBit_eq_decide_div_mod_eq]
  cases b with
  | false => simp only [Bool.toNat_false, decide_eq_false_iff_not]; omega
  | true => simp only [Bool.toNat_true, decide_eq_true_eq]; omega

/-- One bit `b` of a nibble, decided as its difference from the predicted bit while `matched`, as itself otherwise. -/
theorem litMatchedBits_succ_eq_ok {base plain n node : Nat} {pm : BitVec 4} {matched : Bool} {r : Nat × Bool} :
    litMatchedBits P base plain pm (n + 1) node matched s = .ok r t ↔
      ∃ b u, decodeBit P ((if matched then base else plain) + node) s =
          .ok (if matched then xor b (pm.getLsbD n) else b) u ∧
        litMatchedBits P base plain pm n (2 * node + b.toNat) (matched && b == pm.getLsbD n) u = .ok r t := by
  cases matched with
  | false => exact Res.bind_eq_ok
  | true =>
    refine Res.bind_eq_ok.trans ⟨?_, ?_⟩
    · rintro ⟨e, u, decided, rest⟩
      refine ⟨xor (pm.getLsbD n) e, u, ?_, ?_⟩
      · rw [if_pos rfl, decided, if_pos rfl, Bool.xor_comm, ← Bool.xor_assoc, Bool.xor_self, Bool.false_xor]
      · rw [← rest]
        cases e <;> simp
    · rintro ⟨b, u, decided, rest⟩
      refine ⟨_, u, decided, ?_⟩
      rw [← rest]
      cases b <;> cases pm.getLsbD n <;> rfl

/-- The decision of bit `i` of a nibble that ends in tree leaf `leaf` where leaf `g` is predicted: `q` says that no bit
of an earlier nibble differed, and the node above says whether one of this nibble did. -/
def NibbleDecision (P : Params) (base plain : Nat) (q : Bool) (g leaf i : Nat) (s t : State) : Prop :=
  let same := q && decide (leaf / 2 ^ (i + 1) = g / 2 ^ (i + 1))
  decodeBit P ((if same then base else plain) + leaf / 2 ^ (i + 1)) s =
    .ok (if same then xor (leaf.testBit i) (g.testBit i) else leaf.testBit i) t

/-- The bits of a nibble from `node` down: they lead to a leaf below it by the decisions of the leaf's bits. -/
theorem litMatchedBits_eq_ok {base plain n node g leaf : Nat} {pm : BitVec 4} {q matched : Bool}
    (hg : ∀ i < n, pm.getLsbD i = g.testBit i) :
    litMatchedBits P base plain pm n node (q && decide (node = g / 2 ^ n)) s = .ok (leaf, matched) t ↔
      leaf / 2 ^ n = node ∧ matched = (q && decide (leaf = g)) ∧
        Decisions (NibbleDecision P base plain q g leaf) n s t := by
  induction n generalizing node s with
  | zero =>
    simp only [litMatchedBits, Decisions, Res.ok.injEq, Prod.mk.injEq, Nat.pow_zero, Nat.div_one]
    constructor
    · rintro ⟨⟨rfl, rfl⟩, rfl⟩
      exact ⟨rfl, rfl, rfl⟩
    · rintro ⟨rfl, rfl, rfl⟩
      exact ⟨⟨rfl, rfl⟩, rfl⟩
  | succ n ih =>
    have still (b : Bool) : ((q && decide (node = g / 2 ^ (n + 1))) && b == g.testBit n) =
        (q && decide (2 * node + b.toNat = g / 2 ^ n)) := by
      rw [Bool.and_assoc, Bool.eq_iff_iff]
      simp only [Bool.and_eq_true, decide_eq_true_eq, beq_iff_eq, eq_comm (b := g / 2 ^ n), div_eq_child_iff]
      simp only [eq_comm]
    rw [litMatchedBits_succ_eq_ok, hg n (Nat.lt_succ_self n)]
    constructor
    · rintro ⟨b, u, decided, rest⟩
      rw [still, ih fun i hi => hg i (Nat.lt_succ_of_lt hi), div_eq_child_iff] at rest
      obtain ⟨⟨rfl, rfl⟩, flag, rest⟩ := rest
      exact ⟨rfl, flag, u, decided, rest⟩
    · rintro ⟨rfl, flag, u, decided, rest⟩
      refine ⟨leaf.testBit n, u, decided, ?_⟩
      rw [still, ih fun i hi => hg i (Nat.lt_succ_of_lt hi), div_eq_child_iff]
      exact ⟨⟨rfl, rfl⟩, flag, rest⟩

/-- A whole nibble `v` of a matched literal, with predicted nibble `pm`. -/
theorem litMatchedBits_nibble_eq_ok {base plain : Nat} {pm : BitVec 4} {q : Bool} {r : Nat × Bool} :
    litMatchedBits P base plain pm 4 1 q s = .ok r t ↔ ∃ v : BitVec 4, r = (16 + v.toNat, q && decide (v = pm)) ∧
      Decisions (NibbleDecision P base plain q (16 + pm.toNat) (16 + v.toNat)) 4 s t := by
  have pm_lt := pm.isLt
  have bits : ∀ i < 4, pm.getLsbD i = (16 + pm.toNat).testBit i := fun i hi => by
    rw [show 16 = 2 ^ 4 from rfl, Nat.testBit_two_pow_add_gt hi, BitVec.testBit_toNat]
  have start : q = (q && decide (1 = (16 + pm.toNat) / 2 ^ 4)) := by
    rw [show (16 + pm.toNat) / 2 ^ 4 = 1 by omega]; simp
  obtain ⟨leaf, matched⟩ := r
  rw [start, litMatchedBits_eq_ok bits, ← start]
  have same (v : BitVec 4) : decide (16 + v.toNat = 16 + pm.toNat) = decide (v = pm) := by
    simp [BitVec.toNat_inj]
  constructor
  · rintro ⟨root, rfl, decisions⟩
    obtain ⟨v, rfl⟩ : ∃ v : BitVec 4, leaf = 16 + v.toNat :=
      ⟨BitVec.ofNat 4 (leaf - 16), by rw [BitVec.toNat_ofNat]; omega⟩
    exact ⟨v, by rw [same], decisions⟩
  · rintro ⟨v, e, decisions⟩
    obtain ⟨rfl, rfl⟩ := Prod.mk.inj e
    exact ⟨by have := v.isLt; omega, by rw [same], decisions⟩

/-! ### The byte of a literal (42_literal.md R162, R163) -/

/-- The leaf of the nibble at bits `k` to `k + 3` of a byte: the nodes above it are those that the byte's own bits lead
to. -/
theorem leaf_of_nibble_div (y : Byte) (k : Nat) {i : Nat} (hi : i < 4) :
    (16 + (y.extractLsb' k 4).toNat) / 2 ^ (i + 1) = 2 ^ (3 - i) + y.toNat / 2 ^ (k + i + 1) % 2 ^ (3 - i) := by
  rw [BitVec.extractLsb'_toNat, Nat.shiftRight_eq_div_pow, Nat.add_assoc k, Nat.pow_add 2 k, ← Nat.div_div_eq_div_mul]
  generalize y.toNat / 2 ^ k = x
  interval_cases i <;> omega

theorem leaf_of_nibble_testBit (y : Byte) (k : Nat) {i : Nat} (hi : i < 4) :
    (16 + (y.extractLsb' k 4).toNat).testBit i = y.getLsbD (k + i) := by
  rw [show 16 = 2 ^ 4 from rfl, Nat.testBit_two_pow_add_gt hi, BitVec.testBit_toNat, BitVec.getLsbD_extractLsb',
    decide_eq_true hi, Bool.true_and]

/-- The bits of byte `y` above bit `i` are those of the predicted byte `m`. -/
def sameAbove (y m : Byte) (i : Nat) : Bool := decide (y.toNat / 2 ^ (i + 1) = m.toNat / 2 ^ (i + 1))

theorem sameAbove_self (y : Byte) (i : Nat) : sameAbove y y i = true := decide_eq_true rfl

/-- Above bit 7 a byte has no bits. -/
theorem sameAbove_seven (y m : Byte) : sameAbove y m 7 = true := by
  rw [sameAbove, Nat.div_eq_of_lt y.isLt, Nat.div_eq_of_lt m.isLt, decide_eq_true rfl]

/-- Above bit 3 stands the upper nibble. -/
theorem sameAbove_three (y m : Byte) : sameAbove y m 3 = decide (y.extractLsb' 4 4 = m.extractLsb' 4 4) := by
  have y_lt := y.isLt
  have m_lt := m.isLt
  refine decide_eq_decide.mpr ?_
  rw [← BitVec.toNat_inj, BitVec.extractLsb'_toNat, BitVec.extractLsb'_toNat, Nat.shiftRight_eq_div_pow,
    Nat.shiftRight_eq_div_pow]
  omega

/-- A mismatch stays in force in the bits below it: agreement above bit `i` is agreement above every higher one. -/
theorem sameAbove_of_le {y m : Byte} {i k : Nat} (hik : i ≤ k) (h : sameAbove y m i = true) : sameAbove y m k = true := by
  have split : 2 ^ (k + 1) = 2 ^ (i + 1) * 2 ^ (k - i) := by rw [← Nat.pow_add]; congr 1; omega
  rw [sameAbove, decide_eq_true_eq] at *
  rw [split, ← Nat.div_div_eq_div_mul, h, Nat.div_div_eq_div_mul]

/-- The tree node that the bits above bit `i` in its nibble lead to. -/
def nibbleNode (y : Byte) (i : Nat) : Nat := 2 ^ (3 - i % 4) + y.toNat / 2 ^ (i + 1) % 2 ^ (3 - i % 4)

theorem nibbleNode_pos (y : Byte) (i : Nat) : 0 < nibbleNode y i := Nat.add_pos_left (Nat.two_pow_pos _) _

theorem nibbleNode_lt (y : Byte) (i : Nat) : nibbleNode y i < 16 :=
  calc nibbleNode y i
    _ < 2 ^ (3 - i % 4) + 2 ^ (3 - i % 4) := Nat.add_lt_add_left (Nat.mod_lt _ (Nat.two_pow_pos _)) _
    _ = 2 ^ (3 - i % 4 + 1) := (Nat.two_pow_succ _).symm
    _ ≤ 2 ^ 4 := Nat.pow_le_pow_right Nat.two_pos (by omega)

/-- The tree that bit `i` of a matched literal is decided in. -/
def matchedTree (c : Nat) (y m : Byte) (i : Nat) : Nat :=
  if sameAbove y m i then (if i < 4 then litLowerBase c else litUpperBase c) else litNomatchBase c

/-- The decision of bit `i` of a matched literal `y` with predicted byte `m`. -/
def MatchedDecision (P : Params) (c : Nat) (y m : Byte) (i : Nat) (s t : State) : Prop :=
  decodeBit P (matchedTree c y m i + nibbleNode y i) s =
    .ok (if sameAbove y m i then xor (y.getLsbD i) (m.getLsbD i) else y.getLsbD i) t

/-- The decisions of the nibble at bits `k` to `k + 3`, which know of the bits above by their flag, are those of the
byte. -/
theorem nibbleDecision_eq_matchedDecision {c k i : Nat} {y m : Byte} (hk : k % 4 = 0) (hi : i < 4) :
    NibbleDecision P (if k < 4 then litLowerBase c else litUpperBase c) (litNomatchBase c) (sameAbove y m (k + 3))
      (16 + (m.extractLsb' k 4).toNat) (16 + (y.extractLsb' k 4).toNat) i = MatchedDecision P c y m (k + i) := by
  have level : (k + i) % 4 = i := by omega
  have top : 2 ^ (k + 3 + 1) = 2 ^ (k + i + 1) * 2 ^ (3 - i) := by rw [← Nat.pow_add]; congr 1; omega
  have same : (sameAbove y m (k + 3) && decide ((16 + (y.extractLsb' k 4).toNat) / 2 ^ (i + 1) =
      (16 + (m.extractLsb' k 4).toNat) / 2 ^ (i + 1))) = sameAbove y m (k + i) := by
    rw [leaf_of_nibble_div y k hi, leaf_of_nibble_div m k hi, sameAbove, sameAbove, ← Bool.decide_and]
    refine decide_eq_decide.mpr ?_
    rw [Nat.add_left_cancel_iff, top, ← Nat.div_div_eq_div_mul, ← Nat.div_div_eq_div_mul]
    exact (Nat.ext_div_mod_iff _ _ _).symm
  have tree : (if k < 4 then litLowerBase c else litUpperBase c) =
      (if k + i < 4 then litLowerBase c else litUpperBase c) := if_congr (by omega) rfl rfl
  funext s t
  rw [NibbleDecision, same, leaf_of_nibble_testBit y k hi, leaf_of_nibble_testBit m k hi, leaf_of_nibble_div y k hi, tree,
    MatchedDecision, matchedTree, nibbleNode, level]

/-- The byte that two nibbles make. -/
theorem byteOfNibbles_toNat {hi lo : Nat} (hhi : hi < 16) (hlo : lo < 16) :
    (BitVec.ofNat 4 hi ++ BitVec.ofNat 4 lo : Byte).toNat = 16 * hi + lo := by
  rw [BitVec.toNat_append, BitVec.toNat_ofNat, BitVec.toNat_ofNat, Nat.mod_eq_of_lt hhi, Nat.mod_eq_of_lt hlo,
    ← Nat.shiftLeft_add_eq_or_of_lt hlo, Nat.shiftLeft_eq, Nat.mul_comm]

/-- The byte that the leaves of two nibbles make. -/
theorem byteOfLeaves_eq_iff {hi lo : BitVec 4} {y : Byte} :
    BitVec.ofNat 4 (16 + hi.toNat - 16) ++ BitVec.ofNat 4 (16 + lo.toNat - 16) = y ↔
      hi = y.extractLsb' 4 4 ∧ lo = y.extractLsb' 0 4 := by
  have hi_lt := hi.isLt
  have lo_lt := lo.isLt
  have y_lt := y.isLt
  rw [Nat.add_sub_cancel_left, Nat.add_sub_cancel_left, ← BitVec.toNat_inj, byteOfNibbles_toNat hi_lt lo_lt,
    ← BitVec.toNat_inj, ← BitVec.toNat_inj, BitVec.extractLsb'_toNat, BitVec.extractLsb'_toNat,
    Nat.shiftRight_eq_div_pow, Nat.shiftRight_eq_div_pow]
  omega

/-- A matched literal answers the byte whose decisions are taken. -/
theorem litMatched_eq_ok {c : Nat} {y m : Byte} :
    litMatched P c m s = .ok y t ↔ Decisions (MatchedDecision P c y m) 8 s t := by
  have upper (y : Byte) : ∀ i < 4, NibbleDecision P (litUpperBase c) (litNomatchBase c) true
      (16 + (m.extractLsb' 4 4).toNat) (16 + (y.extractLsb' 4 4).toNat) i = MatchedDecision P c y m (4 + i) :=
    fun i hi => by
      have decision := nibbleDecision_eq_matchedDecision (P := P) (c := c) (y := y) (m := m) (k := 4) rfl hi
      rwa [sameAbove_seven] at decision
  have lower (y : Byte) : ∀ i < 4, NibbleDecision P (litLowerBase c) (litNomatchBase c)
      (decide (y.extractLsb' 4 4 = m.extractLsb' 4 4)) (16 + (m.extractLsb' 0 4).toNat)
      (16 + (y.extractLsb' 0 4).toNat) i = MatchedDecision P c y m i :=
    fun i hi => by
      have decision := nibbleDecision_eq_matchedDecision (P := P) (c := c) (y := y) (m := m) (k := 0) rfl hi
      rwa [sameAbove_three, Nat.zero_add] at decision
  rw [decisions_add (n := 4) 4]
  unfold litMatched
  constructor
  · intro answer
    obtain ⟨_, u, hiBits, rest⟩ := Res.bind_eq_ok.mp answer
    obtain ⟨hi, rfl, first⟩ := litMatchedBits_nibble_eq_ok.mp hiBits
    obtain ⟨_, v, loBits, answer⟩ := Res.bind_eq_ok.mp rest
    obtain ⟨lo, rfl, later⟩ := litMatchedBits_nibble_eq_ok.mp loBits
    obtain ⟨assembled, rfl⟩ := Res.ok.inj answer
    obtain ⟨rfl, rfl⟩ := byteOfLeaves_eq_iff.mp assembled
    exact ⟨u, (Decisions.congr (upper y)).mp first, (Decisions.congr (lower y)).mp later⟩
  · rintro ⟨u, first, later⟩
    have hiBits := litMatchedBits_nibble_eq_ok.mpr ⟨_, rfl, (Decisions.congr (upper y)).mpr first⟩
    have loBits := litMatchedBits_nibble_eq_ok.mpr ⟨_, rfl, (Decisions.congr (lower y)).mpr later⟩
    rw [hiBits, Res.ok_bind, Bool.true_and, loBits, Res.ok_bind, byteOfLeaves_eq_iff.mpr ⟨rfl, rfl⟩]

/-- The decision of bit `7 - j`, the `j`-th of a matched literal, with the numbers of 42_literal.md R163. -/
theorem matchedDecision_iff {c j : Nat} {y m : Byte} (hj : j < 8) : MatchedDecision P c y m (8 - 1 - j) s t ↔
    decodeBit P
      ((if y.toNat / 2 ^ (8 - j) = m.toNat / 2 ^ (8 - j) then (if j < 4 then litUpperBase c else litLowerBase c)
          else litNomatchBase c) + (2 ^ (j % 4) + y.toNat / 2 ^ (8 - j) % 2 ^ (j % 4))) s =
      .ok (if y.toNat / 2 ^ (8 - j) = m.toNat / 2 ^ (8 - j) then xor (y.getLsbD (7 - j)) (m.getLsbD (7 - j))
          else y.getLsbD (7 - j)) t := by
  have level : 8 - 1 - j + 1 = 8 - j := by omega
  have depth : 3 - (8 - 1 - j) % 4 = j % 4 := by omega
  have nibble : (if 8 - 1 - j < 4 then litLowerBase c else litUpperBase c) =
      if j < 4 then litUpperBase c else litLowerBase c := by
    split <;> split <;> omega
  rw [MatchedDecision, matchedTree, nibbleNode, sameAbove, level, depth, nibble]
  simp only [decide_eq_true_eq]

/-- A plain literal is its upper nibble, then its lower nibble, in the one model. -/
theorem litPlain_of_raised_upper {c : Nat} {f : Cause} (h : decodeTree P (litNomatchBase c) 4 s = .raised f t) :
    litPlain P c s = .raised f t := Res.bind_eq_raised.mpr (.inl h)

theorem litPlain_of_raised_lower {c hi : Nat} {f : Cause} (first : decodeTree P (litNomatchBase c) 4 s = .ok hi t)
    (h : decodeTree P (litNomatchBase c) 4 t = .raised f u) : litPlain P c s = .raised f u :=
  Res.bind_eq_raised.mpr (.inr ⟨hi, t, first, Res.bind_eq_raised.mpr (.inl h)⟩)

theorem litPlain_of_ok {c hi lo : Nat} (first : decodeTree P (litNomatchBase c) 4 s = .ok hi t)
    (later : decodeTree P (litNomatchBase c) 4 t = .ok lo u) :
    litPlain P c s = .ok (BitVec.ofNat 4 hi ++ BitVec.ofNat 4 lo) u :=
  Res.bind_eq_ok.mpr ⟨hi, t, first, Res.bind_eq_ok.mpr ⟨lo, u, later, rfl⟩⟩

/-! ### The cells of a literal byte (42_literal.md R162, R163) -/

theorem ReaderStep.cellsKeptOutside {lo n : Nat} (h : ReaderStep P T s t) (wf : Cells.wf P s.cells = true)
    (hT : ∀ j, T j → lo ≤ j ∧ j < lo + n) : CellsKeptOutside P lo n s t :=
  fun j hj => h.kept wf j fun inside => by have := hT j inside; omega

theorem litCell_bounds {c j : Nat} (h : LitCell c j) : 1919 + 51 * c ≤ j ∧ j < 1919 + 51 * c + 51 := by
  unfold LitCell InTree litUpperBase litLowerBase litNomatchBase at h
  omega

/-- A tree of a matched literal is one of its LiteralModel. -/
theorem matchedTree_le {c : Nat} (hc : c < 8) (y m : Byte) (i : Nat) : matchedTree c y m i + 16 ≤ Config.numCells := by
  unfold matchedTree litUpperBase litLowerBase litNomatchBase Config.numCells
  split
  · split <;> omega
  · omega

/-- A decision of a matched literal adapts a cell of its tree. -/
theorem MatchedDecision.readerStep {c i : Nat} {y m : Byte} (hc : c < 8) (h : MatchedDecision P c y m i s t) :
    ReaderStep P (InTree (matchedTree c y m i) 16) s t := by
  have low := nibbleNode_pos y i
  have high := nibbleNode_lt y i
  have inside := matchedTree_le hc y m i
  exact ((decodeBit_reads (by omega) ⟨by omega, by omega⟩ s).of_ok h).2

/-- No bit of the predicted byte is decided in `nomatch`. -/
theorem matchedTree_predicted {c i j : Nat} {y : Byte} (h : InTree (matchedTree c y y i) 16 j) :
    1919 + 51 * c ≤ j ∧ j < 1919 + 51 * c + 34 := by
  rw [matchedTree, sameAbove_self, if_pos rfl] at h
  unfold InTree litLowerBase litUpperBase at h
  split at h
  · omega
  · omega

/-- After a mismatch in the upper nibble no bit is decided in `lower`. -/
theorem matchedTree_of_upper_ne {c i j : Nat} {y m : Byte} (differ : y.extractLsb' 4 4 ≠ m.extractLsb' 4 4)
    (h : InTree (matchedTree c y m i) 16 j) : ¬(1919 + 51 * c + 17 ≤ j ∧ j < 1919 + 51 * c + 34) := by
  unfold InTree matchedTree litLowerBase litUpperBase litNomatchBase at h
  split at h
  · next same =>
    have upper : ¬i < 4 := fun low => by
      have agree := sameAbove_of_le (Nat.le_of_lt_succ low) same
      rw [sameAbove_three, decide_eq_true_eq] at agree
      exact differ agree
    rw [if_neg upper] at h
    omega
  · omega

/-- A matched literal adapts cells of the trees that its bits are decided in. -/
theorem litMatched_readerStep {c : Nat} {y m : Byte} (hc : c < 8) (h : litMatched P c m s = .ok y t)
    (hT : ∀ i < 8, ∀ j, InTree (matchedTree c y m i) 16 j → T j) : ReaderStep P T s t :=
  (litMatched_eq_ok.mp h).readerStep fun i hi _ _ decided => (decided.readerStep hc).weaken (hT i hi)

/-! ### LIT (42_literal.md R160) -/

/-- The byte of a LIT, with the numbers of the default record. -/
theorem litByte_params (s : State) : litByte Config.params s =
    if 7 ≤ s.dstate.val ∧ 1 ≤ s.histLen.toNat ∧ (histAt s 0).toNat ≤ windowSize s then
      litMatched Config.params ((prevByte s).toNat / 32) (dstByte s (behind s (histAt s 0))) s
    else litPlain Config.params ((prevByte s).toNat / 32) s := by
  unfold litByte predicted
  rw [litContext_eq params_asWritten]
  simp only [Bool.and_eq_true, decide_eq_true_eq, and_assoc]
  rfl

theorem exec_lit_of_ok {byte : Byte} (h : litByte Config.params s = .ok byte u) :
    exec .lit s = .next ((putByte byte u).setDstate Config.params.nextLit[s.dstate]) := by
  change settle ((litByte Config.params s).bind _) = _
  rw [h]
  rfl

theorem exec_lit_of_raised {c : Cause} (h : litByte Config.params s = .raised c u) :
    exec .lit s = .next (faultEntry c u) := by
  change settle ((litByte Config.params s).bind _) = _
  rw [h]
  rfl

/-- The end of a LIT after its byte was decoded: the byte is at WP, and no other byte of DST changed. -/
theorem litEnd_dst (wf : Memory.wf s.dst = true) (h : ReaderFrame s u) (byte : Byte) (d : DecState) (a : Addr) :
    dstByte ((putByte byte u).setDstate d) a = if a = s.wp then byte else dstByte s a := by
  have wp_eq : u.wp = s.wp := by rw [h]
  have dst_eq : u.dst = s.dst := by rw [h]
  calc dstByte ((putByte byte u).setDstate d) a
    _ = dstByte (putByte byte u) a := dstByte_congr rfl a
    _ = if a = u.wp then byte else dstByte u a := putByte_dst (dst_eq ▸ wf) byte a
    _ = if a = s.wp then byte else dstByte s a := by rw [wp_eq, dstByte_congr dst_eq]

theorem litEnd_dstKept (wf : Memory.wf s.dst = true) (h : ReaderFrame s u) (byte : Byte) (d : DecState) :
    DstKeptOutside s.wp 1 s ((putByte byte u).setDstate d) := fun a ha => by
  rw [litEnd_dst wf h, if_neg (by simpa using ha 0 Nat.one_pos)]

end Sys2Proof.Machine

namespace Sys2Proof.Proofs

open Sys2Proof.Machine Sys2Proof.Safety

/-- Settles O22: every decision of a literal is in a tree of its LiteralModel; one of a matched literal is in `nomatch`
only below a mismatch, and in `lower` only where the upper nibbles agree. -/
theorem literalByteUsesOneModel : Obligations.LiteralByteUsesOneModel := by
  unfold Obligations.LiteralByteUsesOneModel
  intro P s t c m byte wf hc
  refine ⟨fun answer => ?_, fun answer => ?_⟩
  · have step := ((litPlain_reads hc s).of_ok answer).2
    exact ⟨step.frame, step.cellsKeptOutside wf fun j hj => by unfold InTree litNomatchBase at hj; omega⟩
  · have step := ((litMatched_reads hc m s).of_ok answer).2
    refine ⟨step.frame, step.cellsKeptOutside wf fun j => litCell_bounds, ?_, fun differ j low high => ?_⟩
    · rintro rfl
      exact (litMatched_readerStep hc answer fun i _ j => matchedTree_predicted).cellsKeptOutside wf fun j hj => hj
    · exact (litMatched_readerStep hc answer fun i _ j => matchedTree_of_upper_ne differ).kept wf j (by omega)

/-- Settles O23: a plain literal is its two nibble decodes, a matched one its eight decisions (`litMatched_eq_ok`). -/
theorem literalByteIsAssembledFromItsBits : Obligations.LiteralByteIsAssembledFromItsBits := by
  unfold Obligations.LiteralByteIsAssembledFromItsBits
  intro P s c hc lit
  refine ⟨fun f t => litPlain_of_raised_upper, fun hi t first => ⟨fun f u => litPlain_of_raised_lower first,
    fun lo u later => ?_⟩, fun m byte t => ?_⟩
  · have nib_lt {v : Nat} {a b : State} (h : decodeTree P (lit + 34) 4 a = .ok v b) : v < 16 :=
      ((decodeNibble_reads (T := fun _ => True) (by unfold Config.numCells; omega) (fun _ _ => trivial) a).of_ok h).1
    have hi_lt := nib_lt first
    have lo_lt := nib_lt later
    exact ⟨hi_lt, lo_lt, _, litPlain_of_ok first later, byteOfNibbles_toNat hi_lt lo_lt⟩
  · rw [litMatched_eq_ok, decisions_iff_states]
    refine exists_congr fun states => and_congr_right' (and_congr_right' (forall₂_congr fun j hj => ?_))
    rw [matchedDecision_iff hj]
    rfl

/-- Settles O29: LIT is `litByte`, whose answer is stored at WP. -/
theorem litWritesOneByte : Obligations.LitWritesOneByte := by
  unfold Obligations.LitWritesOneByte
  intro s wfDst wfCells prev c pred m decoded
  have decoded_eq : decoded = litByte Config.params s := (litByte_params s).symm
  have context : c = litContext Config.params s := (litContext_eq params_asWritten s).symm
  have reads := litByte_reads params_asWritten s
  rw [decoded_eq, context]
  refine ⟨fun byte u answer => ?_, fun f u raised => ?_, fun supply => ?_⟩
  · have step := (reads.of_ok answer).2
    refine ⟨_, exec_lit_of_ok answer, step.frame, ?_, ?_, litEnd_dstKept wfDst step.frame _ _,
      step.cellsKeptOutside wfCells fun j => litCell_bounds⟩
    · have wp_eq : u.wp = s.wp := by rw [step.frame]
      rw [← wp_eq]
      rfl
    · rw [litEnd_dst wfDst step.frame, if_pos rfl]
  · obtain ⟨rfl, step⟩ := reads.of_raised raised
    exact ⟨rfl, step.frame, exec_lit_of_raised raised⟩
  · obtain ⟨byte, u, answer, -, step, -⟩ := reads.supplied (n := 0) supply
    refine ⟨_, exec_lit_of_ok answer, ?_, ?_, ?_, ?_, rfl, litEnd_dstKept wfDst step.frame _ _⟩
    · unfold OperationFrame
      rw [step.frame]
      rfl
    all_goals rw [step.frame]; rfl

end Sys2Proof.Proofs
end
section
/-! PROOF. The operands of a match (43_match.md): the symbols that a length (R172), a near distance (R173) and a far
distance (R174) are assembled from, their ranges, and the cells that each may adapt. -/

namespace Sys2Proof.Machine

open Sys2Proof.Config (Params)
open Sys2Proof.Safety

variable {P : Params} {T : Nat → Prop} {s t u v : State}

/-! ### Ranges -/

/-- A decoder of at most `k` primitives that raises had no source bytes for `k` refills. -/
theorem Reads.starved {α : Type} {k : Nat} {r : Res α} {Q : α → Prop} {c : Cause} (h : Reads P T k s r Q)
    (hr : r = .raised c t) : ¬Supply P k s := by
  subst hr
  exact h.2.2

theorem lenCell_bounds {j : Nat} (h : LenCell j) : 1272 ≤ j ∧ j < 1272 + 60 := by
  unfold LenCell InTree medLenBase longLenBase at h
  omega

theorem nearCell_bounds {k j : Nat} (h : NearCell k j) : 1332 + 21 * k ≤ j ∧ j < 1332 + 21 * k + 21 := by
  unfold NearCell InTree nearFirstBase nearLowBase at h
  omega

theorem farCell_bounds {j : Nat} (h : FarCell j) : 1374 ≤ j ∧ j < 1374 + 545 := by
  unfold FarCell InTree farHiBase farLoBase farRefBase at h
  rcases h with hi | ⟨h, h_lt, lo | ref⟩
  · omega
  · omega
  · have size : 2 ^ min h 4 ≤ 2 ^ 4 := Nat.pow_le_pow_right Nat.two_pos (Nat.min_le_right h 4)
    omega

/-- The symbol of a tree inside CTX has as many bits as the tree has levels. -/
theorem decodeTree_lt {base depth n : Nat} (inside : base + 2 ^ depth ≤ Config.numCells)
    (h : decodeTree P base depth s = .ok n t) : n < 2 ^ depth :=
  ((decodeTree_reads inside (fun _ hj => hj) s).of_ok h).1

theorem decodeTree_frame {base depth n : Nat} (inside : base + 2 ^ depth ≤ Config.numCells)
    (h : decodeTree P base depth s = .ok n t) : ReaderFrame s t :=
  ((decodeTree_reads inside (fun _ hj => hj) s).of_ok h).2.frame

/-- Decoding symbols leaves the history. -/
theorem histAt_of_frame (h : ReaderFrame s t) (i : Nat) : histAt t i = histAt s i :=
  histAt_congr (by rw [h]) i

theorem readBits_lt {n x : Nat} (h : readBits P n s = .ok x t) : x < 2 ^ n :=
  ((readBits_reads (fun _ => True) n s).of_ok h).1

/-! ### The chain of a length (43_match.md R172) -/

/-- A symbol that gives the answer up to `limit`, and escapes to the `next` symbol above it. -/
def escaping (symbol : Res Nat) (limit : Nat) (value : Nat → Nat) (next : State → Res Nat) : Res Nat :=
  symbol.bind fun n t => if n ≤ limit then .ok (value n) t else next t

section Escaping

variable {symbol : Res Nat} {limit n : Nat} {value : Nat → Nat} {next : State → Res Nat}

theorem escaping_of_raised {c : Cause} (h : symbol = .raised c t) :
    escaping symbol limit value next = .raised c t := by
  rw [h]
  rfl

theorem escaping_of_le (h : symbol = .ok n t) (hn : n ≤ limit) :
    escaping symbol limit value next = .ok (value n) t := by
  rw [h]
  exact if_pos hn

theorem escaping_of_lt (h : symbol = .ok n t) (hn : limit < n) : escaping symbol limit value next = next t := by
  rw [h]
  exact if_neg (Nat.not_le_of_lt hn)

end Escaping

/-- The last long nibble has no escape. -/
def lastLongNibble (P : Params) (s : State) : Res Nat :=
  (decodeTree P 1315 4 s).bind fun n t => .ok (P.longBase3 + n) t

/-- `DecodeLen` is four symbols of which the first three escape. -/
theorem decodeLen_eq (P : Params) (s : State) : decodeLen P s =
    escaping (decodeTree P 1272 3 s) 6 (P.minLen + ·) fun t =>
    escaping (decodeTree P 1281 4 t) 14 (P.longBase1 + ·) fun u =>
    escaping (decodeTree P 1298 4 u) 14 (P.longBase2 + ·) (lastLongNibble P) := rfl

/-! ### The parts of a far distance (43_match.md R174) -/

theorem decodeFar_of_raised_hi {c : Cause} (h : decodeTree P farHiBase 4 s = .raised c t) :
    decodeFar P s = .raised c t := Res.bind_eq_raised.mpr (.inl h)

theorem decodeFar_of_raised_lo {hi : Nat} {c : Cause} (hhi : decodeTree P farHiBase 4 s = .ok hi t)
    (h : decodeTree P (farLoBase hi) 4 t = .raised c u) : decodeFar P s = .raised c u :=
  Res.bind_eq_raised.mpr (.inr ⟨hi, t, hhi, Res.bind_eq_raised.mpr (.inl h)⟩)

/-- After HI and LO a far distance is its refinement. -/
theorem decodeFar_of_hi_lo {hi lo : Nat} (hhi : decodeTree P farHiBase 4 s = .ok hi t)
    (hlo : decodeTree P (farLoBase hi) 4 t = .ok lo u) :
    decodeFar P s = (decodeFarRest P hi u).bind fun r v => .ok (BitVec.ofNat 32 (farValue hi lo r)) v := by
  unfold decodeFar decodeNibble
  rw [hhi, Res.ok_bind, hlo, Res.ok_bind]

theorem decodeFar_of_raised_rest {hi lo : Nat} {c : Cause} (hhi : decodeTree P farHiBase 4 s = .ok hi t)
    (hlo : decodeTree P (farLoBase hi) 4 t = .ok lo u) (h : decodeFarRest P hi u = .raised c v) :
    decodeFar P s = .raised c v := by
  rw [decodeFar_of_hi_lo hhi hlo, h, Res.raised_bind]

theorem decodeFar_of_ok {hi lo r : Nat} (hhi : decodeTree P farHiBase 4 s = .ok hi t)
    (hlo : decodeTree P (farLoBase hi) 4 t = .ok lo u) (h : decodeFarRest P hi u = .ok r v) :
    decodeFar P s = .ok (BitVec.ofNat 32 (farValue hi lo r)) v := by
  rw [decodeFar_of_hi_lo hhi hlo, h, Res.ok_bind]

/-- A far distance fits its 32 bits. -/
theorem farDistance_toNat {hi lo r : Nat} (hhi : hi < 16) (hlo : lo < 16) (hr : r < 2 ^ hi) :
    (BitVec.ofNat 32 (farValue hi lo r)).toNat = (16 + lo) * 2 ^ hi + r - 15 := by
  obtain ⟨-, high⟩ := farValue_bounds hhi hlo hr
  rw [BitVec.toNat_ofNat, Nat.mod_eq_of_lt (by omega), farValue, Nat.shiftLeft_eq]

section AsWritten

variable (hw : P.AsWritten)
include hw

/-- For HI in 1..4 the refinement is one tree. -/
theorem decodeFarRest_eq_tree {hi : Nat} (h1 : 1 ≤ hi) (h4 : hi ≤ 4) (s : State) :
    decodeFarRest P hi s = decodeTree P (farRefBase hi) hi s := by
  unfold decodeFarRest
  rw [if_neg (by omega), hw.farTreeBits, if_pos h4]

/-- From HI = 5 on the refinement is raw bits, then a tree for the four bits below them. -/
theorem decodeFarRest_eq_raw {hi : Nat} (h5 : 5 ≤ hi) (s : State) :
    decodeFarRest P hi s = (readBits P (hi - 4) s).bind fun rh t =>
      (decodeTree P (farRefBase hi) 4 t).bind fun rl u => .ok ((rh <<< 4) ||| rl) u := by
  unfold decodeFarRest
  rw [if_neg (by omega), hw.farTreeBits, if_neg (by omega)]

theorem decodeFarRest_of_raised_raw {hi : Nat} {c : Cause} (h5 : 5 ≤ hi) (h : readBits P (hi - 4) s = .raised c t) :
    decodeFarRest P hi s = .raised c t := by
  rw [decodeFarRest_eq_raw hw h5, h, Res.raised_bind]

theorem decodeFarRest_of_raised_low {hi rh : Nat} {c : Cause} (h5 : 5 ≤ hi) (hrh : readBits P (hi - 4) s = .ok rh t)
    (h : decodeTree P (farRefBase hi) 4 t = .raised c u) : decodeFarRest P hi s = .raised c u := by
  rw [decodeFarRest_eq_raw hw h5, hrh, Res.ok_bind, h, Res.raised_bind]

theorem decodeFarRest_of_raw_low {hi rh rl : Nat} (h5 : 5 ≤ hi) (hrh : readBits P (hi - 4) s = .ok rh t)
    (hrl : decodeTree P (farRefBase hi) 4 t = .ok rl u) (rl_lt : rl < 16) :
    decodeFarRest P hi s = .ok (16 * rh + rl) u := by
  rw [decodeFarRest_eq_raw hw h5, hrh, Res.ok_bind, hrl, Res.ok_bind, shiftLeft4_or rl_lt]

end AsWritten

/-! ### The parts of a near distance (43_match.md R173) -/

/-- Without entry `k` nothing is decoded. -/
theorem decodeNear_of_missing {k : Nat} (h : s.histLen.toNat ≤ k) : decodeNear P k s = .raised .invalidDistance s :=
  if_pos h

/-- The delta of V, with the numbers of 30_encoding.md R98. -/
theorem nearDelta_eq (v : Nat) :
    nearDelta v = if v % 2 = 0 then ((v / 2 : Nat) : Int) + 1 else -((v + 1) / 2 : Nat) := by
  rcases Nat.even_or_odd' v with ⟨k, rfl | rfl⟩
  · rw [nearDelta_even, if_pos (by omega)]
    omega
  · rw [nearDelta_odd, if_neg (by omega)]
    omega

/-- A sum in range is answered as a 32-bit distance. -/
theorem ofInt_distance {d : Int} (pos : 0 < d) (lt : d < 2 ^ 32) : ((BitVec.ofInt 32 d).toNat : Int) = d := by
  rw [BitVec.toNat_ofInt]
  omega

/-- A decoded delta away from `base`, other than 0 and below 2^32, is near `base`. -/
theorem isNear_ofInt {base : Dist} {w : Nat} (hw : w < 64) (pos : 0 < nearSum base w) (lt : nearSum base w < 2 ^ 32) :
    IsNear base (BitVec.ofInt 32 (nearSum base w)) := by
  have value := ofInt_distance pos lt
  obtain ⟨moved, low, high⟩ := nearDelta_bounds hw
  unfold nearSum at *
  refine ⟨fun same => ?_, fun zero => ?_, by omega, by omega⟩
  · rw [same] at value
    omega
  · rw [zero] at value
    exact pos.ne value

/-- With entry `k` and both symbols decoded a near distance is the check of the sum. -/
theorem decodeNear_of_symbols (hw : P.AsWritten) {k e lw : Nat} (hk : k < s.histLen.toNat)
    (first : decodeTree P (nearFirstBase k) 4 s = .ok e t) (low : decodeTree P (nearLowBase k) 2 t = .ok lw u)
    (kept : histAt u k = histAt s k) :
    decodeNear P k s =
      if nearSum (histAt s k) (4 * e + lw) ≤ 0 ∨ 2 ^ 32 ≤ nearSum (histAt s k) (4 * e + lw) then
        .raised .invalidDistance u
      else .ok (BitVec.ofInt 32 (nearSum (histAt s k) (4 * e + lw))) u := by
  unfold decodeNear decodeNibble
  rw [if_neg (by omega), first, Res.ok_bind, hw.nearLowBits, low, Res.ok_bind, hw.distW, kept]
  rfl

end Sys2Proof.Machine

namespace Sys2Proof.Proofs

open Sys2Proof.Machine Sys2Proof.Safety

/-- Settles O18: the decisions of a length and of a far distance are in their own models, and only the reader raises. -/
theorem lengthAndFarDistanceInRange : Obligations.LengthAndFarDistanceInRange := by
  unfold Obligations.LengthAndFarDistanceInRange
  intro P s hw wf
  have length := decodeLen_reads hw s
  have distance := decodeFar_reads hw s
  refine ⟨fun n t answer => ?_, fun d t answer => ?_, fun c t raised => ?_, fun c t raised => ?_⟩
  · obtain ⟨⟨low, high⟩, step⟩ := length.of_ok answer
    exact ⟨low, high, step.frame, step.cellsKeptOutside wf fun j => lenCell_bounds⟩
  · obtain ⟨⟨low, high⟩, step⟩ := distance.of_ok answer
    exact ⟨low, high, step.frame, step.cellsKeptOutside wf fun j => farCell_bounds⟩
  · obtain ⟨truncated, step⟩ := length.of_raised raised
    exact ⟨truncated, step.frame, length.starved raised⟩
  · obtain ⟨truncated, step⟩ := distance.of_raised raised
    exact ⟨truncated, step.frame, distance.starved raised⟩

/-- Settles O19: down the chain of escapes of `decodeLen_eq`. -/
theorem lengthIsAssembledFromItsSymbols : Obligations.LengthIsAssembledFromItsSymbols := by
  unfold Obligations.LengthIsAssembledFromItsSymbols
  intro P s
  rw [decodeLen_eq]
  refine ⟨fun c t => escaping_of_raised, fun m t med => ⟨decodeTree_lt (by decide) med, escaping_of_le med,
    fun hm => ?_⟩, fun hw => ⟨hw.minLen, hw.longBase1, hw.longBase2, hw.longBase3⟩⟩
  rw [escaping_of_lt med (by omega)]
  refine ⟨fun c u => escaping_of_raised, fun n1 u long1 => ⟨decodeTree_lt (by decide) long1, escaping_of_le long1,
    fun hn1 => ?_⟩⟩
  rw [escaping_of_lt long1 (by omega)]
  refine ⟨fun c v => escaping_of_raised, fun n2 v long2 => ⟨decodeTree_lt (by decide) long2, escaping_of_le long2,
    fun hn2 => ?_⟩⟩
  rw [escaping_of_lt long2 (by omega)]
  exact ⟨fun c w raised => Res.bind_eq_raised.mpr (.inl raised), fun n3 w long3 =>
    ⟨decodeTree_lt (by decide) long3, Res.bind_eq_ok.mpr ⟨n3, w, long3, rfl⟩⟩⟩

/-- Settles O20: HI and LO, then the refinement as HI picks it. -/
theorem farDistanceIsAssembledFromItsSymbols : Obligations.FarDistanceIsAssembledFromItsSymbols := by
  unfold Obligations.FarDistanceIsAssembledFromItsSymbols
  intro P s hw
  refine ⟨fun c t => decodeFar_of_raised_hi, fun hi t hhi => ?_⟩
  have hi_lt : hi < 16 := decodeTree_lt (by decide) hhi
  refine ⟨hi_lt, fun c u => decodeFar_of_raised_lo hhi, fun lo u hlo => ?_⟩
  have lo_lt : lo < 16 := decodeTree_lt (by unfold Config.numCells; omega) hlo
  refine ⟨lo_lt, ?_, fun h1 h4 => ⟨fun c v raised => ?_, fun r v hr => ?_⟩,
    fun h5 => ⟨fun c v raised => ?_, fun rh v hrh => ?_⟩⟩
  · rintro rfl
    exact ⟨_, decodeFar_of_ok hhi hlo rfl, (farDistance_toNat hi_lt lo_lt Nat.one_pos).trans (by omega)⟩
  · exact decodeFar_of_raised_rest hhi hlo ((decodeFarRest_eq_tree hw h1 h4 u).trans raised)
  · have inside : 2 ^ hi ≤ 2 ^ 4 := Nat.pow_le_pow_right Nat.two_pos h4
    have r_lt : r < 2 ^ hi := decodeTree_lt (by unfold Config.numCells; omega) hr
    exact ⟨r_lt, _, decodeFar_of_ok hhi hlo ((decodeFarRest_eq_tree hw h1 h4 u).trans hr),
      farDistance_toNat hi_lt lo_lt r_lt⟩
  · exact decodeFar_of_raised_rest hhi hlo (decodeFarRest_of_raised_raw hw h5 raised)
  · have rh_lt := readBits_lt hrh
    refine ⟨rh_lt, fun c w raised => ?_, fun rl w hrl => ?_⟩
    · exact decodeFar_of_raised_rest hhi hlo (decodeFarRest_of_raised_low hw h5 hrh raised)
    · have rl_lt : rl < 16 := decodeTree_lt (by unfold Config.numCells; omega) hrl
      have r_lt : 16 * rh + rl < 2 ^ hi := by
        have parts : 2 ^ hi = 2 ^ (hi - 4) * 16 := by rw [← Nat.pow_add 2 (hi - 4) 4]; congr 1; omega
        omega
      exact ⟨rl_lt, _, decodeFar_of_ok hhi hlo (decodeFarRest_of_raw_low hw h5 hrh hrl rl_lt),
        farDistance_toNat hi_lt lo_lt r_lt⟩

/-- Settles O21: the six bits are V, and the sum of HIST[k] and its delta is checked, then answered. -/
theorem nearDistanceIsASmallDelta : Obligations.NearDistanceIsASmallDelta := by
  unfold Obligations.NearDistanceIsASmallDelta
  intro P s k hw hk
  refine ⟨decodeNear_of_missing, ?_⟩
  intro present e t lw u first low v delta d
  have inside : 1332 + 21 * k + 17 + 2 ^ 2 ≤ Config.numCells := by unfold Config.numCells; omega
  have e_lt : e < 16 := decodeTree_lt (by omega) first
  have lw_lt : lw < 4 := decodeTree_lt inside low
  have v_lt : v < 64 := by omega
  have kept : histAt u k = histAt s k :=
    histAt_of_frame (ReaderFrame.trans (decodeTree_frame (by omega) first) (decodeTree_frame inside low)) k
  have sum : nearSum (histAt s k) v = d := by rw [nearSum, nearDelta_eq]
  rw [decodeNear_of_symbols hw present first low kept, sum]
  refine ⟨v_lt, fun out => if_pos out, fun pos lt => ⟨_, if_neg (by omega), ofInt_distance pos lt, ?_⟩⟩
  rw [← sum] at pos lt ⊢
  exact isNear_ofInt v_lt pos lt

end Sys2Proof.Proofs
end

section
/-! PROOF. The match history (43_match.md R176, R178), the window copy (R177), and the tail of every match (R175). -/

namespace Sys2Proof.Machine

open Sys2Proof.Config (Params)
open Sys2Proof.Safety

variable {P : Params} {T : Nat → Prop} {s t u v : State}

/-! ### HistInsert (43_match.md R176) -/

/-- A distance stands at one position of a well-formed history at most. -/
theorem HistoryOk.position_unique (h : HistoryOk s) {i j : Nat} (hi : i < s.histLen.toNat) (hj : j < s.histLen.toNat)
    (same : histAt s i = histAt s j) : i = j := by
  rcases Nat.lt_trichotomy i j with before | equal | after
  · exact absurd same (h.distinct i j before hj)
  · exact equal
  · exact absurd same.symm (h.distinct j i after hi)

theorem histAt_histInsert_zero (d : Dist) (s : State) : histAt (histInsert d s) 0 = d := by
  obtain ⟨n, m, -, shifted, -⟩ := histInsert_cases d s
  rw [shifted, histAt_histShift s n d m (by omega), if_pos rfl]

/-- A distance that the history holds moves to the front. -/
theorem histInsert_of_found (h : HistoryOk s) {d : Dist} {j : Nat} (hj : j < s.histLen.toNat)
    (found : histAt s j = d) : histInsert d s = s.setHist (histShift s j d) s.histLen := by
  obtain ⟨n, m, -, shifted, ⟨hn, at_n, rfl⟩ | ⟨absent, -, -⟩⟩ := histInsert_cases d s
  · rw [shifted, HistoryOk.position_unique h hn hj (at_n.trans found.symm)]
  · exact absurd found (absent j (Nat.lt_of_lt_of_le hj h.length_le) hj)

/-- A distance that the history does not hold pushes every entry one place down. -/
theorem histInsert_of_absent {d : Dist} (absent : ∀ j, j < s.histLen.toNat → histAt s j ≠ d) :
    ∃ m : BitVec 4, m.toNat = min (s.histLen.toNat + 1) 8 ∧
      histInsert d s = s.setHist (histShift s (min s.histLen.toNat 7) d) m := by
  obtain ⟨n, m, -, shifted, ⟨hn, at_n, -⟩ | ⟨-, rfl, hm⟩⟩ := histInsert_cases d s
  · exact absurd at_n (absent n hn)
  · exact ⟨m, hm, shifted⟩

/-! ### The history over a step (43_match.md R178) -/

theorem historyOk_initCommand (s : State) : HistoryOk (initCommand s) := historyOk_of_cleared rfl rfl

theorem historyOk_faultEntry (h : HistoryOk s) (c : Cause) : HistoryOk (faultEntry c s) :=
  HistoryOk.congr (s := s) rfl rfl h

/-- Only INIT among the commands writes the history. -/
theorem historyOk_of_command {w : BitVec 64} (h : HistoryOk s) (hn : exec (decode (.command w)) s = .next t) :
    HistoryOk t := by
  rcases command_outcome hn with ⟨-, rfl⟩ | ⟨-, started⟩ | ⟨c, -, rfl⟩
  · exact historyOk_initCommand s
  · rcases decode_outcome started with ⟨c, -, rfl⟩ | ⟨-, -, rfl⟩ | ⟨-, -, -, rfl⟩ | ⟨-, -, -, a, b, rfl⟩
    all_goals exact HistoryOk.congr (s := s) rfl rfl h
  · exact historyOk_faultEntry h .badArguments

/-- Only hardware reset among the host's actions writes the history. -/
theorem historyOk_of_hostAction {a : HostAction} (h : HistoryOk s) (hn : hostAction a s = .next t) : HistoryOk t := by
  have kept {u : State} (hist : u.hist = s.hist) (length : u.histLen = s.histLen) : HistoryOk u :=
    HistoryOk.congr hist length h
  rcases hostAction_outcome hn with ⟨offset, size, w, -, rfl⟩ | ⟨offset, size, -, rfl⟩ | ⟨addr, w, -, rfl⟩ |
    ⟨addr, -, rfl⟩ | ⟨addr, w, -, rfl⟩ | ⟨addr, -, rfl⟩ | ⟨-, rfl⟩
  · obtain ⟨⟨a, b, c, d, e, args⟩, -⟩ := writeReg_frame offset size w s
    rw [args]
    exact kept rfl rfl
  · obtain ⟨w, n, read⟩ := readReg_frame offset size s
    rw [read]
    exact kept rfl rfl
  · exact kept rfl rfl
  · exact kept rfl rfl
  · exact kept rfl rfl
  · exact kept rfl rfl
  · exact historyOk_of_cleared rfl rfl

/-- Every way a step reaches its next state keeps the history well-formed. -/
theorem historyOk_of_step (h : HistoryOk s) (hn : step s = .next t) : HistoryOk t := by
  have scripted (l : List HostEvent) : HistoryOk (s.setScript l) := HistoryOk.congr (s := s) rfl rfl h
  rcases step_outcome hn with ⟨-, rfl⟩ | ⟨-, -, l, op⟩ | ⟨-, -, l, c, u, ⟨symbols, -⟩, rfl⟩ | ⟨-, -, l, rfl⟩ |
    ⟨e, rest, -, ⟨w, -, -, command⟩ | ⟨-, -, action⟩⟩
  · exact h
  · exact op.history (scripted l)
  · exact historyOk_faultEntry (symbols.historyOk (scripted l)) c
  · exact HistoryOk.congr (s := s) rfl rfl h
  · exact historyOk_of_command (scripted rest) command
  · exact historyOk_of_hostAction (scripted rest) action

/-! ### The tail of a match (43_match.md R175) -/

theorem matchFinish_of_distance {next : Vector DecState 12} {len : Nat} {d : Dist}
    (h : d = 0 ∨ windowSize s < d.toNat) : matchFinish next len d s = .raised .invalidDistance s := if_pos h

theorem matchFinish_of_room {next : Vector DecState 12} {len : Nat} {d : Dist} (hd : d ≠ 0)
    (inside : d.toNat ≤ windowSize s) (h : roomLeft s < len) :
    matchFinish next len d s = .raised .outputOverrun s :=
  (if_neg (not_or.mpr ⟨hd, Nat.not_lt_of_le inside⟩)).trans (if_pos h)

theorem matchFinish_of_fits {next : Vector DecState 12} {len : Nat} {d : Dist} (h : FitsWindow len d s) :
    matchFinish next len d s = .ok () ((histInsert d (copy len d s)).setDstate next[s.dstate]) := by
  obtain ⟨hd, inside, room⟩ := h
  exact (if_neg (not_or.mpr ⟨hd, Nat.not_lt_of_le inside⟩)).trans (if_neg (Nat.not_lt_of_le room))

/-- What the tail `r` of a match does, entered in a state `v` that the operation's symbols left of `s`: the distance is
checked, then the length, and only then is anything written. -/
structure Finishes (next : Vector DecState 12) (len : Nat) (d : Dist) (s v : State) (r : Res Unit) : Prop where
  distance : d = 0 ∨ windowSize s < d.toNat → r = .raised .invalidDistance v
  room : d ≠ 0 → d.toNat ≤ windowSize s → roomLeft s < len → r = .raised .outputOverrun v
  done : FitsWindow len d s → ∃ t, r = .ok () t ∧ MatchDone next len d s t ∧
    t = { v with dst := t.dst, wp := t.wp, hist := t.hist, histLen := t.histLen, dstate := t.dstate }

theorem matchFinish_finishes {next : Vector DecState 12} {len : Nat} {d : Dist} (wf : Memory.wf s.dst = true)
    (h54 : len ≤ 54) (h : ReaderFrame s v) : Finishes next len d s v (matchFinish next len d v) := by
  have window : windowSize v = windowSize s := by unfold windowSize; rw [h]
  have left : roomLeft v = roomLeft s := by unfold roomLeft; rw [h]
  constructor
  case distance =>
    rw [← window]
    exact matchFinish_of_distance
  case room =>
    rw [← window, ← left]
    exact matchFinish_of_room
  case done =>
    intro fits
    obtain ⟨nonzero, inside, room⟩ := fits
    refine ⟨_, matchFinish_of_fits ⟨nonzero, window ▸ inside, left ▸ room⟩, matchDone_of wf h54 nonzero h, ?_⟩
    rw [histInsert_frame, copy_frame]
    rfl

end Sys2Proof.Machine

namespace Sys2Proof.Proofs

open Sys2Proof.Machine Sys2Proof.Safety

/-- Settles O24: where the distance was, or the end of the history, the shift stops; beyond a shorter history stand
zeros. -/
theorem histInsertMovesToFront : Obligations.HistInsertMovesToFront := by
  unfold Obligations.HistInsertMovesToFront
  intro s d ok t
  refine ⟨histInsert_frame d s, histAt_histInsert_zero d s, fun j hj found => ?_, fun absent => ?_⟩
  · have short := ok.length_le
    have shifted : t = s.setHist (histShift s j d) s.histLen := histInsert_of_found ok hj found
    rw [shifted]
    refine ⟨rfl, fun i h1 hi => ?_, fun i hi => ?_⟩
    · rw [histAt_histShift _ _ _ _ (by omega), if_neg (by omega), if_pos hi]
    · by_cases inside : i < 8
      · rw [histAt_histShift _ _ _ _ inside, if_neg (by omega), if_neg (by omega)]
      · rw [histAt_ge _ (by omega), histAt_ge _ (by omega)]
  · obtain ⟨m, length, shifted⟩ := histInsert_of_absent absent
    have shifted : t = s.setHist (histShift s (min s.histLen.toNat 7) d) m := shifted
    rw [shifted]
    refine ⟨length, fun i h1 hi => ?_⟩
    rw [histAt_histShift _ _ _ _ hi, if_neg (by omega)]
    by_cases old : i ≤ s.histLen.toNat
    · rw [if_pos (by omega), if_pos old]
    · rw [if_neg (by omega), if_neg old]
      exact ok.unused i (by omega)

/-- Settles O25: INIT clears the history, and every way a step reaches its next state keeps it well-formed. -/
theorem historyStaysWellFormed : Obligations.HistoryStaysWellFormed := by
  unfold Obligations.HistoryStaysWellFormed
  refine ⟨fun s t initialised => ?_, fun s t => historyOk_of_step⟩
  cases initialised
  exact historyOk_initCommand s

/-- Settles O26: the window and the room left together are less than the address space, so a copy does not run into
its own source. -/
theorem copyRepeatsTheWindow : Obligations.CopyRepeatsTheWindow := by
  unfold Obligations.CopyRepeatsTheWindow
  intro s len d wf start_le wp_le _ ⟨nonzero, inside, room⟩ t
  have no_wrap : len + d.toNat ≤ 2 ^ 64 := by
    have region : windowSize s + roomLeft s < 2 ^ 64 := by unfold windowSize roomLeft; bv_omega
    omega
  refine ⟨?_, copy_wf wf len d, fun i => copy_byte wf no_wrap nonzero, copy_kept wf len d⟩
  rw [← copy_wp len d s]
  exact copy_frame len d s

/-- Settles O27: the tail of a match, entered in the state that the statement is about. -/
theorem matchFinishChecksThenWrites : Obligations.MatchFinishChecksThenWrites := by
  unfold Obligations.MatchFinishChecksThenWrites
  intro s next len d wf _ h54
  obtain ⟨distance, room, done⟩ := matchFinish_finishes (next := next) (d := d) wf h54 (ReaderFrame.refl s)
  exact ⟨distance, room, done⟩

end Sys2Proof.Proofs
end

section
/-! PROOF. The five match operations (43_match.md R180 to R184): two shapes, a new distance and a reused one, each with
what its raises are, what it has done where it completes, and when it completes (R170, R179). -/

namespace Sys2Proof.Machine

open Sys2Proof.Config (Params)
open Sys2Proof.Safety

variable {P : Params} {T T' : Nat → Prop} {s t u v : State}

/-! ### The end of an operation -/

theorem ReaderStep.append (h : ReaderStep P T s t) (g : ReaderStep P T' t u) :
    ReaderStep P (fun j => T j ∨ T' j) s u :=
  (h.weaken fun _ => .inl).trans (g.weaken fun _ => .inr)

/-- A raise of an operation's meaning is taken as fault entry. -/
theorem exec_of_raised {i : Instr} {r : Res Unit} {c : Cause} (meaning : exec i s = settle r) (h : r = .raised c u) :
    exec i s = .next (faultEntry c u) := by
  rw [meaning, h]
  rfl

theorem exec_of_ok {i : Instr} {r : Res Unit} (meaning : exec i s = settle r) (h : r = .ok () t) :
    exec i s = .next t := by
  rw [meaning, h]
  rfl

section Exec

variable {i : Instr} {r : Res Unit} {next : Vector DecState 12} {len : Nat} {d : Dist}

/-- The tail of a match writes no cell. -/
theorem Finishes.exec_done (h : Finishes next len d s v r) (meaning : exec i s = settle r)
    (fits : FitsWindow len d s) : ∃ t, exec i s = .next t ∧ MatchDone next len d s t ∧ t.cells = v.cells := by
  obtain ⟨t, answer, done, frame⟩ := h.done fits
  exact ⟨t, exec_of_ok meaning answer, done, by rw [frame]⟩

/-- An operation that is the tail `r`: fault entry where a check fails, else the match done. -/
theorem Finishes.exec_cases (h : Finishes next len d s v r) (meaning : exec i s = settle r) :
    (d = 0 ∨ windowSize s < d.toNat → exec i s = .next (faultEntry .invalidDistance v)) ∧
    (d ≠ 0 → d.toNat ≤ windowSize s → roomLeft s < len → exec i s = .next (faultEntry .outputOverrun v)) ∧
    (FitsWindow len d s → ∃ t, exec i s = .next t ∧ MatchDone next len d s t) := by
  refine ⟨fun beyond => exec_of_raised meaning (h.distance beyond),
    fun nonzero inside short => exec_of_raised meaning (h.room nonzero inside short), fun fits => ?_⟩
  obtain ⟨t, answer, done, -⟩ := h.exec_done meaning fits
  exact ⟨t, answer, done⟩

end Exec

/-! ### A new distance: MATCH_FAR, MATCH_NEAR0 and MATCH_NEAR1 (43_match.md R180 to R182) -/

/-- The length, then a new distance, then the tail of the match. -/
def newMatch (P : Params) (distance : State → Res Dist) (s : State) : Res Unit :=
  (decodeLen P s).bind fun len u => (distance u).bind fun d v => matchFinish P.nextNew len d v

/-- A decoded far distance is not 0. -/
theorem ne_zero_of_one_le {d : Dist} (h : 1 ≤ d.toNat) : d ≠ 0 := by
  rintro rfl
  exact absurd h (by decide)

theorem exec_matchFar (s : State) :
    exec .matchFar s = settle (newMatch Config.params (decodeFar Config.params) s) := rfl

theorem exec_matchNear {i : Instr} {k : Nat} (h : (i = .matchNear0 ∧ k = 0) ∨ (i = .matchNear1 ∧ k = 1)) (s : State) :
    exec i s = settle (newMatch Config.params (decodeNear Config.params k) s) := by
  rcases h with ⟨rfl, rfl⟩ | ⟨rfl, rfl⟩
  · rfl
  · rfl

section NewMatch

variable {distance : State → Res Dist} {len : Nat} {d : Dist} {c : Cause}

theorem newMatch_of_raised_length (h : decodeLen P s = .raised c u) : newMatch P distance s = .raised c u :=
  Res.bind_eq_raised.mpr (.inl h)

theorem newMatch_of_raised_distance (hlen : decodeLen P s = .ok len u) (h : distance u = .raised c v) :
    newMatch P distance s = .raised c v :=
  Res.bind_eq_raised.mpr (.inr ⟨len, u, hlen, Res.bind_eq_raised.mpr (.inl h)⟩)

theorem newMatch_of_operands (hlen : decodeLen P s = .ok len u) (hd : distance u = .ok d v) :
    newMatch P distance s = matchFinish P.nextNew len d v := by
  rw [newMatch, hlen, Res.ok_bind, hd, Res.ok_bind]

/-- With both operands decoded the match is its tail. -/
theorem newMatch_finishes (hw : P.AsWritten) (wf : Memory.wf s.dst = true) (hlen : decodeLen P s = .ok len u)
    (hd : distance u = .ok d v) (frame : ReaderFrame u v) :
    Finishes P.nextNew len d s v (newMatch P distance s) := by
  obtain ⟨⟨-, h54⟩, step⟩ := (decodeLen_reads hw s).of_ok hlen
  rw [newMatch_of_operands hlen hd]
  exact matchFinish_finishes wf h54 (ReaderFrame.trans step.frame frame)

/-- With source bytes for the length, a distance decoder that then answers a distance in the window, and room for any
length, the match is done; of the cells it adapts only those of its operands. -/
theorem newMatch_completes {i : Instr} {k : Nat} {Q : Dist → Prop} (hw : P.AsWritten)
    (meaning : exec i s = settle (newMatch P distance s)) (wf : Memory.wf s.dst = true)
    (wfCells : Cells.wf P s.cells = true) (supply : Supply P (15 + k) s) (room : 54 ≤ roomLeft s)
    (answers : ∀ u, ReaderFrame s u → Supply P k u → ∃ d v, distance u = .ok d v ∧ Q d ∧ ReaderStep P T u v)
    (inWindow : ∀ d, Q d → d ≠ 0 ∧ d.toNat ≤ windowSize s) :
    ∃ len d t, 2 ≤ len ∧ len ≤ 54 ∧ Q d ∧ exec i s = .next t ∧ MatchDone P.nextNew len d s t ∧
      ∀ j, ¬LenCell j → ¬T j → cellAt P t j = cellAt P s j := by
  obtain ⟨len, u, hlen, ⟨h2, h54⟩, first, supply⟩ := (decodeLen_reads hw s).supplied supply
  obtain ⟨d, v, hd, hQ, second⟩ := answers u first.frame supply
  obtain ⟨nonzero, inside⟩ := inWindow d hQ
  obtain ⟨t, answer, done, cells⟩ := (newMatch_finishes hw wf hlen hd second.frame).exec_done meaning
    ⟨nonzero, inside, h54.trans room⟩
  refine ⟨len, d, t, h2, h54, hQ, answer, done, fun j notLen notT => ?_⟩
  rw [cellAt_congr cells]
  exact (first.append second).kept wfCells j (not_or.mpr ⟨notLen, notT⟩)

end NewMatch

/-! ### The near distance of a match -/

/-- A near distance that is answered is near an entry that exists. -/
theorem decodeNear_of_ok (hw : P.AsWritten) {k : Nat} (hk : k < 2) {d : Dist} (h : decodeNear P k s = .ok d t) :
    IsNear (histAt s k) d ∧ ReaderStep P (NearCell k) s t := by
  have present : k < s.histLen.toNat := by
    by_contra missing
    rw [decodeNear_of_missing (Nat.le_of_not_lt missing)] at h
    cases h
  obtain ⟨near, step, -⟩ := (decodeNear_post hw hk present).of_ok h
  exact ⟨near, step⟩

/-- With source bytes for six decisions, and an entry whose neighbours are all 32-bit distances other than 0, a near
distance is answered. -/
theorem decodeNear_answers (hw : P.AsWritten) {k : Nat} (hk : k < 2) (supply : Supply P 6 s)
    (present : k < s.histLen.toNat) (low : 33 ≤ (histAt s k).toNat) (high : (histAt s k).toNat + 32 < 2 ^ 32) :
    ∃ d t, decodeNear P k s = .ok d t ∧ IsNear (histAt s k) d ∧ ReaderStep P (NearCell k) s t := by
  cases answer : decodeNear P k s with
  | ok d t => exact ⟨d, t, rfl, decodeNear_of_ok hw hk answer⟩
  | raised c t =>
    obtain ⟨-, ⟨-, starved⟩ | ⟨-, outside⟩⟩ := (decodeNear_post hw hk present).of_raised answer
    · exact absurd supply starved
    · omega

/-! ### A reused distance: REP and SHORTREP (43_match.md R183, R184) -/

/-- The slot, then a symbol whose `value` is the length, then the tail of the match at the slot's distance. -/
def reuseMatch (P : Params) (next : Vector DecState 12) (symbol : Nat → State → Res Nat) (value : Nat → Nat)
    (s : State) : Res Unit :=
  (decodeSlot P s).bind fun slot u =>
  (symbol slot u).bind fun x v => matchFinish next (value x) (histAt u slot) v

/-- The symbol of a SHORTREP's length. -/
def shortLenSymbol (P : Params) (slot : Nat) (s : State) : Res Nat := decode3 P (shortLenBase s.dstate slot) s

/-- The model of a short length is that of DSTATE at the start. -/
theorem shortLenSymbol_of_frame {slot : Nat} (h : ReaderFrame s u) :
    shortLenSymbol P slot u = decode3 P (shortLenBase s.dstate slot) u := by
  have kept : u.dstate = s.dstate := by rw [h]
  rw [shortLenSymbol, kept]

theorem slotCell_bounds {d : DecState} {j : Nat} (h : InTree (repSlotBase d) 8 j) :
    300 + 9 * d.val ≤ j ∧ j < 300 + 9 * d.val + 9 := by
  unfold InTree repSlotBase at h
  omega

theorem shortLenCell_bounds {d : DecState} {k j : Nat} (h : InTree (shortLenBase d k) 8 j) :
    408 + 9 * (8 * d.val + k) ≤ j ∧ j < 408 + 9 * (8 * d.val + k) + 9 := by
  unfold InTree shortLenBase at h
  omega

theorem exec_rep (s : State) : exec .rep s =
    settle (reuseMatch Config.params Config.params.nextRep (fun _ => decodeLen Config.params) id s) := rfl

theorem exec_shortrep (s : State) : exec .shortrep s =
    settle (reuseMatch Config.params Config.params.nextShortrep (shortLenSymbol Config.params) (1 + ·) s) := rfl

section ReuseMatch

variable {next : Vector DecState 12} {symbol : Nat → State → Res Nat} {value : Nat → Nat} {slot x : Nat} {c : Cause}

theorem slot_frame (h : decode3 P (repSlotBase s.dstate) s = .ok slot u) : ReaderFrame s u :=
  ((repSlot_reads s).of_ok h).2.frame

theorem decodeSlot_of_empty (h : decode3 P (repSlotBase s.dstate) s = .ok slot u) (empty : s.histLen.toNat ≤ slot) :
    decodeSlot P s = .raised .invalidDistance u := by
  have kept : u.histLen = s.histLen := by rw [slot_frame h]
  rw [decodeSlot, h, Res.ok_bind, kept, if_pos empty]

theorem decodeSlot_of_valid (h : decode3 P (repSlotBase s.dstate) s = .ok slot u) (valid : slot < s.histLen.toNat) :
    decodeSlot P s = .ok slot u := by
  have kept : u.histLen = s.histLen := by rw [slot_frame h]
  rw [decodeSlot, h, Res.ok_bind, kept, if_neg (Nat.not_le_of_lt valid)]

theorem reuseMatch_of_raised_slot (h : decodeSlot P s = .raised c u) :
    reuseMatch P next symbol value s = .raised c u := Res.bind_eq_raised.mpr (.inl h)

theorem reuseMatch_of_raised_symbol (hslot : decodeSlot P s = .ok slot u) (h : symbol slot u = .raised c v) :
    reuseMatch P next symbol value s = .raised c v :=
  Res.bind_eq_raised.mpr (.inr ⟨slot, u, hslot, Res.bind_eq_raised.mpr (.inl h)⟩)

/-- With the slot and the length decoded the match is its tail, at the distance that the slot held at the start. -/
theorem reuseMatch_finishes (wf : Memory.wf s.dst = true) (hslot : decodeSlot P s = .ok slot u)
    (hx : symbol slot u = .ok x v) (frame : ReaderFrame u v) (h54 : value x ≤ 54) :
    Finishes next (value x) (histAt s slot) s v (reuseMatch P next symbol value s) := by
  obtain ⟨-, -, step, -⟩ := (decodeSlot_post s).of_ok hslot
  rw [reuseMatch, hslot, Res.ok_bind, hx, Res.ok_bind, histAt_of_frame step.frame]
  exact matchFinish_finishes wf h54 (ReaderFrame.trans step.frame frame)

/-- With source bytes for a slot, and a full history, a slot that holds a distance is answered. -/
theorem decodeSlot_answers {k : Nat} (supply : Supply P (3 + k) s) (full : s.histLen = 8) :
    ∃ slot u, decodeSlot P s = .ok slot u ∧ slot < 8 ∧ ReaderStep P (InTree (repSlotBase s.dstate) 8) s u ∧
      Supply P k u := by
  have length : s.histLen.toNat = 8 := by rw [full]; rfl
  cases answer : decodeSlot P s with
  | ok slot u =>
    obtain ⟨slot_lt, -, step, supplied⟩ := (decodeSlot_post s).of_ok answer
    exact ⟨slot, u, rfl, slot_lt, step, supplied k supply⟩
  | raised c u =>
    obtain ⟨-, ⟨-, starved⟩ | ⟨-, short⟩⟩ := (decodeSlot_post s).of_raised answer
    · exact absurd (supply_mono supply (Nat.le_add_right 3 k)) starved
    · omega

/-- With source bytes for both symbols, a full history of distances in the window, and room for any length of the
symbol, the match is done; of the cells it adapts only those of its operands. -/
theorem reuseMatch_completes {i : Instr} {k least most : Nat} {T : Nat → Nat → Prop}
    (meaning : exec i s = settle (reuseMatch P next symbol value s)) (wf : Memory.wf s.dst = true)
    (wfCells : Cells.wf P s.cells = true) (supply : Supply P (3 + k) s) (full : s.histLen = 8)
    (inWindow : ∀ j, j < 8 → histAt s j ≠ 0 ∧ (histAt s j).toNat ≤ windowSize s) (room : most ≤ roomLeft s)
    (h54 : most ≤ 54)
    (reads : ∀ slot u, slot < 8 → ReaderFrame s u →
      Reads P (T slot) k u (symbol slot u) fun x => least ≤ value x ∧ value x ≤ most) :
    ∃ slot len t, slot < 8 ∧ least ≤ len ∧ len ≤ most ∧ exec i s = .next t ∧
      MatchDone next len (histAt s slot) s t ∧
      ∀ j, ¬InTree (repSlotBase s.dstate) 8 j → ¬T slot j → cellAt P t j = cellAt P s j := by
  obtain ⟨slot, u, hslot, slot_lt, first, supply⟩ := decodeSlot_answers supply full
  obtain ⟨x, v, hx, ⟨low, high⟩, second, -⟩ := (reads slot u slot_lt first.frame).supplied (n := 0) supply
  obtain ⟨nonzero, inside⟩ := inWindow slot slot_lt
  obtain ⟨t, answer, done, cells⟩ :=
    (reuseMatch_finishes wf hslot hx second.frame (high.trans h54)).exec_done meaning
      ⟨nonzero, inside, high.trans room⟩
  refine ⟨slot, value x, t, slot_lt, low, high, answer, done, fun j notSlot notT => ?_⟩
  rw [cellAt_congr cells]
  exact (first.append second).kept wfCells j (not_or.mpr ⟨notSlot, notT⟩)

end ReuseMatch

/-! ### Whole or untouched (43_match.md R170, R179) -/

/-- The causes that a match can raise. -/
def MatchCause (c : Cause) : Prop := c = .truncated ∨ c = .invalidDistance ∨ c = .outputOverrun

/-- A part of a match that started in `s`: it answers a value that satisfies `Q` or raises, and in either case only the
reader and the cells have changed since. -/
def MatchOperand {α : Type} (s : State) (Q : α → Prop) (r : Res α) : Prop :=
  r.Post (fun x u => Q x ∧ ReaderFrame s u) fun c u => ReaderFrame s u ∧ MatchCause c

/-- The outcome of a match that started in `s`: the whole match, or a raise with only the reader and the cells
changed. -/
def WholeMatch (s : State) (r : Res Unit) : Prop :=
  r.Post (fun _ t => ∃ next len d, 1 ≤ len ∧ len ≤ 54 ∧ FitsWindow len d s ∧ MatchDone next len d s t)
    fun c u => ReaderFrame s u ∧ MatchCause c

theorem Reads.matchOperand {α : Type} {k : Nat} {r : Res α} {Q : α → Prop} (h : Reads P T k u r Q)
    (frame : ReaderFrame s u) : MatchOperand s Q r :=
  Res.Post.mono h (fun _ _ g => ⟨g.1, ReaderFrame.trans frame g.2.1.frame⟩)
    fun _ _ g => ⟨ReaderFrame.trans frame g.2.1.frame, .inl g.1⟩

theorem decodeNear_matchOperand (hw : P.AsWritten) {k : Nat} (hk : k < 2) (frame : ReaderFrame s u) :
    MatchOperand s (fun _ => True) (decodeNear P k u) := by
  by_cases present : k < u.histLen.toNat
  · refine Res.Post.mono (decodeNear_post hw hk present) (fun d v answer => ?_) fun c v raised => ?_
    · obtain ⟨-, step, -⟩ := answer
      exact ⟨trivial, ReaderFrame.trans frame step.frame⟩
    · obtain ⟨step, cause⟩ := raised
      exact ⟨ReaderFrame.trans frame step.frame, cause.imp And.left fun h => .inl h.1⟩
  · rw [decodeNear_of_missing (Nat.le_of_not_lt present)]
    exact ⟨frame, .inr (.inl rfl)⟩

theorem decodeSlot_matchOperand (s : State) : MatchOperand s (· < 8) (decodeSlot P s) := by
  refine Res.Post.mono (decodeSlot_post s) (fun slot u answer => ?_) fun c u raised => ?_
  · obtain ⟨slot_lt, -, step, -⟩ := answer
    exact ⟨slot_lt, step.frame⟩
  · obtain ⟨step, cause⟩ := raised
    exact ⟨step.frame, cause.imp And.left fun h => .inl h.1⟩

/-- An operand, then the rest of the match. -/
theorem WholeMatch.bind {α : Type} {r : Res α} {f : α → State → Res Unit} {Q : α → Prop} (h : MatchOperand s Q r)
    (hf : ∀ x u, Q x → ReaderFrame s u → WholeMatch s (f x u)) : WholeMatch s (r.bind f) :=
  Res.Post.bind (Res.Post.mono h (fun x u g => hf x u g.1 g.2) fun _ _ g => g)

theorem matchFinish_wholeMatch {next : Vector DecState 12} {len : Nat} {d : Dist} (wf : Memory.wf s.dst = true)
    (h1 : 1 ≤ len) (h54 : len ≤ 54) (frame : ReaderFrame s v) : WholeMatch s (matchFinish next len d v) := by
  obtain ⟨distance, room, done⟩ := matchFinish_finishes (next := next) (d := d) wf h54 frame
  by_cases beyond : d = 0 ∨ windowSize s < d.toNat
  · rw [distance beyond]
    exact ⟨frame, .inr (.inl rfl)⟩
  obtain ⟨nonzero, inside⟩ := not_or.mp beyond
  by_cases short : roomLeft s < len
  · rw [room nonzero (Nat.le_of_not_lt inside) short]
    exact ⟨frame, .inr (.inr rfl)⟩
  have fits : FitsWindow len d s := ⟨nonzero, Nat.le_of_not_lt inside, Nat.le_of_not_lt short⟩
  obtain ⟨t, answer, done, -⟩ := done fits
  rw [answer]
  exact ⟨next, len, d, h1, h54, fits, done⟩

theorem newMatch_wholeMatch {distance : State → Res Dist} (hw : P.AsWritten) (wf : Memory.wf s.dst = true)
    (operand : ∀ u, ReaderFrame s u → MatchOperand s (fun _ => True) (distance u)) :
    WholeMatch s (newMatch P distance s) := by
  refine WholeMatch.bind ((decodeLen_reads hw s).matchOperand (ReaderFrame.refl s)) fun len u hlen first => ?_
  refine WholeMatch.bind (operand u first) fun d v _ second => ?_
  exact matchFinish_wholeMatch wf (by omega) hlen.2 second

theorem reuseMatch_wholeMatch {next : Vector DecState 12} {symbol : Nat → State → Res Nat} {value : Nat → Nat}
    (wf : Memory.wf s.dst = true)
    (operand : ∀ slot u, slot < 8 → ReaderFrame s u →
      MatchOperand s (fun x => 1 ≤ value x ∧ value x ≤ 54) (symbol slot u)) :
    WholeMatch s (reuseMatch P next symbol value s) := by
  refine WholeMatch.bind (decodeSlot_matchOperand s) fun slot u slot_lt first => ?_
  refine WholeMatch.bind (operand slot u slot_lt first) fun x v hx second => ?_
  exact matchFinish_wholeMatch wf hx.1 hx.2 second

/-- Every match operation is the whole match, or a raise. -/
theorem exec_match_wholeMatch {i : Instr} (wf : Memory.wf s.dst = true)
    (h : i = .matchFar ∨ i = .matchNear0 ∨ i = .matchNear1 ∨ i = .rep ∨ i = .shortrep) :
    ∃ r, exec i s = settle r ∧ WholeMatch s r := by
  have hw := params_asWritten
  rcases h with rfl | rfl | rfl | rfl | rfl
  · exact ⟨_, exec_matchFar s, newMatch_wholeMatch hw wf fun u frame =>
      ((decodeFar_reads hw u).mono le_rfl (fun _ hj => hj) fun _ _ => trivial).matchOperand frame⟩
  · exact ⟨_, exec_matchNear (.inl ⟨rfl, rfl⟩) s, newMatch_wholeMatch hw wf fun u =>
      decodeNear_matchOperand hw (by omega)⟩
  · exact ⟨_, exec_matchNear (.inr ⟨rfl, rfl⟩) s, newMatch_wholeMatch hw wf fun u =>
      decodeNear_matchOperand hw (by omega)⟩
  · exact ⟨_, exec_rep s, reuseMatch_wholeMatch wf fun slot u _ frame =>
      ((decodeLen_reads hw u).mono le_rfl (fun _ hj => hj) fun x hx => by
        change 1 ≤ x ∧ x ≤ 54
        omega).matchOperand frame⟩
  · exact ⟨_, exec_shortrep s, reuseMatch_wholeMatch wf fun slot u slot_lt frame =>
      ((shortLen_reads u.dstate slot_lt u).mono le_rfl (fun _ hj => hj) fun x hx => by omega).matchOperand frame⟩

end Sys2Proof.Machine

namespace Sys2Proof.Proofs

open Sys2Proof.Machine Sys2Proof.Safety

/-- Settles O30: the distance of MATCH_FAR is never 0, and at most 1048560. -/
theorem matchFarCopiesFromAFarDistance : Obligations.MatchFarCopiesFromAFarDistance := by
  unfold Obligations.MatchFarCopiesFromAFarDistance
  intro s wf wfCells
  have hw := params_asWritten
  have meaning := exec_matchFar s
  refine ⟨fun f u raised => exec_of_raised meaning (newMatch_of_raised_length raised),
    fun len u hlen => ⟨fun f v raised => exec_of_raised meaning (newMatch_of_raised_distance hlen raised),
      fun d v hd => ?_⟩, fun supply window room => ?_⟩
  · obtain ⟨⟨pos, -⟩, step⟩ := (decodeFar_reads hw u).of_ok hd
    have tail := newMatch_finishes hw wf hlen hd step.frame
    have nonzero : d ≠ 0 := ne_zero_of_one_le pos
    obtain ⟨distance, room, done⟩ := tail.exec_cases meaning
    exact ⟨fun beyond => distance (.inr beyond), room nonzero, done⟩
  · have answers (u : State) (_ : ReaderFrame s u) (supply : Supply Config.params 13 u) :
        ∃ d v, decodeFar Config.params u = .ok d v ∧ (1 ≤ d.toNat ∧ d.toNat ≤ 1048560) ∧
          ReaderStep Config.params FarCell u v := by
      obtain ⟨d, v, hd, range, step, -⟩ := (decodeFar_reads hw u).supplied (n := 0) supply
      exact ⟨d, v, hd, range, step⟩
    obtain ⟨len, d, t, h2, h54, ⟨low, high⟩, answer, done, kept⟩ :=
      newMatch_completes hw meaning wf wfCells supply room answers fun d range =>
        ⟨ne_zero_of_one_le range.1, range.2.trans window⟩
    exact ⟨len, d, t, h2, h54, low, high, answer, done, fun j notLen notFar =>
      kept j (mt lenCell_bounds notLen) (mt farCell_bounds notFar)⟩

/-- Settles O31: the near distance is taken from the history that the length has left as it was. -/
theorem matchNearCopiesFromANearDistance : Obligations.MatchNearCopiesFromANearDistance := by
  unfold Obligations.MatchNearCopiesFromANearDistance
  intro i k hik s wf wfCells
  have hw := params_asWritten
  have hk : k < 2 := by omega
  have meaning := exec_matchNear hik s
  refine ⟨fun f u raised => exec_of_raised meaning (newMatch_of_raised_length raised),
    fun len u hlen => ⟨fun f v raised => exec_of_raised meaning (newMatch_of_raised_distance hlen raised),
      fun missing => ?_, fun d v hd => ?_⟩, fun supply present low high window room => ?_⟩
  · have kept : u.histLen = s.histLen := by rw [((decodeLen_reads hw s).of_ok hlen).2.frame]
    exact exec_of_raised meaning (newMatch_of_raised_distance hlen (decodeNear_of_missing (kept ▸ missing)))
  · obtain ⟨⟨-, nonzero, -, -⟩, step⟩ := decodeNear_of_ok hw hk hd
    have tail := newMatch_finishes hw wf hlen hd step.frame
    obtain ⟨distance, room, done⟩ := tail.exec_cases meaning
    exact ⟨fun beyond => distance (.inr beyond), room nonzero, done⟩
  · have answers (u : State) (frame : ReaderFrame s u) (supply : Supply Config.params 6 u) :
        ∃ d v, decodeNear Config.params k u = .ok d v ∧ IsNear (histAt s k) d ∧
          ReaderStep Config.params (NearCell k) u v := by
      have kept : u.histLen = s.histLen := by rw [frame]
      rw [← histAt_of_frame frame k] at low high ⊢
      exact decodeNear_answers hw hk supply (kept ▸ present) low high
    obtain ⟨len, d, t, h2, h54, near, answer, done, kept⟩ :=
      newMatch_completes hw meaning wf wfCells supply room answers fun d near => by
        obtain ⟨-, nonzero, -, above⟩ := near
        exact ⟨nonzero, by omega⟩
    exact ⟨len, d, t, h2, h54, near, answer, done, fun j notLen notNear =>
      kept j (mt lenCell_bounds notLen) (mt nearCell_bounds notNear)⟩

/-- Settles O32: REP reads its length as a match at a new distance does. -/
theorem repReusesASlot : Obligations.RepReusesASlot := by
  unfold Obligations.RepReusesASlot
  intro s wf wfCells slotBase
  have hw := params_asWritten
  have meaning := exec_rep s
  refine ⟨fun f u raised => exec_of_raised meaning (reuseMatch_of_raised_slot (Res.bind_eq_raised.mpr (.inl raised))),
    fun slot u hslot => ⟨fun empty =>
      exec_of_raised meaning (reuseMatch_of_raised_slot (decodeSlot_of_empty hslot empty)), fun valid => ?_⟩,
    fun supply full inWindow room => ?_⟩
  · have hslot := decodeSlot_of_valid hslot valid
    refine ⟨fun f v raised => exec_of_raised meaning (reuseMatch_of_raised_symbol hslot raised), fun len v hlen => ?_⟩
    obtain ⟨⟨-, h54⟩, step⟩ := (decodeLen_reads hw u).of_ok hlen
    exact (reuseMatch_finishes wf hslot hlen step.frame h54).exec_cases meaning
  · obtain ⟨slot, len, t, slot_lt, h2, h54, answer, done, kept⟩ :=
      reuseMatch_completes meaning wf wfCells supply full inWindow room le_rfl fun _ u _ _ => decodeLen_reads hw u
    exact ⟨slot, len, t, slot_lt, h2, h54, answer, done, fun j notSlot notLen =>
      kept j (mt slotCell_bounds notSlot) (mt lenCell_bounds notLen)⟩

/-- Settles O33: SHORTREP reads its length in the one model of DSTATE and the slot. -/
theorem shortRepCopiesOneToEight : Obligations.ShortRepCopiesOneToEight := by
  unfold Obligations.ShortRepCopiesOneToEight
  intro s wf wfCells slotBase lenBase
  have meaning := exec_shortrep s
  refine ⟨fun f u raised => exec_of_raised meaning (reuseMatch_of_raised_slot (Res.bind_eq_raised.mpr (.inl raised))),
    fun slot u hslot => ⟨fun empty =>
      exec_of_raised meaning (reuseMatch_of_raised_slot (decodeSlot_of_empty hslot empty)), fun valid => ?_⟩,
    fun supply full inWindow room => ?_⟩
  · have slot_lt : slot < 8 := ((repSlot_reads s).of_ok hslot).1
    have symbol : shortLenSymbol Config.params slot u = decode3 Config.params (lenBase slot) u :=
      shortLenSymbol_of_frame (slot_frame hslot)
    have hslot := decodeSlot_of_valid hslot valid
    refine ⟨fun f v raised => exec_of_raised meaning (reuseMatch_of_raised_symbol hslot (symbol.trans raised)),
      fun slen v hlen => ?_⟩
    have hlen := symbol.trans hlen
    obtain ⟨slen_lt, step⟩ := (shortLen_reads u.dstate slot_lt u).of_ok hlen
    have h54 : 1 + slen ≤ 54 := by omega
    exact (reuseMatch_finishes wf hslot hlen step.frame h54).exec_cases meaning
  · have reads (slot : Nat) (u : State) (slot_lt : slot < 8) (frame : ReaderFrame s u) :
        Reads Config.params (InTree (shortLenBase s.dstate slot) 8) 3 u (shortLenSymbol Config.params slot u)
          fun x => 1 ≤ 1 + x ∧ 1 + x ≤ 8 := by
      rw [shortLenSymbol_of_frame frame]
      exact (shortLen_reads s.dstate slot_lt u).mono le_rfl (fun _ hj => hj) fun x hx => by omega
    obtain ⟨slot, len, t, slot_lt, h1, h8, answer, done, kept⟩ :=
      reuseMatch_completes meaning wf wfCells supply full inWindow room (by omega) reads
    exact ⟨slot, len, t, slot_lt, h1, h8, answer, done, fun j notSlot notLen =>
      kept j (mt slotCell_bounds notSlot) (mt shortLenCell_bounds notLen)⟩

/-- Settles O34: each match operation is its operands, of which none writes more than the reader and cells, then
the tail. -/
theorem matchIsWholeOrUntouched : Obligations.MatchIsWholeOrUntouched := by
  unfold Obligations.MatchIsWholeOrUntouched
  intro i s wf operation
  obtain ⟨r, meaning, whole⟩ := exec_match_wholeMatch wf operation
  cases r with
  | ok x t => exact ⟨t, meaning, .inl whole⟩
  | raised c u =>
    obtain ⟨frame, cause⟩ := whole
    exact ⟨_, meaning, .inr ⟨c, u, frame, rfl, cause⟩⟩

end Sys2Proof.Proofs
end

section
/-! PROOF. The loop of DECODE (44_quantum_loop.md R200, R204): its steps make the one transition of the pseudocode, and
it is over when the region is full or an operation raises. -/

namespace Sys2Proof.Machine

open Sys2Proof.Config (Params)
open Sys2Proof.Safety

variable {P : Params} {T : Nat → Prop} {s t : State}

/-! ### What one operation leaves to the loop -/

/-- From `s` to `t` the loop has come nearer to its end: WP moved on, not past ARG_DST_END, and neither the block's
phase nor the host's pending events changed. -/
structure Advances (s t : State) : Prop where
  ahead : s.wp < t.wp
  wp_le : t.wp ≤ t.argDstEnd
  argDstEnd_eq : t.argDstEnd = s.argDstEnd
  phase_eq : t.phase = s.phase
  script_eq : t.script = s.script

theorem Advances.roomLeft_lt (h : Advances s t) : roomLeft t < roomLeft s := by
  obtain ⟨ahead, wp_le, argDstEnd_eq, -, -⟩ := h
  unfold roomLeft
  rw [argDstEnd_eq] at wp_le ⊢
  bv_omega

theorem OpStep.advances (op : OpStep P T s t) (wp_le : s.wp ≤ s.argDstEnd) : Advances s t := by
  obtain ⟨n, pos, -, room, moved, -⟩ := op.written
  have same_end : t.argDstEnd = s.argDstEnd := by rw [op.frame]
  unfold roomLeft at room
  exact ⟨by rw [moved]; bv_omega, by rw [same_end, moved]; bv_omega, same_end, by rw [op.frame], by rw [op.frame]⟩

theorem wp_lt_of_room (h : 1 ≤ roomLeft s) (wp_le : s.wp ≤ s.argDstEnd) : s.wp < s.argDstEnd := by
  unfold roomLeft at h
  bv_omega

/-- One operation of the loop advances it, or raises with WP and ARG_DST_END where they were. -/
theorem quantumStep_advances (hw : P.AsWritten) (room : s.wp < s.argDstEnd) :
    (quantumStep P s).Post (fun _ t => Advances s t) (fun _ t => t.wp = s.wp ∧ t.argDstEnd = s.argDstEnd) := by
  have wp_le : s.wp ≤ s.argDstEnd := by bv_omega
  exact (quantumStep_operates hw (roomLeft_pos room)).mono (fun _ _ op => op.advances wp_le)
    fun _ _ raised => ⟨by rw [raised.1.frame], by rw [raised.1.frame]⟩

/-! ### The loop of the pseudocode -/

theorem quantumLoop_of_full (full : ¬s.wp < s.argDstEnd) (fuel : Nat) : quantumLoop P fuel s = .ok () s := by
  cases fuel with
  | zero => rfl
  | succ fuel => exact if_neg full

theorem quantumLoop_of_ok {fuel : Nat} (room : s.wp < s.argDstEnd) (h : quantumStep P s = .ok () t) :
    quantumLoop P (fuel + 1) s = quantumLoop P fuel t := by
  rw [quantumLoop, if_pos room, h, Res.ok_bind]

theorem quantumLoop_of_raised {fuel : Nat} {c : Cause} (room : s.wp < s.argDstEnd) (h : quantumStep P s = .raised c t) :
    quantumLoop P (fuel + 1) s = .raised c t := by
  rw [quantumLoop, if_pos room, h, Res.raised_bind]

/-- Where WP is when the loop ends, with fuel for every byte of the room: at ARG_DST_END, or short of it where an
operation raised. -/
theorem quantumLoop_wp (hw : P.AsWritten) {fuel : Nat} (fueled : roomLeft s ≤ fuel) (wp_le : s.wp ≤ s.argDstEnd) :
    (quantumLoop P fuel s).Post (fun _ t => t.wp = s.argDstEnd) (fun _ t => s.wp ≤ t.wp ∧ t.wp ≤ s.argDstEnd) := by
  induction fuel generalizing s with
  | zero =>
    unfold roomLeft at fueled
    change s.wp = s.argDstEnd
    bv_omega
  | succ fuel ih =>
    by_cases room : s.wp < s.argDstEnd
    · have one := quantumStep_advances hw room
      rcases h : quantumStep P s with ⟨⟨⟩, t⟩ | ⟨c, t⟩
      · have adv := one.of_ok h
        have nearer : roomLeft t ≤ fuel := Nat.le_of_lt_succ (Nat.lt_of_lt_of_le adv.roomLeft_lt fueled)
        have rest := ih nearer adv.wp_le
        rw [quantumLoop_of_ok room h]
        rw [adv.argDstEnd_eq] at rest
        have behind : s.wp ≤ t.wp := BitVec.le_of_lt adv.ahead
        exact rest.mono (fun _ _ full => full) fun _ _ within => ⟨BitVec.le_trans behind within.1, within.2⟩
      · obtain ⟨same_wp, -⟩ := one.of_raised h
        rw [quantumLoop_of_raised room h]
        exact ⟨same_wp ▸ BitVec.le_refl _, same_wp ▸ wp_le⟩
    · rw [quantumLoop_of_full room]
      change s.wp = s.argDstEnd
      bv_omega

/-- The loop of DECODE and the lines after it (44_quantum_loop.md R200). -/
def loopToEnd (P : Params) (fuel : Nat) (s : State) : Res Unit :=
  (quantumLoop P fuel s).bind fun _ t => .ok () (completeDecode t)

/-- DECODE is what its first step does, and where that leaves the block BUSY the loop to its end. -/
theorem decodeQuantum_eq (P : Params) (s : State) :
    decodeQuantum P s = (startDecode P s).bind fun _ t =>
      if t.phase = .busy then loopToEnd P (roomLeft t) t else .ok () t := by
  unfold decodeQuantum startDecode
  rcases checkArgs_cases (acceptCommand s) with ⟨-, checked⟩ | ⟨-, checked | checked⟩ <;>
    rw [checked] <;> simp only [Res.ok_bind, Res.raised_bind]
  split
  · rfl
  · have reader := readerInit_cases (P := P) ((acceptCommand s).setWp (acceptCommand s).argDst)
    rcases reader with ⟨-, loaded⟩ | ⟨-, loaded⟩ <;> rw [loaded] <;> rfl

/-- The command ends by completing, where the loop filled the region, or by fault entry, where an operation raised. -/
theorem settle_loopToEnd {fuel : Nat} (h : settle (loopToEnd P fuel s) = .next t) :
    (∃ u, quantumLoop P fuel s = .ok () u ∧ t = completeDecode u) ∨
      ∃ c u, quantumLoop P fuel s = .raised c u ∧ t = faultEntry c u := by
  unfold loopToEnd at h
  rcases ended : quantumLoop P fuel s with ⟨⟨⟩, u⟩ | ⟨c, u⟩ <;> rw [ended] at h <;> cases h
  · exact .inl ⟨u, rfl, rfl⟩
  · exact .inr ⟨c, u, rfl, rfl⟩

/-! ### The steps of the machine -/

theorem runFor_one (h : step s = .next t) : runFor 1 s = .next t := by
  rw [runFor, h]; rfl

theorem runFor_succ (n : Nat) (h : step s = .next t) : runFor (n + 1) s = runFor n t := by
  rw [runFor, h]

/-- With no event inside the command a step of a BUSY block is one iteration of the loop, or its end. -/
theorem step_quiet (busy : s.phase = .busy) (quiet : NoEventInside s) :
    step s = if s.wp < s.argDstEnd then settle (quantumStep Config.params s) else .next (completeDecode s) := by
  obtain ⟨none_due, same_script⟩ := dueEvent_none busy quiet
  rw [step_loop ⟨busy, none_due⟩, same_script]
  rfl

theorem noEventInside_congr (h : NoEventInside s) (same : t.script = s.script) : NoEventInside t := by
  unfold NoEventInside
  rw [same]
  exact h

/-- A BUSY block that no event interrupts runs the loop of the pseudocode to its end, one operation a step. -/
theorem runFor_loopToEnd {fuel : Nat} (busy : s.phase = .busy) (quiet : NoEventInside s) (wp_le : s.wp ≤ s.argDstEnd)
    (fueled : roomLeft s ≤ fuel) :
    ∃ n t, n ≤ fuel + 1 ∧ runFor n s = .next t ∧ settle (loopToEnd Config.params fuel s) = .next t := by
  induction fuel generalizing s with
  | zero =>
    have full : ¬s.wp < s.argDstEnd := fun room => absurd (roomLeft_pos room) (by omega)
    exact ⟨1, _, le_rfl, runFor_one ((step_quiet busy quiet).trans (if_neg full)), rfl⟩
  | succ fuel ih =>
    unfold loopToEnd
    by_cases room : s.wp < s.argDstEnd
    · have one := quantumStep_advances params_asWritten room
      have stepped := (step_quiet busy quiet).trans (if_pos room)
      rcases h : quantumStep Config.params s with ⟨⟨⟩, t⟩ | ⟨c, t⟩
      · have adv := one.of_ok h
        rw [quantumLoop_of_ok room h]
        have nearer : roomLeft t ≤ fuel := Nat.le_of_lt_succ (Nat.lt_of_lt_of_le adv.roomLeft_lt fueled)
        obtain ⟨n, u, bound, ran, ended⟩ := ih (adv.phase_eq.trans busy)
          (noEventInside_congr quiet adv.script_eq) adv.wp_le nearer
        rw [h] at stepped
        exact ⟨n + 1, u, by omega, (runFor_succ n stepped).trans ran, ended⟩
      · rw [quantumLoop_of_raised room h]
        rw [h] at stepped
        exact ⟨1, _, by omega, runFor_one stepped, rfl⟩
    · rw [quantumLoop_of_full room]
      exact ⟨1, _, by omega, runFor_one ((step_quiet busy quiet).trans (if_neg room)), rfl⟩

/-- A DECODE whose first step leaves the block BUSY has all of its room before it. -/
theorem startDecode_busy (h : startDecode P s = .ok () t) (busy : t.phase = .busy) :
    t.wp ≤ t.argDstEnd ∧ roomLeft t = (s.argDstEnd - s.argDst).toNat ∧ t.script = s.script := by
  rcases startDecode_cases P s with ⟨-, e | e⟩ | ⟨-, -, e⟩ | ⟨-, room, e⟩ <;> rw [e] at h
  · cases h
  · cases h
  · cases h
    cases busy
  · rcases readerInit_cases (P := P) ((acceptCommand s).setWp s.argDst) with ⟨-, loaded⟩ | ⟨-, loaded⟩ <;>
      rw [loaded] at h <;> cases h
    exact ⟨BitVec.le_of_lt room, rfl, rfl⟩

end Sys2Proof.Machine

namespace Sys2Proof.Proofs

open Sys2Proof.Machine Sys2Proof.Safety

/-- Settles O58: the first step does what precedes the loop; where it leaves the block BUSY, the steps after it are the
loop, one operation each. -/
theorem decodeRunsAsOneQuantum : Obligations.DecodeRunsAsOneQuantum := by
  unfold Obligations.DecodeRunsAsOneQuantum
  intro s e rest v idle script action decoded quiet
  have first : step s = settle (startDecode Config.params (s.setScript rest)) := by
    rw [step_of_nextMove_instr (nextMove_command idle script action), decoded]
    rfl
  rw [decodeQuantum_eq]
  rcases started : startDecode Config.params (s.setScript rest) with ⟨⟨⟩, t⟩ | ⟨c, t⟩ <;> rw [started] at first
  · rw [Res.ok_bind]
    cases phase : t.phase with
    | idle => exact ⟨1, t, by omega, runFor_one first, phase, rfl⟩
    | busy =>
      obtain ⟨wp_le, room, same_script⟩ := startDecode_busy started phase
      obtain ⟨n, u, bound, ran, ended⟩ := runFor_loopToEnd phase (noEventInside_congr quiet same_script) wp_le le_rfl
      have idle_again : u.phase = .idle := by
        rcases settle_loopToEnd ended with ⟨w, -, rfl⟩ | ⟨c, w, -, rfl⟩ <;> rfl
      have bound' : n ≤ (s.argDstEnd - s.argDst).toNat + 1 := room ▸ bound
      exact ⟨n + 1, u, by omega, (runFor_succ n first).trans ran, idle_again, ended⟩
  · exact ⟨1, _, by omega, runFor_one first, rfl, rfl⟩

/-- Settles O57: the steps are the loop, and WP is where the loop leaves it. -/
theorem decodeTerminates : Obligations.DecodeTerminates := by
  unfold Obligations.DecodeTerminates
  intro s inv busy quiet
  have wp_le := (inv.window busy).wp_le
  obtain ⟨n, t, bound, ran, ended⟩ := runFor_loopToEnd busy quiet wp_le le_rfl
  have at_end := quantumLoop_wp params_asWritten (s := s) le_rfl wp_le
  rcases settle_loopToEnd ended with ⟨u, looped, rfl⟩ | ⟨c, u, looped, rfl⟩
  · have full : u.wp = s.argDstEnd := at_end.of_ok looped
    exact ⟨n, _, bound, ran, rfl, .inl ⟨rfl, full, rfl⟩⟩
  · have within : s.wp ≤ u.wp ∧ u.wp ≤ s.argDstEnd := at_end.of_raised looped
    exact ⟨n, _, bound, ran, rfl, .inr ⟨rfl, within⟩⟩

end Sys2Proof.Proofs
end

section
/-! PROOF. The edges of DECODE (44_quantum_loop.md): the checks and the start of a command (R200 to R202), the choice of
the operation (R203), the transition tables (R205) and the end of the loop (R206). -/

namespace Sys2Proof.Machine

open Sys2Proof.Config (Params)
open Sys2Proof.Safety

variable {P : Params} {s t u : State}

/-! ### Accepting a DECODE -/

theorem exec_decode (s : State) : exec .decode s = settle (startDecode Config.params s) := rfl

/-- A refused DECODE is the fault entry of the check that failed (44_quantum_loop.md R201, 60_exceptions.md R239). -/
theorem exec_decode_of_refused {c : Cause} (h : checkArgs (acceptCommand s) = .raised c (acceptCommand s)) :
    exec .decode s = .next (faultEntry c s) := by
  rw [exec_decode, startDecode, h]
  rfl

theorem checkArgs_of_invalid (invalid : s.ctxValid = false) : checkArgs s = .raised .notInitialised s := if_pos invalid

theorem checkArgs_of_destination (valid : s.ctxValid = true)
    (h : ¬(s.argDstStart ≤ s.argDst ∧ s.argDst ≤ s.argDstEnd)) :
    checkArgs s = .raised .badArguments s := by
  unfold checkArgs
  rw [if_neg (by rw [valid]; decide), if_pos h]

theorem checkArgs_of_source (valid : s.ctxValid = true) (start_le : s.argDstStart ≤ s.argDst)
    (dst_le : s.argDst ≤ s.argDstEnd) (h : ¬s.argSrc ≤ s.argSrcEnd) : checkArgs s = .raised .badArguments s := by
  unfold checkArgs
  rw [if_neg (by rw [valid]; decide), if_neg (not_not.mpr ⟨start_le, dst_le⟩), if_pos h]

theorem checkArgs_of_ok (h : ArgsOk s) : checkArgs s = .ok () s := by
  rcases checkArgs_cases s with ⟨-, passed⟩ | ⟨refused, -⟩
  · exact passed
  · exact absurd h refused

/-- A DECODE whose checks pass and that has no byte to fill completes at once (44_quantum_loop.md R202). -/
theorem startDecode_of_empty (h : ArgsOk s) (empty : s.argDst = s.argDstEnd) :
    startDecode P s = .ok () (completeDecode (((acceptCommand s).setWp s.argDst).setReader s.argSrc s.argSrcEnd)) := by
  have passed : checkArgs (acceptCommand s) = .ok () (acceptCommand s) := checkArgs_of_ok h
  rw [startDecode, passed]
  exact if_pos empty

/-- A DECODE whose checks pass and that has bytes to fill constructs the reader (44_quantum_loop.md R200). -/
theorem startDecode_of_room (h : ArgsOk s) (room : s.argDst < s.argDstEnd) :
    startDecode P s = readerInit P ((acceptCommand s).setWp s.argDst) := by
  have passed : checkArgs (acceptCommand s) = .ok () (acceptCommand s) := checkArgs_of_ok h
  rw [startDecode, passed]
  exact if_neg (BitVec.ne_of_lt room)

/-! ### Choosing the operation (44_quantum_loop.md R203) -/

/-- The operation that a type value names (30_encoding.md R93, R101). -/
def typedOperation (P : Params) (n : Nat) (s : State) : Res Unit :=
  if n = P.tFar.toNat then matchFar P s
  else if n = P.tNear0.toNat then matchNear P 0 s
  else if n = P.tNear1.toNat then matchNear P 1 s
  else if n = P.tRep.toNat then repMatch P s
  else if n = P.tShortrep.toNat then shortRepMatch P s
  else .raised .modelCorruption s

/-- The decisions that pick an operation, and what is done with them: `lit` where the is-literal bit of DSTATE and the
position is 1, `typed` with the type nibble of DSTATE where it is 0. -/
def selectThen {α : Type} (P : Params) (lit : State → Res α) (typed : Nat → State → Res α) (s : State) : Res α :=
  (decodeBit P (isLitCell s.dstate (posIndex P s)) s).bind fun l u =>
  if l then lit u else (decodeTree P (typeBase s.dstate) 4 u).bind typed

/-- Fetching a selector answers the decisions as a selector word. -/
theorem fetchSelector_eq (P : Params) (s : State) :
    fetchSelector P s = selectThen P (.ok 0b10000) (fun n => .ok (BitVec.ofNat 5 n)) s := rfl

/-- One iteration of the loop runs the operation that the decisions pick. -/
theorem quantumStep_eq (P : Params) (s : State) : quantumStep P s = selectThen P (literal P) (typedOperation P) s := rfl

section SelectThen

variable {α : Type} {lit : State → Res α} {typed : Nat → State → Res α} {c : Cause} {n : Nat}

theorem selectThen_of_raised (h : decodeBit P (isLitCell s.dstate (posIndex P s)) s = .raised c u) :
    selectThen P lit typed s = .raised c u := by
  rw [selectThen, h]; rfl

theorem selectThen_of_literal (h : decodeBit P (isLitCell s.dstate (posIndex P s)) s = .ok true u) :
    selectThen P lit typed s = lit u := by
  rw [selectThen, h]; rfl

theorem selectThen_of_raised_type (h : decodeBit P (isLitCell s.dstate (posIndex P s)) s = .ok false u)
    (htype : decodeTree P (typeBase s.dstate) 4 u = .raised c t) : selectThen P lit typed s = .raised c t := by
  rw [selectThen, h, Res.ok_bind, htype]; rfl

theorem selectThen_of_type (h : decodeBit P (isLitCell s.dstate (posIndex P s)) s = .ok false u)
    (htype : decodeTree P (typeBase s.dstate) 4 u = .ok n t) : selectThen P lit typed s = typed n t := by
  rw [selectThen, h, Res.ok_bind, htype]; rfl

end SelectThen

/-- Five distinct code points (00_scope.md R7) name five operations, and every other type value is reserved. -/
theorem typedOperation_cases (distinct : P.codePoints.Nodup) (n : Nat) (s : State) :
    (n = P.tFar.toNat → typedOperation P n s = matchFar P s) ∧
    (n = P.tNear0.toNat → typedOperation P n s = matchNear P 0 s) ∧
    (n = P.tNear1.toNat → typedOperation P n s = matchNear P 1 s) ∧
    (n = P.tRep.toNat → typedOperation P n s = repMatch P s) ∧
    (n = P.tShortrep.toNat → typedOperation P n s = shortRepMatch P s) ∧
    ((∀ code ∈ P.codePoints, n ≠ code.toNat) → typedOperation P n s = .raised .modelCorruption s) := by
  have apart : (P.codePoints.map BitVec.toNat).Nodup := distinct.map fun _ _ => BitVec.eq_of_toNat_eq
  simp only [Params.codePoints, List.map_cons, List.map_nil, List.nodup_cons, List.mem_cons, List.not_mem_nil,
    or_false, not_or] at apart
  obtain ⟨⟨far0, far1, far2, far3⟩, ⟨near01, near02, near03⟩, ⟨near12, near13⟩, rep, -⟩ := apart
  unfold typedOperation
  refine ⟨?_, ?_, ?_, ?_, ?_, fun other => ?_⟩
  · rintro rfl; exact if_pos rfl
  · rintro rfl; rw [if_neg (Ne.symm far0), if_pos rfl]
  · rintro rfl; rw [if_neg (Ne.symm far1), if_neg (Ne.symm near01), if_pos rfl]
  · rintro rfl; rw [if_neg (Ne.symm far2), if_neg (Ne.symm near02), if_neg (Ne.symm near12), if_pos rfl]
  · rintro rfl
    rw [if_neg (Ne.symm far3), if_neg (Ne.symm near03), if_neg (Ne.symm near13), if_neg (Ne.symm rep), if_pos rfl]
  · simp only [Params.codePoints, List.forall_mem_cons] at other
    obtain ⟨far, near0, near1, rep, shortrep, -⟩ := other
    rw [if_neg far, if_neg near0, if_neg near1, if_neg rep, if_neg shortrep]

/-! ### The end of the loop (44_quantum_loop.md R206) -/

/-- The count of source bytes fetched, from cursors in order: the header, whole refills, and no more than declared. -/
theorem CursorsOk.bytesFetched (h : CursorsOk s) :
    (∃ k, (s.cur - s.argSrc).toNat = 16 + 4 * k) ∧ s.cur - s.argSrc ≤ s.argSrcEnd - s.argSrc := by
  obtain ⟨src_le, cur_le, lim_eq, header, words⟩ := h
  rw [lim_eq] at cur_le
  exact ⟨⟨((s.cur - s.argSrc).toNat - 16) / 4, by omega⟩, by bv_omega⟩

end Sys2Proof.Machine

namespace Sys2Proof.Proofs

open Sys2Proof.Machine Sys2Proof.Safety
/-- Settles O36: the clauses on the answer follow the two decisions; what they may have changed is what symbols can. -/
theorem selectorIsIsLitThenType : Obligations.SelectorIsIsLitThenType := by
  unfold Obligations.SelectorIsIsLitThenType
  intro P s hw wf
  have cell_eq : 8 * s.dstate.val + (s.wp - s.argDstStart).toNat % 8 = isLitCell s.dstate (posIndex P s) := by
    rw [posIndex_eq hw]; rfl
  have type_reads (u : State) := decodeTree_reads (P := P) (T := InTree (typeBase s.dstate) 16) (depth := 4)
    (typeBase_le s) (fun _ h => h) u
  rw [cell_eq, fetchSelector_eq]
  refine ⟨fun f u => selectThen_of_raised, fun u => selectThen_of_literal, fun u plain =>
    ⟨fun f v => selectThen_of_raised_type plain, fun n v answer =>
      ⟨((type_reads u).of_ok answer).1, selectThen_of_type plain answer⟩⟩, fun sel t fetched => ?_⟩
  obtain ⟨-, symbols⟩ := (fetchSelector_reads hw s).of_ok fetched
  refine ⟨symbols.frame, fun j not_bit not_type => symbols.kept wf j ?_⟩
  rintro (bit | type)
  · exact not_bit bit
  · exact not_type type

/-- Settles O37: one iteration is the is-literal decision, then the type, whose value names the operation. -/
theorem typeCodePointsPickTheOperation : Obligations.TypeCodePointsPickTheOperation := by
  unfold Obligations.TypeCodePointsPickTheOperation
  intro P s wf
  obtain ⟨-, -, -, -, -, -, -, -, -, -, -, distinct⟩ := wf
  rw [quantumStep_eq]
  refine ⟨fun f u => selectThen_of_raised, fun u => selectThen_of_literal, fun u plain =>
    ⟨fun f v => selectThen_of_raised_type plain, fun n v answer => ?_⟩⟩
  rw [selectThen_of_type plain answer]
  exact typedOperation_cases distinct n v

/-- Settles O40: the checks pass and there is room, so the command is `ReaderInit`, in its two ways to end. -/
theorem decodeStartsTheReader : Obligations.DecodeStartsTheReader := by
  unfold Obligations.DecodeStartsTheReader
  intro s valid start_le room src_le
  have args : ArgsOk s := ⟨valid, start_le, BitVec.le_of_lt room, src_le⟩
  rw [exec_decode, startDecode_of_room args room]
  obtain ⟨loads, truncates, -⟩ := readerInitLoadsTheHeader Config.params ((acceptCommand s).setWp s.argDst)
  refine ⟨fun enough => ?_, fun short => ?_⟩
  · obtain ⟨t, loaded, frame, -, -, words⟩ := loads enough
    exact ⟨t, by rw [loaded]; rfl, frame, words params_asWritten⟩
  · rw [truncates short]
    rfl

/-- Settles O44: the step is the completion, and the cursors give its byte count. -/
theorem loopEndsWithTheByteCount : Obligations.LoopEndsWithTheByteCount := by
  unfold Obligations.LoopEndsWithTheByteCount
  intro s turn full
  have stepped := (step_loop turn).trans (if_neg (BitVec.not_lt.mpr full))
  exact ⟨_, stepped, rfl, CursorsOk.bytesFetched⟩

/-- Settles O28: finitely many states, each looked up. -/
theorem transitionTables : Obligations.TransitionTables := by
  unfold Obligations.TransitionTables
  exact ⟨rfl, rfl, rfl, rfl, by decide, by decide⟩

/-- Settles O39: the check that fails decides the fault. -/
theorem decodeChecksItsArguments : Obligations.DecodeChecksItsArguments := by
  unfold Obligations.DecodeChecksItsArguments
  intro s
  refine ⟨fun invalid => ?_, fun valid order => ?_, fun valid start_le dst_le order => ?_⟩
  · exact exec_decode_of_refused (checkArgs_of_invalid invalid)
  · exact exec_decode_of_refused (checkArgs_of_destination valid order)
  · exact exec_decode_of_refused (checkArgs_of_source valid start_le dst_le order)

/-- Settles O41: the command completes with CUR where it has just been set, at ARG_SRC. -/
theorem zeroLengthQuantumCompletes : Obligations.ZeroLengthQuantumCompletes := by
  unfold Obligations.ZeroLengthQuantumCompletes
  intro s valid start_le empty src_le
  have args : ArgsOk s := ⟨valid, start_le, empty ▸ BitVec.le_refl _, src_le⟩
  rw [exec_decode, startDecode_of_empty args empty]
  refine ⟨_, rfl, ?_, rfl⟩
  have nothing_fetched : s.argSrc - s.argSrc = 0 := BitVec.sub_self _
  rw [← nothing_fetched]
  rfl

end Sys2Proof.Proofs
end

section
/-! PROOF. What a DECODE depends on (44_quantum_loop.md R209): two states that the decoder cannot tell apart go through
every procedure of a command alike. -/

namespace Sys2Proof.Machine

open Sys2Proof.Config (Params)
open Sys2Proof.Safety

variable {P : Params} {s t : State}

/-! ### States the decoder cannot tell apart -/

/-- Two states agree on every register but RESULT, which a command only writes. They may differ in the memories and in
the model's host interface. -/
def SameRegisters (s t : State) : Prop :=
  t = { s with
    src := t.src, dst := t.dst, result := t.result, script := t.script, readData := t.readData
    freeReads := t.freeReads }

/-- The decoder cannot tell `t` from `s`: the registers agree, and so do the source bytes still to read and the window.
The clauses on `s` alone keep the decoder's reads inside the bytes that agree. -/
structure Alike (s t : State) : Prop where
  registers : SameRegisters s t
  source : ∀ a : Addr, s.cur ≤ a → a < s.lim → Memory.read t.src a = Memory.read s.src a
  window : ∀ a : Addr, s.argDstStart ≤ a → a < s.wp → dstByte t a = dstByte s a
  cur_le : s.cur ≤ s.lim
  start_le : s.argDstStart ≤ s.wp
  wp_le : s.wp ≤ s.argDstEnd
  dst_wf : Memory.wf s.dst = true ∧ Memory.wf t.dst = true
  history : HistoryOk s

namespace Alike

theorem accA (h : Alike s t) : t.accA = s.accA := by rw [h.registers]
theorem accB (h : Alike s t) : t.accB = s.accB := by rw [h.registers]
theorem cur (h : Alike s t) : t.cur = s.cur := by rw [h.registers]
theorem wp (h : Alike s t) : t.wp = s.wp := by rw [h.registers]
theorem dstate (h : Alike s t) : t.dstate = s.dstate := by rw [h.registers]
theorem hist (h : Alike s t) : t.hist = s.hist := by rw [h.registers]
theorem histLen (h : Alike s t) : t.histLen = s.histLen := by rw [h.registers]
theorem cells (h : Alike s t) : t.cells = s.cells := by rw [h.registers]
theorem argDstStart (h : Alike s t) : t.argDstStart = s.argDstStart := by rw [h.registers]
theorem argDstEnd (h : Alike s t) : t.argDstEnd = s.argDstEnd := by rw [h.registers]

theorem cellAt (h : Alike s t) (j : Nat) : cellAt P t j = cellAt P s j := cellAt_congr h.cells j
theorem histAt (h : Alike s t) (i : Nat) : histAt t i = histAt s i := histAt_congr h.hist i
theorem bytesRemaining (h : Alike s t) : bytesRemaining t = bytesRemaining s := by rw [h.registers]; rfl
theorem windowSize (h : Alike s t) : windowSize t = windowSize s := by rw [h.registers]; rfl
theorem roomLeft (h : Alike s t) : roomLeft t = roomLeft s := by rw [h.registers]; rfl
theorem posIndex (h : Alike s t) : posIndex P t = posIndex P s := by rw [h.registers]; rfl
theorem nextState (h : Alike s t) (table : Vector DecState 12) : table[t.dstate] = table[s.dstate] := by
  simp only [h.dstate]
theorem behind (h : Alike s t) (d : Dist) : behind t d = behind s d := by rw [h.registers]; rfl

end Alike

/-- Two procedures end alike: both with the same value, or both with the same cause, in states related by `Q` or `E`. -/
inductive Res.Ends {α : Type} (Q : State → State → Prop) (E : Cause → State → State → Prop) : Res α → Res α → Prop where
  | ok {v : α} {s t : State} : Q s t → Ends Q E (.ok v s) (.ok v t)
  | raised {c : Cause} {s t : State} : E c s t → Ends Q E (.raised c s) (.raised c t)

/-- Two procedures end alike, in states that the decoder cannot tell apart. -/
abbrev EndAlike {α : Type} (r r' : Res α) : Prop := Res.Ends Alike (fun _ => Alike) r r'

theorem Res.Ends.mono {α : Type} {Q Q' : State → State → Prop} {E E' : Cause → State → State → Prop} {r r' : Res α}
    (h : Res.Ends Q E r r') (hQ : ∀ s t, Q s t → Q' s t) (hE : ∀ c s t, E c s t → E' c s t) : Res.Ends Q' E' r r' := by
  cases h with
  | ok after => exact .ok (hQ _ _ after)
  | raised ended => exact .raised (hE _ _ _ ended)

/-- One procedure after another: the second starts where the first ended with a value. -/
theorem Res.Ends.bind {α β : Type} {Q Q' : State → State → Prop} {E : Cause → State → State → Prop} {r r' : Res α}
    {f g : α → State → Res β} (h : Res.Ends Q E r r')
    (next : ∀ v s t, r = .ok v s → Q s t → Res.Ends Q' E (f v s) (g v t)) : Res.Ends Q' E (r.bind f) (r'.bind g) := by
  cases h with
  | ok after => exact next _ _ _ rfl after
  | raised ended => exact .raised ended

/-! ### The reader -/

/-- A source word is made of its bytes. -/
theorem srcWord_congr {n : Nat} {a e : Addr} (le : a ≤ e) (inside : n ≤ (e - a).toNat)
    (same : ∀ b : Addr, a ≤ b → b < e → Memory.read t.src b = Memory.read s.src b) :
    srcWord P t a n = srcWord P s a n := by
  have bytes : srcBytes t a n = srcBytes s a n := by
    unfold srcBytes
    refine List.map_congr_left fun i hi => ?_
    have hi := List.mem_range.mp hi
    exact same _ (by bv_omega) (by bv_omega)
  unfold srcWord
  rw [bytes]

/-- All clauses of `Alike` but the first read the cursors, the memories and the history only. -/
theorem Alike.congr {u v : State} (h : Alike s t) (registers : SameRegisters u v)
    (cursors : u.cur = s.cur ∧ u.lim = s.lim ∧ u.wp = s.wp)
    (region : u.argDstStart = s.argDstStart ∧ u.argDstEnd = s.argDstEnd)
    (memories : u.src = s.src ∧ u.dst = s.dst ∧ v.src = t.src ∧ v.dst = t.dst) (history : HistoryOk u) : Alike u v := by
  obtain ⟨ecur, elim, ewp⟩ := cursors
  obtain ⟨estart, eend⟩ := region
  obtain ⟨esrc, edst, esrc', edst'⟩ := memories
  exact
    { registers, history
      source := by rw [ecur, elim, esrc, esrc']; exact h.source
      window := fun a => by rw [estart, ewp, dstByte_congr edst, dstByte_congr edst']; exact h.window a
      cur_le := by rw [ecur, elim]; exact h.cur_le
      start_le := by rw [estart, ewp]; exact h.start_le
      wp_le := by rw [ewp, eend]; exact h.wp_le
      dst_wf := by rw [edst, edst']; exact h.dst_wf }

theorem Alike.setAcc (h : Alike s t) (a b : Acc) : Alike (s.setAcc a b) (t.setAcc a b) :=
  h.congr (by rw [h.registers]; rfl) ⟨rfl, rfl, rfl⟩ ⟨rfl, rfl⟩ ⟨rfl, rfl, rfl, rfl⟩
    (HistoryOk.congr (s := s) rfl rfl h.history)

theorem Alike.setCell (h : Alike s t) (j : Nat) (v : Prob) : Alike (setCell P s j v) (setCell P t j v) :=
  h.congr (by rw [h.registers]; rfl) ⟨rfl, rfl, rfl⟩ ⟨rfl, rfl⟩ ⟨rfl, rfl, rfl, rfl⟩
    (HistoryOk.congr (s := s) rfl rfl h.history)

theorem Alike.setDstate (h : Alike s t) (d : DecState) : Alike (s.setDstate d) (t.setDstate d) :=
  h.congr (by rw [h.registers]; rfl) ⟨rfl, rfl, rfl⟩ ⟨rfl, rfl⟩ ⟨rfl, rfl, rfl, rfl⟩
    (HistoryOk.congr (s := s) rfl rfl h.history)

theorem Alike.setHist (h : Alike s t) {hist : Vector Dist 8} {n : BitVec 4} (ok : HistoryOk (s.setHist hist n)) :
    Alike (s.setHist hist n) (t.setHist hist n) :=
  h.congr (by rw [h.registers]; rfl) ⟨rfl, rfl, rfl⟩ ⟨rfl, rfl⟩ ⟨rfl, rfl, rfl, rfl⟩ ok

/-- CUR moves on over bytes that need not agree any more. -/
theorem Alike.setCur (h : Alike s t) {c : Addr} (forward : s.cur ≤ c) (inside : c ≤ s.lim) :
    Alike (s.setCur c) (t.setCur c) where
  registers := by rw [h.registers]; rfl
  source a ha := h.source a (BitVec.le_trans forward ha)
  window := h.window
  cur_le := inside
  start_le := h.start_le
  wp_le := h.wp_le
  dst_wf := h.dst_wf
  history := HistoryOk.congr (s := s) rfl rfl h.history

theorem renorm_alike (h : Alike s t) (x : Nat) : EndAlike (renorm P x s) (renorm P x t) := by
  have cur_le := h.cur_le
  unfold renorm
  rw [h.bytesRemaining, h.cur, h.accB]
  split
  · split
    · exact .raised h
    · next enough =>
      unfold bytesRemaining at enough
      rw [srcWord_congr h.cur_le (by omega) h.source]
      exact .ok ((h.setCur (by bv_omega) (by bv_omega)).setAcc _ _)
  · exact .ok (h.setAcc _ _)

theorem decodeBit_alike (h : Alike s t) (j : Nat) : EndAlike (decodeBit P j s) (decodeBit P j t) := by
  unfold decodeBit
  rw [h.cellAt, h.accA]
  exact (renorm_alike (h.setCell j _) _).bind fun _ _ _ _ after => .ok after

theorem readBits_alike (h : Alike s t) (n : Nat) : EndAlike (readBits P n s) (readBits P n t) := by
  unfold readBits
  rw [h.accA]
  exact (renorm_alike h _).bind fun _ _ _ _ after => .ok after

theorem decodeTreeFrom_alike (base depth node : Nat) (h : Alike s t) :
    EndAlike (decodeTreeFrom P base depth node s) (decodeTreeFrom P base depth node t) := by
  induction depth generalizing node s t with
  | zero => exact .ok h
  | succ depth ih => exact (decodeBit_alike h _).bind fun _ _ _ _ after => ih _ after

theorem decodeTree_alike (base depth : Nat) (h : Alike s t) :
    EndAlike (decodeTree P base depth s) (decodeTree P base depth t) :=
  (decodeTreeFrom_alike base depth 1 h).bind fun _ _ _ _ after => .ok after

theorem decodeNibble_alike (base : Nat) (h : Alike s t) : EndAlike (decodeNibble P base s) (decodeNibble P base t) :=
  decodeTree_alike base 4 h

theorem decode3_alike (base : Nat) (h : Alike s t) : EndAlike (decode3 P base s) (decode3 P base t) :=
  decodeTree_alike base 3 h

/-! ### The operands -/

theorem decodeLen_alike (h : Alike s t) : EndAlike (decodeLen P s) (decodeLen P t) := by
  unfold decodeLen
  refine (decode3_alike _ h).bind fun m s t _ h => ?_
  split
  · exact .ok h
  refine (decodeNibble_alike _ h).bind fun n1 s t _ h => ?_
  split
  · exact .ok h
  refine (decodeNibble_alike _ h).bind fun n2 s t _ h => ?_
  split
  · exact .ok h
  exact (decodeNibble_alike _ h).bind fun n3 s t _ h => .ok h

theorem decodeNear_alike (k : Nat) (h : Alike s t) : EndAlike (decodeNear P k s) (decodeNear P k t) := by
  unfold decodeNear
  rw [h.histLen]
  split
  · exact .raised h
  refine (decodeNibble_alike _ h).bind fun e s t _ h => ?_
  refine (decodeTree_alike _ _ h).bind fun lw s t _ h => ?_
  rw [h.histAt]
  dsimp only
  split
  · exact .raised h
  · exact .ok h

theorem decodeFarRest_alike (hi : Nat) (h : Alike s t) : EndAlike (decodeFarRest P hi s) (decodeFarRest P hi t) := by
  unfold decodeFarRest
  split
  · exact .ok h
  split
  · exact decodeTree_alike _ _ h
  refine (readBits_alike h _).bind fun rh s t _ h => ?_
  exact (decodeTree_alike _ _ h).bind fun rl s t _ h => .ok h

theorem decodeFar_alike (h : Alike s t) : EndAlike (decodeFar P s) (decodeFar P t) := by
  unfold decodeFar
  refine (decodeNibble_alike _ h).bind fun hi s t _ h => ?_
  refine (decodeNibble_alike _ h).bind fun lo s t _ h => ?_
  exact (decodeFarRest_alike hi h).bind fun r s t _ h => .ok h

theorem decodeSlot_alike (h : Alike s t) : EndAlike (decodeSlot P s) (decodeSlot P t) := by
  unfold decodeSlot
  rw [h.dstate]
  refine (decode3_alike _ h).bind fun slot s t _ h => ?_
  rw [h.histLen]
  split
  · exact .raised h
  · exact .ok h

/-! ### The literal -/

theorem litPlain_alike (c : Nat) (h : Alike s t) : EndAlike (litPlain P c s) (litPlain P c t) := by
  unfold litPlain
  refine (decodeNibble_alike _ h).bind fun hi s t _ h => ?_
  exact (decodeNibble_alike _ h).bind fun lo s t _ h => .ok h

theorem litMatchedBits_alike (base plain : Nat) (pm : BitVec 4) (n node : Nat) (matched : Bool) (h : Alike s t) :
    EndAlike (litMatchedBits P base plain pm n node matched s) (litMatchedBits P base plain pm n node matched t) := by
  induction n generalizing node matched s t with
  | zero => exact .ok h
  | succ n ih =>
    cases matched with
    | true => exact (decodeBit_alike h _).bind fun _ _ _ _ after => ih _ _ after
    | false => exact (decodeBit_alike h _).bind fun _ _ _ _ after => ih _ _ after

theorem litMatched_alike (c : Nat) (m : Byte) (h : Alike s t) : EndAlike (litMatched P c m s) (litMatched P c m t) := by
  unfold litMatched
  refine (litMatchedBits_alike _ _ _ _ _ _ h).bind fun hi s t _ h => ?_
  exact (litMatchedBits_alike _ _ _ _ _ _ h).bind fun lo s t _ h => .ok h

/-- A byte that a distance in the window points to (43_match.md R175). -/
theorem Alike.dstByte_behind (h : Alike s t) {d : Dist} (pos : d ≠ 0) (near : d.toNat ≤ Machine.windowSize s) :
    dstByte t (Machine.behind s d) = dstByte s (Machine.behind s d) := by
  have start_le := h.start_le
  have wide : (d.setWidth 64).toNat = d.toNat := by
    have := d.isLt
    rw [BitVec.toNat_setWidth]
    omega
  have pos' : d.toNat ≠ 0 := fun zero => pos (BitVec.eq_of_toNat_eq zero)
  unfold Machine.windowSize at near
  unfold Machine.behind
  exact h.window _ (by bv_omega) (by bv_omega)

theorem Alike.prevByte (h : Alike s t) : prevByte t = prevByte s := by
  unfold Machine.prevByte
  rw [h.argDstStart, h.wp]
  split
  · next inside => exact h.window _ (by bv_omega) (by bv_omega)
  · rfl

theorem litByte_alike (h : Alike s t) : EndAlike (litByte P s) (litByte P t) := by
  have same_predicted : predicted P t = predicted P s := by
    unfold predicted
    rw [h.dstate, h.histLen, h.histAt, h.windowSize]
  have same_context : litContext P t = litContext P s := by
    unfold litContext
    rw [h.prevByte]
  unfold litByte
  rw [same_predicted, same_context, h.histAt, h.behind]
  split
  · next available =>
    unfold predicted at available
    simp only [Bool.and_eq_true, decide_eq_true_eq] at available
    obtain ⟨⟨-, nonempty⟩, near⟩ := available
    rw [h.dstByte_behind (h.history.nonzero 0 (by omega)) near]
    exact litMatched_alike _ _ h
  · exact litPlain_alike _ h

/-- Storing the same output byte, where there is room for it. -/
theorem Alike.putByte (h : Alike s t) (room : s.wp < s.argDstEnd) (v : Byte) : Alike (putByte v s) (putByte v t) where
  registers := by rw [h.registers]; rfl
  source := h.source
  window a start below := by
    rw [putByte_wp] at below
    rw [putByte_dst h.dst_wf.1, putByte_dst h.dst_wf.2, h.wp]
    split
    · rfl
    · exact h.window a start (by bv_omega)
  cur_le := h.cur_le
  start_le := by have := h.start_le; change s.argDstStart ≤ s.wp + 1; bv_omega
  wp_le := by change s.wp + 1 ≤ s.argDstEnd; bv_omega
  dst_wf := ⟨putByte_wf h.dst_wf.1 v, putByte_wf h.dst_wf.2 v⟩
  history := HistoryOk.congr (s := s) rfl rfl h.history

theorem literal_alike (hw : P.AsWritten) (room : s.wp < s.argDstEnd) (h : Alike s t) :
    EndAlike (literal P s) (literal P t) := by
  unfold literal
  rw [h.nextState]
  refine (litByte_alike h).bind fun byte u v answered h' => ?_
  have frame : ReaderFrame s u := ((litByte_reads hw s).of_ok answered).2.frame
  have room' : u.wp < u.argDstEnd := by rw [frame]; exact room
  exact .ok ((h'.putByte room' byte).setDstate _)

/-! ### The matches -/

theorem copy_alike {len : Nat} {d : Dist} (h : Alike s t) (pos : d ≠ 0) (near : d.toNat ≤ windowSize s)
    (room : len ≤ roomLeft s) : Alike (copy len d s) (copy len d t) := by
  induction len generalizing s t with
  | zero => exact h
  | succ len ih =>
    have start_le := h.start_le
    have below : s.wp < s.argDstEnd := wp_lt_of_room (by omega) h.wp_le
    unfold roomLeft at room
    rw [copy_succ, copy_succ, h.behind, h.dstByte_behind pos near]
    unfold windowSize at near
    refine ih (h.putByte below _) ?_ ?_
    · change d.toNat ≤ (s.wp + 1 - s.argDstStart).toNat
      bv_omega
    · change len ≤ (s.argDstEnd - (s.wp + 1)).toNat
      bv_omega

theorem Alike.histInsert (h : Alike s t) {d : Dist} (pos : d ≠ 0) : Alike (histInsert d s) (histInsert d t) := by
  obtain ⟨same_hist, same_len⟩ := histInsert_congr h.hist h.histLen d
  have ok := (histInsert_ok pos h.history).1
  have frame_s : Machine.histInsert d s = s.setHist (Machine.histInsert d s).hist (Machine.histInsert d s).histLen :=
    histInsert_frame d s
  have frame_t : Machine.histInsert d t = t.setHist (Machine.histInsert d s).hist (Machine.histInsert d s).histLen := by
    rw [← same_hist, ← same_len]
    exact histInsert_frame d t
  rw [frame_t]
  exact frame_s ▸ h.setHist (frame_s ▸ ok)

theorem matchFinish_alike (next : Vector DecState 12) (len : Nat) (d : Dist) (h : Alike s t) :
    EndAlike (matchFinish next len d s) (matchFinish next len d t) := by
  unfold matchFinish
  rw [h.windowSize, h.roomLeft, h.nextState]
  split
  · exact .raised h
  · next valid =>
    obtain ⟨pos, near⟩ := not_or.mp valid
    split
    · exact .raised h
    · exact .ok (((copy_alike h pos (by omega) (by omega)).histInsert pos).setDstate _)

theorem matchFar_alike (h : Alike s t) : EndAlike (matchFar P s) (matchFar P t) := by
  unfold matchFar
  refine (decodeLen_alike h).bind fun len s t _ h => ?_
  exact (decodeFar_alike h).bind fun d s t _ h => matchFinish_alike _ len d h

theorem matchNear_alike (k : Nat) (h : Alike s t) : EndAlike (matchNear P k s) (matchNear P k t) := by
  unfold matchNear
  refine (decodeLen_alike h).bind fun len s t _ h => ?_
  exact (decodeNear_alike k h).bind fun d s t _ h => matchFinish_alike _ len d h

theorem repMatch_alike (h : Alike s t) : EndAlike (repMatch P s) (repMatch P t) := by
  unfold repMatch
  refine (decodeSlot_alike h).bind fun slot s t _ h => ?_
  rw [h.histAt]
  exact (decodeLen_alike h).bind fun len s t _ h => matchFinish_alike _ len _ h

theorem shortRepMatch_alike (h : Alike s t) : EndAlike (shortRepMatch P s) (shortRepMatch P t) := by
  unfold shortRepMatch
  refine (decodeSlot_alike h).bind fun slot s t _ h => ?_
  rw [h.histAt, h.dstate]
  exact (decode3_alike _ h).bind fun slen s t _ h => matchFinish_alike _ _ _ h

/-! ### The loop -/

theorem typedOperation_alike (n : Nat) (h : Alike s t) : EndAlike (typedOperation P n s) (typedOperation P n t) := by
  unfold typedOperation
  repeat' split
  · exact matchFar_alike h
  · exact matchNear_alike 0 h
  · exact matchNear_alike 1 h
  · exact repMatch_alike h
  · exact shortRepMatch_alike h
  · exact .raised h

theorem quantumStep_alike (hw : P.AsWritten) (room : s.wp < s.argDstEnd) (h : Alike s t) :
    EndAlike (quantumStep P s) (quantumStep P t) := by
  rw [quantumStep_eq, quantumStep_eq]
  unfold selectThen
  rw [h.dstate, h.posIndex]
  refine (decodeBit_alike h _).bind fun l u v answered h' => ?_
  split
  · have bit_reads := decodeBit_reads (P := P) (T := fun _ => True) (isLitCell_lt hw s) trivial s
    have frame : ReaderFrame s u := (bit_reads.of_ok answered).2.frame
    have room' : u.wp < u.argDstEnd := by rw [frame]; exact room
    exact literal_alike hw room' h'
  · exact (decodeTree_alike _ _ h').bind fun n s t _ h => typedOperation_alike n h

theorem quantumLoop_alike (hw : P.AsWritten) (fuel : Nat) (h : Alike s t) :
    EndAlike (quantumLoop P fuel s) (quantumLoop P fuel t) := by
  induction fuel generalizing s t with
  | zero => exact .ok h
  | succ fuel ih =>
    unfold quantumLoop
    rw [h.wp, h.argDstEnd]
    split
    · next room => exact (quantumStep_alike hw room h).bind fun _ s t _ h => ih h
    · exact .ok h

/-! ### The command -/

/-- Two DECODEs that completed agree on all that a DECODE determines. -/
def CompletesAlike (s t : State) : Prop := SameResult s t ∧ SameProgress s t

/-- Two DECODEs that raised `c` agree after fault entry on all that a DECODE determines; a refusal has not moved the
cursors, which come from earlier commands. -/
def FaultsAlike (c : Cause) (s t : State) : Prop :=
  SameResult (faultEntry c s) (faultEntry c t) ∧ (c = .notInitialised ∨ c = .badArguments ∨ SameProgress s t)

theorem sameResult_faultEntry (c : Cause)
    (context : t.cells = s.cells ∧ t.hist = s.hist ∧ t.histLen = s.histLen ∧ t.dstate = s.dstate) :
    SameResult (faultEntry c s) (faultEntry c t) := ⟨context, ⟨rfl, rfl, rfl, rfl⟩, ⟨rfl, rfl⟩⟩

theorem Alike.sameProgress (h : Alike s t) : SameProgress s t where
  cursors := by rw [h.registers]; exact ⟨rfl, rfl, rfl⟩
  window := h.window

theorem Alike.faultsAlike (h : Alike s t) (c : Cause) : FaultsAlike c s t :=
  ⟨sameResult_faultEntry c ⟨h.cells, h.hist, h.histLen, h.dstate⟩, .inr (.inr h.sameProgress)⟩

theorem Alike.completesAlike (h : Alike s t) : CompletesAlike (completeDecode s) (completeDecode t) := by
  refine ⟨?_, h.sameProgress.cursors, h.window⟩
  rw [h.registers]
  exact ⟨⟨rfl, rfl, rfl, rfl⟩, ⟨rfl, rfl, rfl, rfl⟩, ⟨rfl, rfl⟩⟩

theorem loopToEnd_alike (hw : P.AsWritten) (fuel : Nat) (h : Alike s t) :
    Res.Ends CompletesAlike FaultsAlike (loopToEnd P fuel s) (loopToEnd P fuel t) := by
  have looped : Res.Ends Alike FaultsAlike (quantumLoop P fuel s) (quantumLoop P fuel t) :=
    (quantumLoop_alike hw fuel h).mono (fun _ _ h => h) fun c _ _ h => h.faultsAlike c
  exact looped.bind fun _ _ _ _ ended => .ok ended.completesAlike

/-- The cause of a refusal depends on CTX_VALID only (44_quantum_loop.md R201). -/
theorem checkArgs_of_refused (refused : ¬ArgsOk s) :
    checkArgs s = .raised (if s.ctxValid then .badArguments else .notInitialised) s := by
  unfold checkArgs
  cases valid : s.ctxValid with
  | false => rfl
  | true =>
    rw [if_neg (by decide)]
    split
    · rfl
    · next order =>
      obtain ⟨start_le, dst_le⟩ := not_not.mp order
      exact if_pos fun src_le => refused ⟨valid, start_le, dst_le, src_le⟩

theorem decodeQuantum_of_refused (refused : ¬ArgsOk s) : decodeQuantum P s =
    .raised (if s.ctxValid then .badArguments else .notInitialised) (acceptCommand s) := by
  have raised : checkArgs (acceptCommand s) = _ := checkArgs_of_refused refused
  rw [decodeQuantum, raised]
  rfl

/-- The state of a DECODE whose reader has its cursors: WP, CUR and LIM are set and BUSY is 1. -/
def withCursors (s : State) : State := ((acceptCommand s).setWp s.argDst).setReader s.argSrc s.argSrcEnd

theorem decodeQuantum_of_empty (args : ArgsOk s) (empty : s.argDst = s.argDstEnd) :
    decodeQuantum P s = .ok () (completeDecode (withCursors s)) := by
  rw [decodeQuantum_eq, startDecode_of_empty args empty]
  rfl

theorem decodeQuantum_of_room (args : ArgsOk s) (room : s.argDst < s.argDstEnd) : decodeQuantum P s =
    (readerInit P ((acceptCommand s).setWp s.argDst)).bind fun _ t => loopToEnd P (roomLeft t) t := by
  have passed : checkArgs (acceptCommand s) = .ok () (acceptCommand s) := checkArgs_of_ok args
  rw [decodeQuantum, passed]
  exact if_neg (BitVec.ne_of_lt room)

/-- `ReaderInit` in a DECODE with a whole header (40_bitreader.md R121). -/
theorem readerInit_of_header (hw : P.AsWritten) (enough : 16 ≤ (s.argSrcEnd - s.argSrc).toNat) :
    readerInit P ((acceptCommand s).setWp s.argDst) = .ok () (((withCursors s).setAcc
      (BitVec.ofNat 64 (srcWord P s s.argSrc 8)) (BitVec.ofNat 64 (srcWord P s (s.argSrc + 8) 8))).setCur
        (s.argSrc + 16)) := by
  rcases readerInit_cases (P := P) ((acceptCommand s).setWp s.argDst) with ⟨-, loaded⟩ | ⟨short, -⟩
  · rw [loaded, headerWord_asWritten hw, hw.headerBytes]
    rfl
  · rw [hw.headerBytes] at short
    exact absurd short (Nat.not_lt.mpr enough)

/-- `ReaderInit` in a DECODE whose source is shorter than a header. -/
theorem readerInit_of_short (hw : P.AsWritten) (short : (s.argSrcEnd - s.argSrc).toNat < 16) :
    readerInit P ((acceptCommand s).setWp s.argDst) = .raised .truncated (withCursors s) := by
  rcases readerInit_cases (P := P) ((acceptCommand s).setWp s.argDst) with ⟨enough, -⟩ | ⟨-, truncated⟩
  · rw [hw.headerBytes] at enough
    exact absurd short (Nat.not_lt.mpr enough)
  · exact truncated

end Sys2Proof.Machine

namespace Sys2Proof.Safety

open Sys2Proof.Machine
open Sys2Proof.Config (Params)

variable {P : Params} {s t : State}

/-! ### From the inputs to the states that the loop starts in -/

theorem SameInputs.sameContext (same : SameInputs s t) :
    t.cells = s.cells ∧ t.hist = s.hist ∧ t.histLen = s.histLen ∧ t.dstate = s.dstate := by
  obtain ⟨hcells, hhist, hlen, hstate, -⟩ := same.context
  exact ⟨hcells, hhist, hlen, hstate⟩

theorem SameInputs.argsOk (same : SameInputs s t) : ArgsOk t ↔ ArgsOk s := by
  obtain ⟨-, -, -, -, hvalid⟩ := same.context
  obtain ⟨hdst, hend, hstart, hsrc, hsrcEnd⟩ := same.args
  unfold ArgsOk
  rw [hvalid, hdst, hend, hstart, hsrc, hsrcEnd]

/-- With a valid context no fault stands, so ERR is 0. -/
theorem SameInputs.sameFault (same : SameInputs s t) (hs : Inv s) (ht : Inv t) (valid : s.ctxValid = true) :
    t.fault = s.fault ∧ t.err = s.err := by
  obtain ⟨-, -, -, -, hvalid⟩ := same.context
  have no_fault := hs.status.fault_of_valid valid
  have no_fault' := ht.status.fault_of_valid (hvalid.trans valid)
  exact ⟨no_fault'.trans no_fault.symm, (ht.status.err_iff.mpr no_fault').trans (hs.status.err_iff.mpr no_fault).symm⟩

/-- The inputs of a DECODE, with the accumulators and CUR that its reader sets, are all of its registers. -/
theorem SameInputs.sameRegisters (same : SameInputs s t) (fault : t.fault = s.fault) (err : t.err = s.err)
    (a b : Acc) (c : Addr) :
    SameRegisters (((withCursors s).setAcc a b).setCur c) (((withCursors t).setAcc a b).setCur c) := by
  obtain ⟨hcells, hhist, hlen, hstate, hvalid⟩ := same.context
  obtain ⟨hdst, hend, hstart, hsrc, hsrcEnd⟩ := same.args
  cases s
  cases t
  dsimp only at *
  subst_vars
  rfl

theorem SameInputs.sameProgress (same : SameInputs s t) : SameProgress (withCursors s) (withCursors t) where
  cursors := by
    obtain ⟨hdst, -, -, hsrc, hsrcEnd⟩ := same.args
    exact ⟨hsrc, hsrcEnd, hdst⟩
  window := same.window

/-- Behind the header the reader of a DECODE stands alike in both states. -/
theorem SameInputs.started_alike (same : SameInputs s t) (hs : Inv s) (ht : Inv t) (args : ArgsOk s)
    (enough : 16 ≤ (s.argSrcEnd - s.argSrc).toNat) (a b : Acc) :
    Alike (((withCursors s).setAcc a b).setCur (s.argSrc + 16))
      (((withCursors t).setAcc a b).setCur (s.argSrc + 16)) := by
  obtain ⟨valid, start_le, dst_le, src_le⟩ := args
  obtain ⟨fault, err⟩ := same.sameFault hs ht valid
  have behind_header : s.argSrc ≤ s.argSrc + 16 := by bv_omega
  have inside : s.argSrc + 16 ≤ s.argSrcEnd := by bv_omega
  exact
    { registers := same.sameRegisters fault err a b _
      source := fun x from_cur => same.source x (BitVec.le_trans behind_header from_cur)
      window := same.window
      cur_le := inside
      start_le := start_le
      wp_le := dst_le
      dst_wf := ⟨hs.dst_wf, ht.dst_wf⟩
      history := HistoryOk.congr (s := s) rfl rfl hs.history }

/-- The header is read from the source region, and so alike. -/
theorem readerInit_ends (hw : P.AsWritten) (hs : Inv s) (ht : Inv t) (same : SameInputs s t) (args : ArgsOk s) :
    Res.Ends Alike FaultsAlike (readerInit P ((acceptCommand s).setWp s.argDst))
      (readerInit P ((acceptCommand t).setWp t.argDst)) := by
  obtain ⟨-, -, -, hsrc, hsrcEnd⟩ := same.args
  have ⟨_, _, _, src_le⟩ := args
  have size : (t.argSrcEnd - t.argSrc).toNat = (s.argSrcEnd - s.argSrc).toNat := by rw [hsrc, hsrcEnd]
  by_cases enough : 16 ≤ (s.argSrcEnd - s.argSrc).toNat
  · have first : srcWord P t t.argSrc 8 = srcWord P s s.argSrc 8 := by
      rw [hsrc]
      exact srcWord_congr src_le (by omega) same.source
    have second : srcWord P t (t.argSrc + 8) 8 = srcWord P s (s.argSrc + 8) 8 := by
      have later : s.argSrc ≤ s.argSrc + 8 := by bv_omega
      rw [hsrc]
      exact srcWord_congr (by bv_omega) (by bv_omega) fun x from_second =>
        same.source x (BitVec.le_trans later from_second)
    rw [readerInit_of_header hw enough, readerInit_of_header hw (size ▸ enough), first, second, hsrc]
    exact .ok (same.started_alike hs ht args enough _ _)
  · have short := Nat.not_le.mp enough
    rw [readerInit_of_short hw short, readerInit_of_short hw (size ▸ short)]
    exact .raised ⟨sameResult_faultEntry .truncated same.sameContext, .inr (.inr same.sameProgress)⟩

/-- A quantum of zero length completes in both states with RESULT 0. -/
theorem SameInputs.completesAlike (same : SameInputs s t) (hs : Inv s) (ht : Inv t) (valid : s.ctxValid = true) :
    CompletesAlike (completeDecode (withCursors s)) (completeDecode (withCursors t)) := by
  obtain ⟨-, -, -, -, hvalid⟩ := same.context
  obtain ⟨-, -, -, hsrc, -⟩ := same.args
  obtain ⟨fault, -⟩ := same.sameFault hs ht valid
  have fetched : t.argSrc - t.argSrc = s.argSrc - s.argSrc := by rw [hsrc]
  exact ⟨⟨same.sameContext, ⟨rfl, rfl, fault, hvalid⟩, ⟨rfl, fetched⟩⟩, same.sameProgress.cursors,
    same.window⟩

/-- A DECODE depends on its inputs only: in its checks, in the header, and in every operation after it. -/
theorem decodeQuantum_ends (hs : Inv s) (ht : Inv t) (same : SameInputs s t) :
    Res.Ends CompletesAlike FaultsAlike (decodeQuantum Config.params s) (decodeQuantum Config.params t) := by
  obtain ⟨-, -, -, -, hvalid⟩ := same.context
  obtain ⟨hdst, hend, -⟩ := same.args
  by_cases args : ArgsOk s
  · have args' : ArgsOk t := same.argsOk.mpr args
    have ⟨valid, _, dst_le, _⟩ := args
    by_cases empty : s.argDst = s.argDstEnd
    · rw [decodeQuantum_of_empty args empty, decodeQuantum_of_empty args' (by rw [hdst, hend, empty])]
      exact .ok (same.completesAlike hs ht valid)
    · have room : s.argDst < s.argDstEnd := by bv_omega
      rw [decodeQuantum_of_room args room, decodeQuantum_of_room args' (by rw [hdst, hend]; exact room)]
      refine (readerInit_ends params_asWritten hs ht same args).bind fun _ u v _ started => ?_
      rw [started.roomLeft]
      exact loopToEnd_alike params_asWritten _ started
  · have refused : ¬ArgsOk t := fun args' => args (same.argsOk.mp args')
    rw [decodeQuantum_of_refused args, decodeQuantum_of_refused refused, hvalid]
    refine .raised ⟨sameResult_faultEntry _ same.sameContext, ?_⟩
    cases s.ctxValid with
    | true => exact .inr (.inl rfl)
    | false => exact .inl rfl

end Sys2Proof.Safety

namespace Sys2Proof.Proofs

open Sys2Proof.Machine Sys2Proof.Safety

/-- Settles O59: the two DECODEs end alike, and agree on what a completed or a faulted one determines. -/
theorem decodeIsAFunctionOfItsInputs : Obligations.DecodeIsAFunctionOfItsInputs := by
  unfold Obligations.DecodeIsAFunctionOfItsInputs
  intro s t hs ht same
  have ended := decodeQuantum_ends hs ht same
  generalize decodeQuantum Config.params s = r, decodeQuantum Config.params t = r' at ended
  cases ended with
  | ok completed => exact completed
  | raised faulted => exact ⟨rfl, faulted⟩

end Sys2Proof.Proofs
end

section
/-! PROOF. Faults and recovery (60_exceptions.md): what fault entry writes (R236), the reserved command codes (R235), and
the two ways on from a fault, INIT and reset (R237). -/

namespace Sys2Proof.Machine

open Sys2Proof.Config (Params)
open Sys2Proof.Safety

variable {s t : State}

/-! ### Fault entry (60_exceptions.md R236) -/

/-- The code of a cause (60_exceptions.md R230), negated as a 64-bit two's-complement value. -/
theorem causeCode_negated (c : Cause) :
    0 - BitVec.ofNat 64 (causeCode c) = BitVec.ofNat 64 (2 ^ 64 - causeCode c) := by
  cases c <;> decide

theorem faultEntry_eq (c : Cause) (s : State) :
    faultEntry c s = { s with
      err := BitVec.ofNat 8 (causeCode c), result := BitVec.ofNat 64 (2 ^ 64 - causeCode c), fault := true
      ctxValid := false, done := false, phase := .idle } := by
  rw [← causeCode_negated c]
  rfl

theorem statusWord_faultEntry (c : Cause) (s : State) : statusWord (faultEntry c s) = 0b0100 :=
  BitVec.eq_of_toNat_eq (statusWord_toNat (faultEntry c s))

/-- A reserved command code is the fault entry of `BadArguments`, whatever the code (60_exceptions.md R235). -/
theorem exec_cmdReserved (code : BitVec 32) (s : State) :
    exec (.cmdReserved code) s = .next (faultEntry .badArguments s) := rfl

/-! ### Recovery (60_exceptions.md R237) -/

/-- From `s` to `t` nothing recovered: CTX_VALID did not become 1, and FAULT did not become 0. -/
def NotRecovered (s t : State) : Prop :=
  (t.ctxValid = true → s.ctxValid = true) ∧ (s.fault = true → t.fault = true)

theorem NotRecovered.of_eq (valid : t.ctxValid = s.ctxValid) (fault : t.fault = s.fault) : NotRecovered s t :=
  ⟨fun h => valid ▸ h, fun h => fault.trans h⟩

/-- Fault entry recovers nothing, wherever the command was that raised. -/
theorem notRecovered_faultEntry (c : Cause) (s u : State) : NotRecovered s (faultEntry c u) :=
  ⟨nofun, fun _ => rfl⟩

/-- DECODE reads CTX_VALID and leaves it and FAULT alone, unless it faults (44_quantum_loop.md R200 to R202). -/
theorem startDecode_notRecovered (h : settle (startDecode Config.params s) = .next t) : NotRecovered s t := by
  rcases decode_outcome h with ⟨c, -, rfl⟩ | ⟨-, -, rfl⟩ | ⟨-, -, -, rfl⟩ | ⟨-, -, -, a, b, rfl⟩
  · exact notRecovered_faultEntry c s _
  · exact .of_eq rfl rfl
  · exact notRecovered_faultEntry _ s _
  · exact .of_eq rfl rfl

/-- Of the commands only INIT recovers. -/
theorem command_notRecovered {v : BitVec 64} (h : exec (decode (.command v)) s = .next t) :
    decode (.command v) = .init ∨ NotRecovered s t := by
  rcases command_outcome h with ⟨init, -⟩ | ⟨-, started⟩ | ⟨c, -, rfl⟩
  · exact .inl init
  · exact .inr (startDecode_notRecovered started)
  · exact .inr (notRecovered_faultEntry _ s s)

/-- Of the host's actions only a reset clears FAULT, and none validates the context: a write reaches ARG registers
only (10_state.md R33). -/
theorem hostAction_notRecovered {a : HostAction} (h : hostAction a s = .next t) :
    (a = .hwReset ∧ t.ctxValid = false) ∨ NotRecovered s t := by
  rcases hostAction_outcome h with ⟨o, z, v, -, rfl⟩ | ⟨o, z, -, rfl⟩ | ⟨addr, v, -, rfl⟩ | ⟨addr, -, rfl⟩ |
    ⟨addr, v, -, rfl⟩ | ⟨addr, -, rfl⟩ | ⟨reset, rfl⟩
  · obtain ⟨⟨_, _, _, _, _, frame⟩, -⟩ := writeReg_frame o z v s
    rw [frame]; exact .inr (.of_eq rfl rfl)
  · obtain ⟨_, _, frame⟩ := readReg_frame o z s
    rw [frame]; exact .inr (.of_eq rfl rfl)
  · exact .inr (.of_eq rfl rfl)
  · exact .inr (.of_eq rfl rfl)
  · exact .inr (.of_eq rfl rfl)
  · exact .inr (.of_eq rfl rfl)
  · exact .inl ⟨reset, rfl⟩

/-- An operation of the loop writes no STATUS bit (43_match.md R170, 42_literal.md R160). -/
theorem OpStep.notRecovered {P : Params} {T : Nat → Prop} (op : OpStep P T s t) : NotRecovered s t :=
  .of_eq (by rw [op.frame]) (by rw [op.frame])

/-- The next thing an IDLE block does is to run an INIT that the host writes to CMD. -/
def ServesInit (s : State) : Prop :=
  s.phase = .idle ∧ ∃ e rest v, s.script = e :: rest ∧ e.action = .regWrite 0x00 .b64 v ∧ decode (.command v) = .init

/-- Every step recovers nothing, runs INIT, or is a hardware reset, after which the context is invalid. -/
theorem step_notRecovered (h : step s = .next t) :
    NotRecovered s t ∨ ServesInit s ∨
      ((∃ e rest, s.script = e :: rest ∧ e.action = .hwReset) ∧ t.ctxValid = false) := by
  rcases step_outcome h with ⟨-, rfl⟩ | ⟨-, -, l, op⟩ | ⟨-, -, l, c, u, -, rfl⟩ | ⟨-, -, l, rfl⟩ |
    ⟨e, rest, script, ⟨v, write, idle, command⟩ | ⟨-, -, action⟩⟩
  · exact .inl (.of_eq rfl rfl)
  · exact .inl op.notRecovered
  · exact .inl (notRecovered_faultEntry c s u)
  · exact .inl (.of_eq rfl rfl)
  · rcases command_notRecovered command with init | kept
    · exact .inr (.inl ⟨idle, e, rest, v, script, write, init⟩)
    · exact .inl kept
  · rcases hostAction_notRecovered action with ⟨reset, invalid⟩ | kept
    · exact .inr (.inr ⟨⟨e, rest, script, reset⟩, invalid⟩)
    · exact .inl kept

end Sys2Proof.Machine

namespace Sys2Proof.Proofs

open Sys2Proof.Machine Sys2Proof.Safety

/-- Settles O45: a step that recovers runs INIT or is a reset, and a reset leaves the context invalid. -/
theorem onlyInitRecovers : Obligations.OnlyInitRecovers := by
  unfold Obligations.OnlyInitRecovers
  intro s t stepped
  rcases step_notRecovered stepped with ⟨valid_kept, fault_kept⟩ | served | ⟨⟨e, rest, script, reset⟩, invalid⟩
  · refine ⟨fun was_invalid valid => ?_, fun fault cleared => ?_⟩
    · exact absurd (valid_kept valid) (by rw [was_invalid]; decide)
    · exact absurd (fault_kept fault) (by rw [cleared]; decide)
  · have ⟨_, e, rest, v, script, write, init⟩ := served
    exact ⟨fun _ _ => served, fun _ _ => ⟨e, rest, script, .inr ⟨v, write, init⟩⟩⟩
  · refine ⟨fun _ valid => ?_, fun _ _ => ⟨e, rest, script, .inl reset⟩⟩
    exact absurd valid (by rw [invalid]; decide)

/-- Settles O42: the fault entry of cause 6. -/
theorem reservedCommandRaisesBadArguments : Obligations.ReservedCommandRaisesBadArguments := by
  unfold Obligations.ReservedCommandRaisesBadArguments
  intro s code
  rw [exec_cmdReserved, faultEntry_eq]
  rfl

/-- Settles O43: fault entry in its general form, at each of the six causes. -/
theorem faultEntryWritesTheOutcome : Obligations.FaultEntryWritesTheOutcome := by
  unfold Obligations.FaultEntryWritesTheOutcome
  intro s
  exact ⟨faultEntry_eq .truncated s, faultEntry_eq .invalidDistance s, faultEntry_eq .outputOverrun s,
    faultEntry_eq .modelCorruption s, faultEntry_eq .notInitialised s, faultEntry_eq .badArguments s,
    fun c => statusWord_faultEntry c s⟩

end Sys2Proof.Proofs
end

section
/-! PROOF. Hardware reset at any time (70_reset_and_hazards.md R260), and the races with the host on which alone the
machine stops (R272 HD3 and HD4, 93_implementation_defined.md U2). -/

namespace Sys2Proof.Machine

open Sys2Proof.Config (Params)
open Sys2Proof.Safety

variable {s t : State}

/-! ### The bytes that a reset lets through -/

/-- The first `n` bytes from WP are the abandoned operation's, every other byte of DST is the old one. -/
theorem partialWrites_read (after : State) (hw : Memory.wf s.dst = true) {n : Nat} (hn : n ≤ 2 ^ 64) (a : Addr) :
    Memory.read (partialWrites s after n) a = if (a - s.wp).toNat < n then dstByte after a else dstByte s a := by
  induction n with
  | zero => rfl
  | succ n ih =>
    have last : a = s.wp + BitVec.ofNat 64 n ↔ (a - s.wp).toNat = n := by constructor <;> intro h <;> bv_omega
    rw [partialWrites, Memory.read_write (partialWrites_dst after hw n).1, ih (by omega)]
    by_cases h : a = s.wp + BitVec.ofNat 64 n
    · have at_n := last.mp h
      rw [if_pos h, if_pos (by omega), h]
    · have not_n := mt last.mpr h
      rw [if_neg h]
      by_cases below : (a - s.wp).toNat < n
      · rw [if_pos below, if_pos (by omega)]
      · rw [if_neg below, if_neg (by omega)]

/-- However an operation ends, it leaves WP between where it was and the end of the room. -/
theorem quantumStep_wp_bounds {P : Params} (hw : P.AsWritten) (room : s.wp < s.argDstEnd) :
    s.wp ≤ (quantumStep P s).state.wp ∧ (quantumStep P s).state.wp ≤ s.argDstEnd := by
  have op := quantumStep_advances hw room
  rcases ended : quantumStep P s with ⟨⟨⟩, u⟩ | ⟨c, u⟩
  · obtain ⟨ahead, wp_le, same_end, -, -⟩ := op.of_ok ended
    exact ⟨BitVec.le_of_lt ahead, same_end ▸ wp_le⟩
  · obtain ⟨kept, -⟩ := op.of_raised ended
    rw [Res.state, kept]
    exact ⟨BitVec.le_refl _, BitVec.le_of_lt room⟩

/-- No byte gets through but of an operation in progress, and of that no more than it writes. -/
theorem resetProgress_cases (s : State) :
    resetProgress s = 0 ∨ s.phase = .busy ∧ s.wp < s.argDstEnd ∧
      resetProgress s ≤ ((quantumStep Config.params s).state.wp - s.wp).toNat := by
  unfold resetProgress
  split
  · next running =>
    simp only [State.busy, Bool.and_eq_true, decide_eq_true_eq] at running
    exact .inr ⟨running.1, running.2, Nat.min_le_left _ _⟩
  · exact .inl rfl

theorem resetProgress_idle (hp : s.phase = .idle) : resetProgress s = 0 := by
  rcases resetProgress_cases s with none | ⟨busy, -⟩
  · exact none
  · exact absurd (hp.symm.trans busy) (by decide)

/-- What a reset leaves in DST. -/
theorem dstByte_hardReset (hw : Memory.wf s.dst = true) (a : Addr) :
    dstByte (hardReset s) a =
      if (a - s.wp).toNat < resetProgress s then dstByte (quantumStep Config.params s).state a else dstByte s a := by
  refine partialWrites_read _ hw ?_ a
  rcases resetProgress_cases s with none | ⟨-, -, le⟩ <;> omega

/-- A byte that a reset changes is one that the operation in progress was to write. -/
theorem hardReset_written (hw : Memory.wf s.dst = true) {a : Addr} (changed : dstByte (hardReset s) a ≠ dstByte s a) :
    s.wp ≤ a ∧ a < s.argDstEnd := by
  rw [dstByte_hardReset hw] at changed
  have through : (a - s.wp).toNat < resetProgress s := by
    by_contra beyond
    exact changed (if_neg beyond)
  rcases resetProgress_cases s with none | ⟨-, room, le⟩
  · omega
  · obtain ⟨forward, inside⟩ := quantumStep_wp_bounds params_asWritten room
    constructor <;> bv_omega

theorem hardReset_dst_idle (hp : s.phase = .idle) : (hardReset s).dst = s.dst := by
  unfold hardReset
  rw [resetProgress_idle hp]
  rfl

theorem statusWord_hardReset (s : State) : statusWord (hardReset s) = 0 :=
  BitVec.eq_of_toNat_eq (statusWord_toNat (hardReset s))

/-- A due reset is served at once. -/
theorem step_hwReset (h : dueEvent s = some (.hwReset, t)) : step s = .next (hardReset t) := by
  rcases step_event h with ⟨_, command, -⟩ | ⟨-, served⟩
  · cases command
  · exact served

/-! ### Where the machine stops -/

/-- A host access to a byte of the source region (20_memory.md R60). -/
def TouchesSource (s : State) (a : HostAction) : Prop :=
  ∃ addr, ((∃ v, a = .srcWrite addr v) ∨ a = .srcRead addr) ∧ s.argSrc ≤ addr ∧ addr < s.argSrcEnd

/-- A host access to a byte of the window or of the region to fill (20_memory.md R61). -/
def TouchesWindow (s : State) (a : HostAction) : Prop :=
  ∃ addr, ((∃ v, a = .dstWrite addr v) ∨ a = .dstRead addr) ∧ s.argDstStart ≤ addr ∧ addr < s.argDstEnd

theorem busy_inSource {a : Addr} (h : (s.busy && inSource s a) = true) :
    s.phase = .busy ∧ s.argSrc ≤ a ∧ a < s.argSrcEnd := by
  simpa [State.busy, inSource] using h

theorem busy_inWindow {a : Addr} (h : (s.busy && inWindow s a) = true) :
    s.phase = .busy ∧ s.argDstStart ≤ a ∧ a < s.argDstEnd := by
  simpa [State.busy, inWindow] using h

/-- An access to SRC is served, or it is a race with the command in progress. -/
theorem sourceAccess_next_or_race {a : HostAction} {addr : Addr}
    (access : (∃ v, a = .srcWrite addr v) ∨ a = .srcRead addr) :
    (∃ t, hostAction a s = .next t) ∨
    (s.phase = .busy ∧ TouchesSource s a ∧ hostAction a s = .fault .raceOnSource) := by
  by_cases race : (s.busy && inSource s addr) = true
  · obtain ⟨busy, inside⟩ := busy_inSource race
    refine .inr ⟨busy, ⟨addr, access, inside⟩, ?_⟩
    rcases access with ⟨v, rfl⟩ | rfl <;> exact if_pos race
  · rcases access with ⟨v, rfl⟩ | rfl <;> exact .inl ⟨_, if_neg race⟩

/-- An access to DST is served, or it is a race with the command in progress. -/
theorem windowAccess_next_or_race {a : HostAction} {addr : Addr}
    (access : (∃ v, a = .dstWrite addr v) ∨ a = .dstRead addr) :
    (∃ t, hostAction a s = .next t) ∨
    (s.phase = .busy ∧ TouchesWindow s a ∧ hostAction a s = .fault .raceOnWindow) := by
  by_cases race : (s.busy && inWindow s addr) = true
  · obtain ⟨busy, inside⟩ := busy_inWindow race
    refine .inr ⟨busy, ⟨addr, access, inside⟩, ?_⟩
    rcases access with ⟨v, rfl⟩ | rfl <;> exact if_pos race
  · rcases access with ⟨v, rfl⟩ | rfl <;> exact .inl ⟨_, if_neg race⟩

/-- A host action gives a next state, or it is a race with the command in progress. -/
theorem hostAction_next_or_race (a : HostAction) (s : State) :
    (∃ t, hostAction a s = .next t) ∨
    (s.phase = .busy ∧ TouchesSource s a ∧ hostAction a s = .fault .raceOnSource) ∨
    (s.phase = .busy ∧ TouchesWindow s a ∧ hostAction a s = .fault .raceOnWindow) := by
  cases a with
  | regWrite offset size v => exact .inl ⟨_, rfl⟩
  | regRead offset size => exact .inl ⟨_, rfl⟩
  | srcWrite addr v => exact (sourceAccess_next_or_race (.inl ⟨v, rfl⟩)).imp_right .inl
  | srcRead addr => exact (sourceAccess_next_or_race (.inr rfl)).imp_right .inl
  | dstWrite addr v => exact (windowAccess_next_or_race (.inl ⟨v, rfl⟩)).imp_right .inr
  | dstRead addr => exact (windowAccess_next_or_race (.inr rfl)).imp_right .inr
  | hwReset => exact .inl ⟨_, rfl⟩

/-- A move of the decode loop gives a next state, whatever it decodes. -/
theorem step_next_of_loopTurn (h : LoopTurn s) : ∃ t, step s = .next t := by
  rw [step_loop h]
  split
  · exact settle_next _
  · exact ⟨_, rfl⟩

/-- A step gives a next state, unless it serves an action of the host's that does not. -/
theorem step_next_or_event (s : State) :
    (∃ t, step s = .next t) ∨ ∃ a u, dueEvent s = some (a, u) ∧ step s = hostAction a u := by
  rcases step_cases s with ⟨-, -, still⟩ | turn | ⟨a, u, due⟩
  · exact .inl ⟨s, still⟩
  · exact .inl (step_next_of_loopTurn turn)
  · rcases step_event due with ⟨v, -, -, command⟩ | ⟨-, served⟩
    · rw [command]; exact .inl (exec_next _ _)
    · exact .inr ⟨a, u, due, served⟩

end Sys2Proof.Machine

namespace Sys2Proof.Proofs

open Sys2Proof.Machine Sys2Proof.Safety

/-- Settles O49: the registers are those of the reset state, and DST is what the reset lets through. -/
theorem hardwareResetAtAnyTime : Obligations.HardwareResetAtAnyTime := by
  unfold Obligations.HardwareResetAtAnyTime
  intro s s' inv due
  obtain ⟨-, rest, -, -, rfl, -⟩ := dueEvent_some due
  have dst_wf : Memory.wf (s.setScript rest).dst = true := inv.dst_wf
  exact ⟨hardReset (s.setScript rest), step_hwReset due, statusWord_hardReset _,
    rfl, rfl, rfl, rfl, rfl, rfl, rfl, rfl, rfl, rfl, rfl, rfl,
    fun idle => hardReset_dst_idle (s := s.setScript rest) idle,
    ⟨_, resetProgress_cases (s.setScript rest), dstByte_hardReset dst_wf⟩,
    fun _ changed => hardReset_written dst_wf changed⟩

/-- Settles O50: a command and a move of the loop always give a next state, and of the host's actions only an access to
the buffers of a command in progress does not. -/
theorem stopsOnlyOnHostRaces : Obligations.StopsOnlyOnHostRaces := by
  unfold Obligations.StopsOnlyOnHostRaces
  intro s
  rcases step_next_or_event s with next | ⟨a, u, due, served⟩
  · exact .inl next
  obtain ⟨e, rest, script, rfl, rfl, lands⟩ := dueEvent_some due
  rw [served]
  have on_time (busy : s.phase = .busy) : s.script = ⟨.afterMoves 0, e.action⟩ :: rest := by
    rw [script, ← lands busy]
  rcases hostAction_next_or_race _ (s.setScript rest) with next | ⟨busy, ⟨addr, access, low, high⟩, stop⟩ |
    ⟨busy, ⟨addr, access, low, high⟩, stop⟩
  · exact .inl next
  · exact .inr ⟨busy, _, rest, on_time busy, .inl ⟨addr, access, low, high, stop⟩⟩
  · exact .inr ⟨busy, _, rest, on_time busy, .inr ⟨addr, access, low, high, stop⟩⟩

end Sys2Proof.Proofs
end
